-- ==== Sys2Proof/Word.lean ====
section
/-! DEFINITION. The word types of the SIPC link block (00_scope.md R7, R8). -/

namespace Sys2Proof

/-- One byte of a frame or of shared memory (R8). -/
abbrev Byte := BitVec 8

/-- A byte sequence (R8). -/
abbrev Bytes := List Byte

/-- A mailbox value is 16 bits wide (R7). -/
abbrev U16 := BitVec 16

/-- Index words, the magic word and the counters are 32 bits wide (R7, R41). -/
abbrev U32 := BitVec 32

/-- A channel id is 8 bits wide (R7). -/
abbrev ChanId := BitVec 8

/-- A ring id is a name out of the finite set `P_RINGS` (R6). -/
abbrev RingId := Nat

/-- A sparse table keyed by naturals: sorted by key, no key twice, no entry equal to the value an
unlisted key has. Its operations are in Machine/SMap.lean. -/
abbrev SMap (β : Type) := List (Nat × β)

end Sys2Proof
end

