-- ==== Sys2Proof/Config.lean ====
section
/-! DEFINITION. The implementation parameters of 00_scope.md R6 and the layout of 20_memory.md R62, as plain
data. Every one is OPEN in the spec. A machine carries its configuration in `State.cfg`, so that a
claim about every state is a claim about every configuration (assumption 1). -/

namespace Sys2Proof

/-- The kind of a channel (R6, R11). -/
inductive ChanKind where
  | fmt | rfs | raw | multiRaw | boot | ramdump | cmd
deriving DecidableEq, Repr

/-- The delivery of a channel (R6). -/
inductive Delivery where
  | misc | net
deriving DecidableEq, Repr

/-- The kind of a mailbox data pair (30_encoding.md R98). -/
inductive MbxKind where
  | data | reqAck | resAck
deriving DecidableEq, Repr

/-- Which framing the configuration asks for. SIPC4 has no bytes in any source and is refused
(44_link_control.md R266, assumption 24). -/
inductive Framing where
  | sipc5 | sipc4
deriving DecidableEq, Repr

/-- One ring of `P_RINGS`: its sizes (R6), its part of `P_LAYOUT` (20_memory.md R62), `P_ACK_RING`, `P_PAD`, and
`P_MBX_ENCODE` of its three one-pair sets, the only sets the block encodes (44_link_control.md R265, assumption 2). -/
structure RingCfg where
  id : RingId
  txSize : Nat
  rxSize : Nat
  txHead : Nat
  txTail : Nat
  txBase : Nat
  rxHead : Nat
  rxTail : Nat
  rxBase : Nat
  ackRing : Bool
  pad : Bool
  encData : U16
  encReqAck : U16
  encResAck : U16
deriving DecidableEq, Repr

/-- One entry of `P_CHANNELS`, with `P_RING_OF` of it. `ring` is `none` only for kind CMD (R6). -/
structure ChanCfg where
  id : ChanId
  kind : ChanKind
  delivery : Delivery
  ring : Option RingId
deriving DecidableEq, Repr

/-- One row of `P_IS_CMD`: v is a command when some row has `v &&& mask = value` (assumption 2). -/
structure CmdRow where
  mask : U16
  value : U16
deriving DecidableEq, Repr

/-- One row of `P_MBX_DECODE`: `(ring, kind)` is in the decode of v when some such row has
`v &&& mask = value` (assumption 2). -/
structure MbxRow where
  mask : U16
  value : U16
  ring : RingId
  kind : MbxKind
deriving DecidableEq, Repr

/-- The configuration (R6). `rings` is `P_RINGS` in list order (44_link_control.md R260). -/
structure Config where
  rings : List RingCfg
  chans : List ChanCfg
  magicAddr : Nat
  magic : U32
  shmSize : Nat
  txqDepth : Nat
  rxqDepth : Nat
  pollMax : Nat
  cmdRows : List CmdRow
  mbxRows : List MbxRow
  framing : Framing
deriving DecidableEq, Repr

/-! The parameters of R6 that no rule reads: the informative delays (70_reset_and_hazards.md R322) and the command
values, which only the external command unit uses (44_link_control.md R267). They have no value here (assumption 3). -/

/-- `P_POLL_DELAY`, "short delay" (R6, R322). -/
opaque Config.pollDelay : Nat

/-- `P_SLEEP_DELAY`, "~tens of ms" (R6, R322). -/
opaque Config.sleepDelay : Nat

/-- `P_LINKOFF_DELAY`, not given (R6, R322). -/
opaque Config.linkoffDelay : Nat

/-- `P_RETRY_DELAY`, "~1 ms" (R6, R322). -/
opaque Config.retryDelay : Nat

/-- `P_RES_ACK_TIMEOUT`, "multi-hundred-ms" (R6, R322). -/
opaque Config.resAckTimeout : Nat

/-- `P_CMD_INIT_END` (R6, R267). -/
opaque Config.cmdInitEnd : U16

/-- `P_CMD_CRASH_RESET` (R6, R267). -/
opaque Config.cmdCrashReset : U16

/-- `P_CMD_CRASH_EXIT` (R6, R267). -/
opaque Config.cmdCrashExit : U16

/-- `P_CMD_PHONE_START` (R6, R267). -/
opaque Config.cmdPhoneStart : U16

end Sys2Proof
end

