-- ==== Sys2Proof/Syntax.lean ====
section
/-! DEFINITION. The operations of the block (30_encoding.md R100, R101), its pseudo-operation FRAME_BUILD (R102)
and the frame forms of the wire format (R94, R128): one constructor per row of opcode_table.json. -/

namespace Sys2Proof

/-- The control byte's fields (R96): `more` is bit 7, `sid` is bits 6:0. -/
structure Ctl where
  more : Bool
  sid : BitVec 7
deriving DecidableEq, Repr

/-- The record PARSE_HEADER returns (40_codec.md R126). -/
structure Hdr where
  channelId : ChanId
  frameLen : Nat
  headerLen : Nat
  isExtended : Bool
  isControl : Bool
  hasPadding : Bool
  ctl : Option Ctl
deriving DecidableEq, Repr

/-- The link mode (10_state.md R24). -/
inductive LinkMode where
  | offline | boot | ipc | dload | uload
deriving DecidableEq, Repr

/-- Who started the FORBID_SLEEP whose poll is in progress (10_state.md R23). -/
inductive Origin where
  | host
  | xmit (r : RingId)
deriving DecidableEq, Repr

/-- The instructions of the block. -/
inductive Instr where
  | calcPadding (n : Nat)
  | headerLen (cfg : Byte)
  | buildHeader (ch : ChanId) (plen : Nat) (pad : Bool) (ctl : Option Ctl)
  | parseHeader (bytes : Bytes)
  | totalFrameLen (hdr : Hdr)
  | route (ch : ChanId) (payload : Bytes) (ctl : Option Ctl)
  | rxRead (ch : ChanId)
  | channelReset (ch : ChanId)
  | txEnqueue (ch : ChanId) (payload : Bytes) (ctl : Option Ctl)
  | getTxSpace (r : RingId)
  | getRxUsed (r : RingId)
  | xmit (r : RingId)
  | retryTimerFire (r : RingId)
  | resAckTimeout (r : RingId)
  | rxDrain (r : RingId)
  | mbxReqAck (r : RingId)
  | mbxResAck (r : RingId)
  | forbidSleep (origin : Origin)
  | pollStep
  | permitSleep
  | sleepTimerFire
  | linkoffTimerFire
  | apWakeupEdge (level : Bool)
  | cpStatusEdge (level : Bool)
  | mbxIrq (v : U16)
  | setMode (m : LinkMode)
  | flushTx
  | frameBuild (ch : ChanId) (payload : Bytes) (pad : Bool) (ctl : Option Ctl)
  /-- A frame with a 4-byte header on the wire: `body` is payload and padding (R94). -/
  | sipc5Hdr4 (cfg : Byte) (ch : ChanId) (len : U16) (body : Bytes)
  /-- A frame with a 5-byte header on the wire (R94). -/
  | sipc5Hdr5Ctl (cfg : Byte) (ch : ChanId) (len : U16) (ctl : Byte) (body : Bytes)
  /-- A frame with a 6-byte header on the wire (R94). -/
  | sipc5Hdr6Ext (cfg : Byte) (ch : ChanId) (len : U32) (body : Bytes)
  /-- A config byte whose START bit is 0 (R92, R128). -/
  | sipc5BadConfig (cfg : Byte)
deriving DecidableEq, Repr

end Sys2Proof
end

