-- ==== Sys2Proof/Machine/Outcomes.lean ====
section
/-! DEFINITION. The outcomes of operations and their error codes (60_exceptions.md R280), and the results of the codec's
functions (40_codec.md R126, R131). -/

namespace Sys2Proof.Machine

/-- A hard parse error (40_codec.md R128, R129; codes 1 and 2 of R280). -/
inductive ParseError where
  | badConfig (cfg : Byte)
  | badLength (len : Nat)
deriving DecidableEq, Repr

/-- What PARSE_HEADER returns (40_codec.md R126). -/
inductive ParseResult where
  | ok (hdr : Hdr)
  | incomplete (need : Nat)
  | bad (e : ParseError)
deriving DecidableEq, Repr

/-- How SPLIT ended (40_codec.md R131). -/
inductive SplitEnd where
  | clean
  | partialFrame (need : Nat)
  | malformed (e : ParseError)
deriving DecidableEq, Repr

/-- What SPLIT returns: the complete frames with their payloads, the bytes they took, and the end (R131). -/
structure SplitResult where
  frames : List (Hdr × Bytes)
  off : Nat
  ending : SplitEnd
deriving DecidableEq, Repr

/-- The head, tail and size values read once per operation (20_memory.md R73). -/
structure Snapshot where
  head : Nat
  tail : Nat
  size : Nat
deriving DecidableEq, Repr

/-- The error outcomes of R280. -/
inductive ErrorCode where
  | parse (e : ParseError)
  | tooLong (total : Nat)
  | noSuchChannel (ch : ChanId)
  | rxQueueFull (ch : ChanId)
  | netInvalid (ch : ChanId)
  | txQueueFull (ch : ChanId)
  | eio (r : RingId)
  | desync (r : RingId)
  | malformed (e : ParseError)
  | linkNotReady
  | ackTimeout (r : RingId)
  | linkDown
deriving DecidableEq, Repr

/-- The source's classes of R280 and R282. -/
inductive ErrorClass where
  | frameLevel | spaceLevel | linkLevel | linkDown
deriving DecidableEq, Repr

/-- The number of an error outcome (R280). -/
def ErrorCode.code : ErrorCode → Nat
  | .parse (.badConfig _) => 1
  | .parse (.badLength _) => 2
  | .tooLong _ => 3
  | .noSuchChannel _ => 4
  | .rxQueueFull _ => 5
  | .netInvalid _ => 6
  | .txQueueFull _ => 7
  | .eio _ => 8
  | .desync _ => 9
  | .malformed _ => 10
  | .linkNotReady => 11
  | .ackTimeout _ => 12
  | .linkDown => 13

/-- How an error outcome propagates (R282): by its code. -/
def ErrorCode.level (e : ErrorCode) : ErrorClass :=
  match e.code with
  | 1 | 2 | 4 | 6 => .frameLevel
  | 3 | 5 | 7 | 12 => .spaceLevel
  | 13 => .linkDown
  | _ => .linkLevel

/-- The outcome of one operation (R280). `number`, `bytes`, `parsed`, `space` and `used` carry the values of the
functions and of the two snapshot reads. `refused` is the model's refusal mark, not an outcome of the chip. -/
inductive OpOutcome where
  | number (n : Nat)
  | bytes (b : Bytes)
  | parsed (hdr : Hdr)
  | incomplete (need : Nat)
  | space (free : Nat) (snap : Snapshot)
  | used (n : Nat) (snap : Snapshot)
  | ok
  | queued
  | sent (n : Nat)
  | noSpc (n : Nat)
  | drained (k : Nat)
  | data (d : Bytes)
  | empty
  | delivered
  | accumulated
  | forwarded
  | dispatched
  | ignored
  | stale
  | rescheduled
  | released
  | cancelled
  | refused
  | error (e : ErrorCode)
deriving DecidableEq, Repr

end Sys2Proof.Machine
end

