-- ==== Sys2Proof/Machine/Params.lean ====
section
/-! DEFINITION. Reading the parameters of 00_scope.md R6: the layout's regions, the mailbox predicate and its decode and
encode, the lookups by ring and by channel id, and the test configuration K. -/

namespace Sys2Proof

/-- The regions of one ring's layout as (first byte, length) (20_memory.md R62). -/
def RingCfg.regions (rc : RingCfg) : List (Nat × Nat) :=
  [(rc.txHead, 4), (rc.txTail, 4), (rc.txBase, rc.txSize),
   (rc.rxHead, 4), (rc.rxTail, 4), (rc.rxBase, rc.rxSize)]

/-- All regions of `P_LAYOUT` (R62). -/
def Config.regions (c : Config) : List (Nat × Nat) :=
  (c.magicAddr, 4) :: c.rings.flatMap RingCfg.regions

/-- `SHM_SIZE` covers every address of `P_LAYOUT` (R61). -/
def Config.fits (c : Config) : Bool :=
  c.regions.all fun g => decide (g.1 + g.2 ≤ c.shmSize)

/-- `P_IS_CMD(v)` (R6). -/
def Config.isCmd (c : Config) (v : U16) : Bool :=
  c.cmdRows.any fun w => v &&& w.mask == w.value

/-- `(r, k) ∈ P_MBX_DECODE(v)` (R6). -/
def Config.mbxHas (c : Config) (v : U16) (r : RingId) (k : MbxKind) : Bool :=
  c.mbxRows.any fun w => w.ring == r && w.kind == k && v &&& w.mask == w.value

/-- The decode of `v` names a ring outside `P_RINGS` (60_exceptions.md R290). -/
def Config.mbxStray (c : Config) (v : U16) : Bool :=
  c.mbxRows.any fun w => v &&& w.mask == w.value && !(c.rings.any fun rc => rc.id == w.ring)

/-- `P_MBX_ENCODE({(r, k)})` of a ring (R265). -/
def RingCfg.encode (rc : RingCfg) : MbxKind → U16
  | .data => rc.encData
  | .reqAck => rc.encReqAck
  | .resAck => rc.encResAck

/-- The ring with this id, if it is in `P_RINGS` (R6). -/
def Config.ring? (c : Config) (r : RingId) : Option RingCfg :=
  c.rings.find? fun rc => rc.id == r

/-- `P_CHANNELS(ch)`: the lookup is by exact id match (41_demux.md R140). -/
def Config.chan? (c : Config) (ch : ChanId) : Option ChanCfg :=
  c.chans.find? fun cc => cc.id == ch

/-- `P_RING_OF` of a channel (R6). -/
def Config.ringFor (c : Config) (cc : ChanCfg) : Option RingCfg :=
  match cc.ring with
  | some r => c.ring? r
  | none => none

/-- The one ring of the test configuration (95_test_vectors.md section 3.1). -/
def Config.ringK : RingCfg where
  id := 0
  txSize := 32
  rxSize := 32
  txHead := 0x004
  txTail := 0x008
  txBase := 0x020
  rxHead := 0x00C
  rxTail := 0x010
  rxBase := 0x040
  ackRing := true
  pad := false
  encData := 0x0001
  encReqAck := 0x0002
  encResAck := 0x0004

/-- The test configuration K of 95_test_vectors.md section 3.1, which the reset state carries
(assumption 1). `shmSize` is the end of the last region. -/
def Config.testK : Config where
  rings := [Config.ringK]
  chans := [⟨1, .fmt, .misc, some 0⟩, ⟨5, .raw, .misc, some 0⟩, ⟨10, .raw, .net, some 0⟩]
  magicAddr := 0x000
  magic := 0xAA55AA55
  shmSize := 0x060
  txqDepth := 4
  rxqDepth := 4
  pollMax := 3
  cmdRows := [⟨0x8000, 0x8000⟩]
  mbxRows := [⟨0x8001, 0x0001, 0, .data⟩, ⟨0x8002, 0x0002, 0, .reqAck⟩, ⟨0x8004, 0x0004, 0, .resAck⟩]
  framing := .sipc5

end Sys2Proof
end

