-- ==== Sys2Proof/Machine/Codec.lean ====
section
/-! DEFINITION. The frame codec (40_codec.md, 30_encoding.md sections 1 to 3): pure functions over byte sequences. -/

namespace Sys2Proof.Machine

/-- The little-endian value of a byte sequence (20_memory.md R60). -/
def leNat : Bytes → Nat
  | [] => 0
  | b :: bs => b.toNat + 256 * leNat bs

/-- The `n` low-order bytes of `v`, least significant first (R60). -/
def leBytes : Nat → Nat → Bytes
  | 0, _ => []
  | n + 1, v => BitVec.ofNat 8 v :: leBytes n (v / 256)

/-- The control byte: bit 7 MORE, bits 6:0 SID (30_encoding.md R96). -/
def ctlByte (c : Ctl) : Byte :=
  BitVec.ofNat 8 ((if c.more then 0x80 else 0) + c.sid.toNat)

/-- The fields of a control byte (R96). -/
def ctlOfByte (b : Byte) : Ctl :=
  ⟨b.getLsbD 7, b.extractLsb' 0 7⟩

/-- CALC_PADDING (R120). -/
def calcPadding (n : Nat) : Nat :=
  (4 - n % 4) % 4

/-- HEADER_LEN (R121, R94): a lookup on EXT (bit 5) and CTL (bit 4). -/
def headerLen (cfg : Byte) : Nat :=
  if cfg.getLsbD 5 then (if cfg.getLsbD 4 then 5 else 6) else 4

/-- The PAD bit in its place in the config byte (R91, R122). -/
def padBit (pad : Bool) : Byte :=
  if pad then 0x40 else 0x00

/-- BUILD_HEADER (R122 to R125). -/
def buildHeader (ch : ChanId) (plen : Nat) (pad : Bool) (ctl : Option Ctl) : Except ErrorCode Bytes :=
  match ctl with
  | some c =>
    if 5 + plen > 0xFFFF then .error (.tooLong (5 + plen))
    else .ok ([0x80 ||| padBit pad ||| 0x20 ||| 0x10, ch] ++ leBytes 2 (5 + plen) ++ [ctlByte c])
  | none =>
    if 4 + plen ≤ 0xFFFF then .ok ([0x80 ||| padBit pad, ch] ++ leBytes 2 (4 + plen))
    else if 6 + plen > 0xFFFFFFFF then .error (.tooLong (6 + plen))
    else .ok ([0x80 ||| padBit pad ||| 0x20, ch] ++ leBytes 4 (6 + plen))

/-- TOTAL_FRAME_LEN (R130). -/
def totalFrameLen (h : Hdr) : Nat :=
  h.frameLen + (if h.hasPadding then calcPadding h.frameLen else 0)

/-- The header record of bytes whose config byte is `cfg` and whose header is all there (R126). -/
def readHdr (cfg : Byte) (bs : Bytes) : Hdr where
  channelId := bs.getD 1 0
  frameLen := if headerLen cfg = 6 then leNat ((bs.drop 2).take 4) else leNat ((bs.drop 2).take 2)
  headerLen := headerLen cfg
  isExtended := cfg.getLsbD 5
  isControl := headerLen cfg == 5
  hasPadding := cfg.getLsbD 6
  ctl := if headerLen cfg = 5 then some (ctlOfByte (bs.getD 4 0)) else none

/-- PARSE_HEADER (R126 to R129). -/
def parseHeader (bs : Bytes) : ParseResult :=
  match bs with
  | [] => .incomplete 1
  | cfg :: _ =>
    if cfg.getLsbD 7 = false then .bad (.badConfig cfg)
    else if bs.length < headerLen cfg then .incomplete (headerLen cfg)
    else if (readHdr cfg bs).frameLen < headerLen cfg then .bad (.badLength (readHdr cfg bs).frameLen)
    else if bs.length < totalFrameLen (readHdr cfg bs) then .incomplete (totalFrameLen (readHdr cfg bs))
    else .ok (readHdr cfg bs)

/-- FRAME_BUILD (30_encoding.md R102): header, payload, and the padding the transport adds. -/
def frameBuild (ch : ChanId) (payload : Bytes) (pad : Bool) (ctl : Option Ctl) : Except ErrorCode Bytes :=
  match buildHeader ch payload.length pad ctl with
  | .error e => .error e
  | .ok h =>
    .ok (h ++ payload ++
      List.replicate (if pad then calcPadding (h.length + payload.length) else 0) 0)

/-- SPLIT from offset `off` on, by fuel (R131). Each complete frame takes at least 4 bytes, so the number of
bytes is fuel enough. -/
def splitFrom : Nat → Bytes → Nat → SplitResult
  | 0, _, off => ⟨[], off, .clean⟩
  | fuel + 1, bs, off =>
    if bs = [] then ⟨[], off, .clean⟩
    else
      match parseHeader bs with
      | .ok hdr =>
        let rest := splitFrom fuel (bs.drop (totalFrameLen hdr)) (off + totalFrameLen hdr)
        { rest with frames := (hdr, (bs.take hdr.frameLen).drop hdr.headerLen) :: rest.frames }
      | .incomplete n => ⟨[], off, .partialFrame n⟩
      | .bad e => ⟨[], off, .malformed e⟩

/-- SPLIT (R131). -/
def split (bs : Bytes) : SplitResult :=
  splitFrom (bs.length + 1) bs 0

/-- The outcome of PARSE_HEADER as an operation (R126, R280). -/
def ParseResult.outcome : ParseResult → OpOutcome
  | .ok hdr => .parsed hdr
  | .incomplete need => .incomplete need
  | .bad e => .error (.parse e)

/-- The outcome of an operation that builds bytes (R122, R102). -/
def builtOutcome : Except ErrorCode Bytes → OpOutcome
  | .ok b => .bytes b
  | .error e => .error e

/-! The bytes of the four frame forms of the wire format (30_encoding.md R94, R128). -/

/-- A frame with a 4-byte header (R94). -/
def hdr4Bytes (cfg : Byte) (ch : ChanId) (len : U16) (body : Bytes) : Bytes :=
  [cfg, ch] ++ leBytes 2 len.toNat ++ body

/-- A frame with a 5-byte header (R94). -/
def hdr5Bytes (cfg : Byte) (ch : ChanId) (len : U16) (ctl : Byte) (body : Bytes) : Bytes :=
  [cfg, ch] ++ leBytes 2 len.toNat ++ [ctl] ++ body

/-- A frame with a 6-byte header (R94). -/
def hdr6Bytes (cfg : Byte) (ch : ChanId) (len : U32) (body : Bytes) : Bytes :=
  [cfg, ch] ++ leBytes 4 len.toNat ++ body

/-- How many bytes follow the header of a frame: payload and padding (R90, R97); none when the length field is
below the header length, which is no frame (R129). -/
def bodyLen (cfg : Byte) (len : Nat) : Nat :=
  if len < headerLen cfg then 0
  else len - headerLen cfg + (if cfg.getLsbD 6 then calcPadding len else 0)

end Sys2Proof.Machine
end

