-- ==== Sys2Proof/WellFormed.lean ====
section
/-! DEFINITION. The checks on a configuration (00_scope.md R6, 20_memory.md R62) and on an instruction's operands
(30_encoding.md R101 and the operand lines of each rule). -/

namespace Sys2Proof

/-- Two regions share no byte (R62). -/
def regionsApart (a b : Nat × Nat) : Bool :=
  decide (a.1 + a.2 ≤ b.1) || decide (b.1 + b.2 ≤ a.1)

/-- The words of one ring are aligned and its sizes are in range (R6, R62). -/
def RingCfg.wf (rc : RingCfg) : Bool :=
  decide (2 ≤ rc.txSize) && decide (rc.txSize < 2 ^ 32) &&
  decide (2 ≤ rc.rxSize) && decide (rc.rxSize < 2 ^ 32) &&
  decide (rc.txHead % 4 = 0) && decide (rc.txTail % 4 = 0) &&
  decide (rc.rxHead % 4 = 0) && decide (rc.rxTail % 4 = 0)

/-- The laws R6 sets on `P_MBX_ENCODE`, for the sets the block encodes: the value is no command and
decodes to exactly the one pair. -/
def Config.mbxLaw (c : Config) (rc : RingCfg) (k : MbxKind) : Bool :=
  !c.isCmd (rc.encode k) && c.mbxHas (rc.encode k) rc.id k &&
  c.mbxRows.all fun w =>
    !(rc.encode k &&& w.mask == w.value) || (w.ring == rc.id && w.kind == k)

/-- The channel's ring must use REQ_ACK/RES_ACK: `P_ACK_RING` is true for rings carrying FMT or RFS (R6). -/
def ChanCfg.needsAck (cc : ChanCfg) : Bool :=
  cc.kind == .fmt || cc.kind == .rfs

/-- The ring of a channel exists, and is an ack ring when the channel is FMT or RFS; a CMD channel has none (R6). -/
def Config.chanOk (c : Config) (cc : ChanCfg) : Bool :=
  match cc.ring with
  | some r => cc.kind != .cmd && c.rings.any fun rc => rc.id == r && (!cc.needsAck || rc.ackRing)
  | none => cc.kind == .cmd

/-- A well-formed configuration (R6, R61, R62). -/
def Config.wf (c : Config) : Bool :=
  c.fits &&
  decide (c.regions.Pairwise fun a b => regionsApart a b = true) &&
  decide (c.magicAddr % 4 = 0) &&
  decide (c.rings.map (·.id)).Nodup &&
  decide (c.chans.map (·.id)).Nodup &&
  c.rings.all RingCfg.wf &&
  c.chans.all c.chanOk &&
  decide (1 ≤ c.txqDepth) && decide (1 ≤ c.rxqDepth) && decide (1 ≤ c.pollMax) &&
  c.rings.all fun rc => c.mbxLaw rc .data && c.mbxLaw rc .reqAck && c.mbxLaw rc .resAck


/-- A header record PARSE_HEADER or BUILD_HEADER can give (40_codec.md R126, R130): one of the three variants of R94,
its length at least the header length and within the length field. -/
def Hdr.wf (h : Hdr) : Bool :=
  decide (h.headerLen ≤ h.frameLen) &&
  (h.isControl == decide (h.headerLen = 5)) && (h.ctl.isSome == h.isControl) &&
  ((decide (h.headerLen = 4) && !h.isExtended && decide (h.frameLen < 2 ^ 16)) ||
   (decide (h.headerLen = 5) && h.isExtended && decide (h.frameLen < 2 ^ 16)) ||
   (decide (h.headerLen = 6) && h.isExtended && decide (h.frameLen < 2 ^ 32)))

/-- A ring id of `P_RINGS` (R101). -/
def Config.hasRing (c : Config) (r : RingId) : Bool :=
  (c.ring? r).isSome

/-- The operands have the types their rules give (30_encoding.md R101; 40_codec.md R121, R130; R94). The types of `Instr`
hold the rest: a mode outside the five, or a channel id over 8 bits, cannot be written. -/
def Instr.wf (c : Config) : Instr → Bool
  | .calcPadding _ => true
  | .headerLen cfg => cfg.getLsbD 7
  | .buildHeader _ _ _ _ => true
  | .parseHeader _ => true
  | .totalFrameLen hdr => hdr.wf
  | .route _ _ _ => true
  | .rxRead _ => true
  | .channelReset _ => true
  | .txEnqueue _ _ _ => true
  | .getTxSpace r => c.hasRing r
  | .getRxUsed r => c.hasRing r
  | .xmit r => c.hasRing r
  | .retryTimerFire r => c.hasRing r
  | .resAckTimeout r => c.hasRing r
  | .rxDrain r => c.hasRing r
  | .mbxReqAck r => c.hasRing r
  | .mbxResAck r => c.hasRing r
  | .forbidSleep .host => true
  | .forbidSleep (.xmit r) => c.hasRing r
  | .pollStep => true
  | .permitSleep => true
  | .sleepTimerFire => true
  | .linkoffTimerFire => true
  | .apWakeupEdge _ => true
  | .cpStatusEdge _ => true
  | .mbxIrq v => c.isCmd v || !c.mbxStray v
  | .setMode _ => true
  | .flushTx => true
  | .frameBuild _ _ _ _ => true
  | .sipc5Hdr4 cfg _ len body =>
    cfg.getLsbD 7 && !cfg.getLsbD 5 && decide (body.length = Machine.bodyLen cfg len.toNat)
  | .sipc5Hdr5Ctl cfg _ len _ body =>
    cfg.getLsbD 7 && cfg.getLsbD 5 && cfg.getLsbD 4 &&
    decide (body.length = Machine.bodyLen cfg len.toNat)
  | .sipc5Hdr6Ext cfg _ len body =>
    cfg.getLsbD 7 && cfg.getLsbD 5 && !cfg.getLsbD 4 &&
    decide (body.length = Machine.bodyLen cfg len.toNat)
  | .sipc5BadConfig cfg => !cfg.getLsbD 7

end Sys2Proof
end

