-- ==== Sys2Proof/Decode.lean ====
section
/-! DEFINITION. Decoding bytes to an instruction and, after it, encoding. Two encoding spaces share the first byte: the
operation numbers of 30_encoding.md R100, and the config byte of the wire format (R91, R94), whose frames are bit-exact.
A byte that is an operation number of R100 begins an operation; any other byte is a config byte (assumption 9). The
spec gives the operands of an operation no bits: the operand layout here is the model's own (assumption 10). -/

namespace Sys2Proof

/-- Why bytes are no instruction. -/
inductive DecodeError where
  /-- there is no byte at all -/
  | noBytes
  /-- the bytes end inside the instruction -/
  | truncated
  /-- a natural's last group is zero, so that a shorter form exists -/
  | notMinimal
  /-- a bit operand that is neither 0 nor 1 -/
  | badBit (b : Byte)
  /-- an option tag that is neither 0 nor 1 -/
  | badOption (b : Byte)
  /-- a mode outside the five of 10_state.md R24 -/
  | badMode (b : Byte)
  /-- an origin tag that is neither 0 nor 1 (10_state.md R23) -/
  | badOrigin (b : Byte)
  /-- a header variant outside the three of 30_encoding.md R94 -/
  | badVariant (b : Byte)
  /-- a header record whose frame length does not fit its variant's length field -/
  | badHeaderRecord (frameLen : Nat)
deriving DecidableEq, Repr

/-- The operations of R100 that have a number. -/
inductive Op where
  | calcPadding | headerLen | buildHeader | parseHeader | totalFrameLen
  | route | rxRead | channelReset
  | txEnqueue | getTxSpace | getRxUsed | xmit | retryTimerFire | resAckTimeout
  | rxDrain | mbxReqAck | mbxResAck
  | forbidSleep | pollStep | permitSleep | sleepTimerFire | linkoffTimerFire
  | apWakeupEdge | cpStatusEdge
  | mbxIrq | setMode | flushTx
deriving DecidableEq, Repr

/-- The operation numbers of R100. -/
def opNumber : Op → Byte
  | .calcPadding => 0x01
  | .headerLen => 0x02
  | .buildHeader => 0x03
  | .parseHeader => 0x04
  | .totalFrameLen => 0x05
  | .route => 0x10
  | .rxRead => 0x11
  | .channelReset => 0x12
  | .txEnqueue => 0x20
  | .getTxSpace => 0x21
  | .getRxUsed => 0x22
  | .xmit => 0x23
  | .retryTimerFire => 0x24
  | .resAckTimeout => 0x25
  | .rxDrain => 0x26
  | .mbxReqAck => 0x27
  | .mbxResAck => 0x28
  | .forbidSleep => 0x30
  | .pollStep => 0x31
  | .permitSleep => 0x32
  | .sleepTimerFire => 0x33
  | .linkoffTimerFire => 0x34
  | .apWakeupEdge => 0x35
  | .cpStatusEdge => 0x36
  | .mbxIrq => 0x40
  | .setMode => 0x41
  | .flushTx => 0x42

/-- All operations, in the order of R100. -/
def allOps : List Op :=
  [.calcPadding, .headerLen, .buildHeader, .parseHeader, .totalFrameLen,
   .route, .rxRead, .channelReset,
   .txEnqueue, .getTxSpace, .getRxUsed, .xmit, .retryTimerFire, .resAckTimeout,
   .rxDrain, .mbxReqAck, .mbxResAck,
   .forbidSleep, .pollStep, .permitSleep, .sleepTimerFire, .linkoffTimerFire,
   .apWakeupEdge, .cpStatusEdge, .mbxIrq, .setMode, .flushTx]

/-- The operation with this number, if there is one. -/
def opOfByte (b : Byte) : Option Op :=
  allOps.find? fun op => opNumber op == b

/-! Reading operands. Each reader takes bytes and answers the operand with the bytes that follow it. -/

/-- A reader of one operand. -/
abbrev Reader (α : Type) := Bytes → Except DecodeError (α × Bytes)

/-- Read one operand, then go on with it. -/
def Reader.next {α γ : Type} (p : Reader α) (f : α → Reader γ) : Reader γ := fun bs =>
  match p bs with
  | .error e => .error e
  | .ok (a, rest) => f a rest

/-- The reading is complete. -/
def Reader.done {α : Type} (a : α) : Reader α := fun bs => .ok (a, bs)

/-- One byte. -/
def getByte : Reader Byte
  | [] => .error .truncated
  | b :: bs => .ok (b, bs)

/-- A natural, 7 bits a byte, least significant group first, bit 7 set on every byte but the last. -/
def getNat : Reader Nat
  | [] => .error .truncated
  | b :: bs =>
    if b.toNat < 128 then .ok (b.toNat, bs)
    else
      match getNat bs with
      | .error e => .error e
      | .ok (n, rest) =>
        if n = 0 then .error .notMinimal else .ok (b.toNat - 128 + 128 * n, rest)

/-- `n` bytes. -/
def getRaw (n : Nat) : Reader Bytes := fun bs =>
  if bs.length < n then .error .truncated else .ok (bs.take n, bs.drop n)

/-- A little-endian number of `n` bytes (20_memory.md R60). -/
def getLe (n : Nat) : Reader Nat :=
  (getRaw n).next fun b => .done (Machine.leNat b)

/-- A byte sequence: its length, then its bytes. -/
def getBytes : Reader Bytes :=
  getNat.next fun n => getRaw n

/-- One bit, in a byte. -/
def getBit : Reader Bool :=
  getByte.next fun b =>
    if b = 0 then .done false else if b = 1 then .done true else fun _ => .error (.badBit b)

/-- The `ctl?` operand (R101): a tag, then the control byte of R96. -/
def getCtl : Reader (Option Ctl) :=
  getByte.next fun b =>
    if b = 0 then .done none
    else if b = 1 then getByte.next fun c => .done (some (Machine.ctlOfByte c))
    else fun _ => .error (.badOption b)

/-- A link mode, in the order of 10_state.md R24. -/
def getMode : Reader LinkMode :=
  getByte.next fun b =>
    if b = 0 then .done .offline
    else if b = 1 then .done .boot
    else if b = 2 then .done .ipc
    else if b = 3 then .done .dload
    else if b = 4 then .done .uload
    else fun _ => .error (.badMode b)

/-- The origin operand of FORBID_SLEEP (10_state.md R23). -/
def getOrigin : Reader Origin :=
  getByte.next fun b =>
    if b = 0 then .done .host
    else if b = 1 then getNat.next fun r => .done (.xmit r)
    else fun _ => .error (.badOrigin b)

/-- The largest length of a variant's length field (R94). -/
def variantLimit (hl : Nat) : Nat :=
  if hl = 6 then 2 ^ 32 else 2 ^ 16

/-- The header record of a variant with header length `hl`, a payload length and, in the 5-byte variant, a
control byte (R94, 40_codec.md R126). -/
def hdrOf (ch : ChanId) (hl : Nat) (pad : Bool) (plen : Nat) (ctl : Option Ctl) : Hdr where
  channelId := ch
  frameLen := hl + plen
  headerLen := hl
  isExtended := !(hl == 4)
  isControl := hl == 5
  hasPadding := pad
  ctl := ctl

/-- Accept a header record whose length fits. -/
def doneHdr (h : Hdr) : Reader Hdr := fun bs =>
  if h.frameLen < variantLimit h.headerLen then .ok (h, bs) else .error (.badHeaderRecord h.frameLen)

/-- The header record operand of TOTAL_FRAME_LEN: channel id, variant (0, 1, 2 for header lengths 4, 5, 6),
padding bit, payload length, and the control byte of the 5-byte variant. -/
def getHdr : Reader Hdr :=
  getByte.next fun ch => getByte.next fun v => getBit.next fun pad => getNat.next fun plen =>
    if v = 0 then doneHdr (hdrOf ch 4 pad plen none)
    else if v = 1 then
      getByte.next fun c => doneHdr (hdrOf ch 5 pad plen (some (Machine.ctlOfByte c)))
    else if v = 2 then doneHdr (hdrOf ch 6 pad plen none)
    else fun _ => .error (.badVariant v)

/-- The operands of each operation, in the order R101 and the operand lines of the rules give them. -/
def decodeOperands : Op → Reader Instr
  | .calcPadding => getNat.next fun n => .done (.calcPadding n)
  | .headerLen => getByte.next fun cfg => .done (.headerLen cfg)
  | .buildHeader =>
    getByte.next fun ch => getNat.next fun plen => getBit.next fun pad => getCtl.next fun ctl =>
      .done (.buildHeader ch plen pad ctl)
  | .parseHeader => getBytes.next fun b => .done (.parseHeader b)
  | .totalFrameLen => getHdr.next fun h => .done (.totalFrameLen h)
  | .route =>
    getByte.next fun ch => getBytes.next fun p => getCtl.next fun ctl => .done (.route ch p ctl)
  | .rxRead => getByte.next fun ch => .done (.rxRead ch)
  | .channelReset => getByte.next fun ch => .done (.channelReset ch)
  | .txEnqueue =>
    getByte.next fun ch => getBytes.next fun p => getCtl.next fun ctl => .done (.txEnqueue ch p ctl)
  | .getTxSpace => getNat.next fun r => .done (.getTxSpace r)
  | .getRxUsed => getNat.next fun r => .done (.getRxUsed r)
  | .xmit => getNat.next fun r => .done (.xmit r)
  | .retryTimerFire => getNat.next fun r => .done (.retryTimerFire r)
  | .resAckTimeout => getNat.next fun r => .done (.resAckTimeout r)
  | .rxDrain => getNat.next fun r => .done (.rxDrain r)
  | .mbxReqAck => getNat.next fun r => .done (.mbxReqAck r)
  | .mbxResAck => getNat.next fun r => .done (.mbxResAck r)
  | .forbidSleep => getOrigin.next fun o => .done (.forbidSleep o)
  | .pollStep => .done .pollStep
  | .permitSleep => .done .permitSleep
  | .sleepTimerFire => .done .sleepTimerFire
  | .linkoffTimerFire => .done .linkoffTimerFire
  | .apWakeupEdge => getBit.next fun l => .done (.apWakeupEdge l)
  | .cpStatusEdge => getBit.next fun l => .done (.cpStatusEdge l)
  | .mbxIrq => (getLe 2).next fun v => .done (.mbxIrq (BitVec.ofNat 16 v))
  | .setMode => getMode.next fun m => .done (.setMode m)
  | .flushTx => .done .flushTx

/-- The bytes of a frame on the wire, by its config byte (30_encoding.md R92, R94, R95). -/
def decodeFrame : Reader Instr
  | [] => .error .noBytes
  | cfg :: bs =>
    if cfg.getLsbD 7 = false then .ok (.sipc5BadConfig cfg, bs)
    else if Machine.headerLen cfg = 4 then
      (getByte.next fun ch => (getLe 2).next fun len =>
        (getRaw (Machine.bodyLen cfg len)).next fun body =>
          .done (.sipc5Hdr4 cfg ch (BitVec.ofNat 16 len) body)) bs
    else if Machine.headerLen cfg = 5 then
      (getByte.next fun ch => (getLe 2).next fun len => getByte.next fun ctl =>
        (getRaw (Machine.bodyLen cfg len)).next fun body =>
          .done (.sipc5Hdr5Ctl cfg ch (BitVec.ofNat 16 len) ctl body)) bs
    else
      (getByte.next fun ch => (getLe 4).next fun len =>
        (getRaw (Machine.bodyLen cfg len)).next fun body =>
          .done (.sipc5Hdr6Ext cfg ch (BitVec.ofNat 32 len) body)) bs

/-- The instruction at the front of the bytes, with the bytes that follow it (assumption 9). -/
def decode : Reader Instr
  | [] => .error .noBytes
  | b :: bs =>
    match opOfByte b with
    | some op => decodeOperands op bs
    | none => decodeFrame (b :: bs)

/-! Encoding. -/

/-- The groups of a natural, by fuel. -/
def putNatFuel : Nat → Nat → Bytes
  | 0, n => [BitVec.ofNat 8 n]
  | fuel + 1, n =>
    if n < 128 then [BitVec.ofNat 8 n]
    else BitVec.ofNat 8 (128 + n % 128) :: putNatFuel fuel (n / 128)

/-- A natural; `n` groups are fuel enough. -/
def putNat (n : Nat) : Bytes := putNatFuel n n

/-- A byte sequence. -/
def putBytes (b : Bytes) : Bytes := putNat b.length ++ b

/-- One bit. -/
def putBit (b : Bool) : Bytes := if b then [1] else [0]

/-- The `ctl?` operand. -/
def putCtl : Option Ctl → Bytes
  | none => [0]
  | some c => [1, Machine.ctlByte c]

/-- A link mode. -/
def putMode : LinkMode → Bytes
  | .offline => [0]
  | .boot => [1]
  | .ipc => [2]
  | .dload => [3]
  | .uload => [4]

/-- An origin. -/
def putOrigin : Origin → Bytes
  | .host => [0]
  | .xmit r => 1 :: putNat r

/-- A header record. -/
def putHdr (h : Hdr) : Bytes :=
  [h.channelId, if h.headerLen = 4 then 0 else if h.headerLen = 5 then 1 else 2] ++
  putBit h.hasPadding ++ putNat (h.frameLen - h.headerLen) ++
  (match h.ctl with
   | some c => [Machine.ctlByte c]
   | none => [])

/-- An operation: its number, then its operands. -/
def putOp (op : Op) (operands : Bytes) : Bytes := opNumber op :: operands

/-- The bytes of an instruction. FRAME_BUILD has no operation number and so no bytes (R102, assumption 11). -/
def encode : Instr → Option Bytes
  | .calcPadding n => some (putOp .calcPadding (putNat n))
  | .headerLen cfg => some (putOp .headerLen [cfg])
  | .buildHeader ch plen pad ctl =>
    some (putOp .buildHeader (ch :: putNat plen ++ putBit pad ++ putCtl ctl))
  | .parseHeader b => some (putOp .parseHeader (putBytes b))
  | .totalFrameLen h => some (putOp .totalFrameLen (putHdr h))
  | .route ch p ctl => some (putOp .route (ch :: putBytes p ++ putCtl ctl))
  | .rxRead ch => some (putOp .rxRead [ch])
  | .channelReset ch => some (putOp .channelReset [ch])
  | .txEnqueue ch p ctl => some (putOp .txEnqueue (ch :: putBytes p ++ putCtl ctl))
  | .getTxSpace r => some (putOp .getTxSpace (putNat r))
  | .getRxUsed r => some (putOp .getRxUsed (putNat r))
  | .xmit r => some (putOp .xmit (putNat r))
  | .retryTimerFire r => some (putOp .retryTimerFire (putNat r))
  | .resAckTimeout r => some (putOp .resAckTimeout (putNat r))
  | .rxDrain r => some (putOp .rxDrain (putNat r))
  | .mbxReqAck r => some (putOp .mbxReqAck (putNat r))
  | .mbxResAck r => some (putOp .mbxResAck (putNat r))
  | .forbidSleep o => some (putOp .forbidSleep (putOrigin o))
  | .pollStep => some (putOp .pollStep [])
  | .permitSleep => some (putOp .permitSleep [])
  | .sleepTimerFire => some (putOp .sleepTimerFire [])
  | .linkoffTimerFire => some (putOp .linkoffTimerFire [])
  | .apWakeupEdge l => some (putOp .apWakeupEdge (putBit l))
  | .cpStatusEdge l => some (putOp .cpStatusEdge (putBit l))
  | .mbxIrq v => some (putOp .mbxIrq (Machine.leBytes 2 v.toNat))
  | .setMode m => some (putOp .setMode (putMode m))
  | .flushTx => some (putOp .flushTx [])
  | .frameBuild _ _ _ _ => none
  | .sipc5Hdr4 cfg ch len body => some (Machine.hdr4Bytes cfg ch len body)
  | .sipc5Hdr5Ctl cfg ch len ctl body => some (Machine.hdr5Bytes cfg ch len ctl body)
  | .sipc5Hdr6Ext cfg ch len body => some (Machine.hdr6Bytes cfg ch len body)
  | .sipc5BadConfig cfg => some [cfg]

/-- The bytes of an instruction whose table bits are `w`: the `nbits` bits the table gives, in whole bytes, least
significant first, and operand bytes of zeros. -/
def tableBytes (nbits w : Nat) : Bytes :=
  Machine.leBytes ((nbits + 7) / 8) w ++ List.replicate 16 0

/-- The instruction the decoder reads from the bits of an opcode-table row. -/
def decodeTableWord (nbits w : Nat) : Option Instr :=
  match decode (tableBytes nbits w) with
  | .ok (i, _) => some i
  | .error _ => none

end Sys2Proof
end

