-- ==== Sys2Proof/Machine/SMap.lean ====
section
/-! DEFINITION. Reading and writing a sparse table. An unlisted key reads as the default `d`; writing `d`
removes the entry, so that equal tables are equal lists. Shared memory, the per-ring state, the per-channel
state and the reassembly sessions are such tables. -/

namespace Sys2Proof.Machine

variable {β : Type}

/-- The value at key `k`: the first entry of that key, or the default. -/
def SMap.get (d : β) : SMap β → Nat → β
  | [], _ => d
  | (a, v) :: m, k => if a = k then v else SMap.get d m k

/-- Put an entry at its place among rising keys. -/
def SMap.insert : SMap β → Nat → β → SMap β
  | [], k, v => [(k, v)]
  | (a, w) :: m, k, v =>
    if k < a then (k, v) :: (a, w) :: m
    else if a = k then (k, v) :: m
    else (a, w) :: SMap.insert m k v

/-- Write `v` at key `k`. -/
def SMap.put [DecidableEq β] (d : β) (m : SMap β) (k : Nat) (v : β) : SMap β :=
  if v = d then m.filter (fun c => c.1 != k) else SMap.insert m k v

/-- The canonical form: keys strictly rising, no entry equal to the default. -/
abbrev SMap.wf (d : β) (m : SMap β) : Prop :=
  m.Pairwise (fun a b => a.1 < b.1) ∧ ∀ c ∈ m, c.2 ≠ d

end Sys2Proof.Machine
end

