-- ==== Sys2Proof/Machine/State.lean ====
section
/-! DEFINITION. The state of the machine (10_state.md, 20_memory.md), as plain data, and its reset value (10_state.md R49,
70_reset_and_hazards.md R310). -/

namespace Sys2Proof.Machine

/-- Shared memory (20_memory.md R61): the bytes that differ from what an unlisted byte reads as. -/
abbrev Memory := List Host.Cell

/-- One deferred timer (60_exceptions.md R291). Its armed flag is true in `armed` and in `posted`; `posted` says that the
TIMERS agent has appended the expiry of this arming (43_pm.md R225, assumption 22). -/
inductive Timer where
  | off | armed | posted
deriving DecidableEq, Repr

/-- Who gets the outcome of the XMIT whose wake is in progress: HOST, or no one because the retry timer
started it (42_ring.md R183, assumption 13). -/
inductive Requester where
  | host | retryTimer
deriving DecidableEq, Repr

/-- The liveness poll in progress (10_state.md R23). -/
structure Poll where
  remaining : Nat
  origin : Origin
  requester : Requester
deriving DecidableEq, Repr

/-- The state of one ring (10_state.md R25 to R28, R31). `ackWait` is none when `off`, waiting otherwise. -/
structure RingState where
  txq : List Bytes
  resRequired : Bool
  retry : Timer
  rxAckOwed : Bool
  ackWait : Timer
deriving DecidableEq, Repr

/-- The reset value of a ring's state (R49). -/
def RingState.init : RingState := ⟨[], false, .off, false, .off⟩

/-- The state of one channel (10_state.md R29, R30); `reasm` is keyed by the session id. -/
structure ChanState where
  rxq : List Bytes
  reasm : SMap (Option Bytes)
deriving DecidableEq, Repr

/-- The reset value of a channel's state (R49). -/
def ChanState.init : ChanState := ⟨[], []⟩

/-- The power-management state (10_state.md R33 to R35, R37 to R39). -/
structure Pm where
  refCnt : Nat
  apStatus : Bool
  cpWakeup : Bool
  sleep : Timer
  linkoff : Timer
  wakeGen : Nat
  sleepGen : Nat
deriving DecidableEq, Repr

/-- The diagnostic counters (10_state.md R41). -/
structure Counters where
  badHeader : U32
  noChannel : U32
  netInvalid : U32
  txqDrop : U32
  rxqDrop : U32
  ignoredIrq : U32
  recovery : U32
deriving DecidableEq, Repr

/-- The names of the counters (R41). -/
inductive Counter where
  | badHeader | noChannel | netInvalid | txqDrop | rxqDrop | ignoredIrq | recovery
deriving DecidableEq, Repr

/-- The sticky set of fault reasons (10_state.md R43, 60_exceptions.md R290). -/
structure FaultSet where
  remoteDutyBroken : Bool
  hostDutyBroken : Bool
deriving DecidableEq, Repr

/-- The two reasons of R290. -/
inductive DutyReason where
  | remote | host
deriving DecidableEq, Repr

/-- The output lines (20_memory.md R67). -/
inductive OutLine where
  | apStatus | cpWakeup
deriving DecidableEq, Repr

/-- Why a recovery is requested (44_link_control.md R264). -/
inductive RecoveryReason where
  | ringCorrupt (r : RingId)
  | ringDesync (r : RingId)
  | linkNotReady
deriving DecidableEq, Repr

/-- One entry of the history (10_state.md R48). `input` is an input event performed; `outcome` is the outcome of an
operation HOST did not request; `result` is the output event that gives HOST the outcome of its request
(R21, assumption 13); the rest are the output events of 00_scope.md R9. -/
inductive HistEvent where
  | input (i : Instr)
  | outcome (i : Instr) (o : OpOutcome)
  | result (i : Instr) (o : OpOutcome)
  | mbxOut (w : U16)
  | gpio (line : OutLine) (v : Bool)
  | wake (ch : ChanId)
  | netDeliver (ch : ChanId) (data : Bytes)
  | cmdFrame (ch : ChanId) (payload : Bytes)
  | cmdOut (v : U16)
  | recovery (why : RecoveryReason)
deriving DecidableEq, Repr

/-- A timer of the block (60_exceptions.md R291). -/
inductive TimerId where
  | sleep
  | linkoff
  | retry (r : RingId)
  | resAck (r : RingId)
deriving DecidableEq, Repr

/-- A step of the CP (00_scope.md R5, 60_exceptions.md R293): a write of a field it owns (20_memory.md R66), a write
elsewhere, a line level, or a mailbox value. -/
inductive CpMove where
  | txTail (r : RingId) (v : U32)
  | rxHead (r : RingId) (v : U32)
  | rxData (r : RingId) (index : Nat) (bytes : Bytes)
  | magic (v : U32)
  | elsewhere (addr : Nat) (bytes : Bytes)
  | apWakeup (level : Bool)
  | cpStatus (level : Bool)
  | mailbox (v : U16)
deriving DecidableEq, Repr

/-- One turn of one agent (00_scope.md R5). -/
inductive Move where
  | blk
  | host (i : Instr)
  | cp (m : CpMove)
  | timer (t : TimerId)
deriving DecidableEq, Repr

/-- The state: the configuration, the block state of 10_state.md, shared memory and the input lines of 20_memory.md,
and two fields of the model's own: the RX data bytes the CP has written and not published yet, by address, which its
duty `data before head` is judged by (20_memory.md R66, assumption 29), and the turns still to come (assumption 6). -/
structure State where
  cfg : Config
  inbox : List Instr
  busy : Option Poll
  mode : LinkMode
  rings : SMap RingState
  chans : SMap ChanState
  pm : Pm
  cnt : Counters
  refused : Bool
  fault : FaultSet
  history : List HistEvent
  shm : Memory
  apWakeup : Bool
  cpStatus : Bool
  rxWritten : SMap Bool
  schedule : List Move
deriving DecidableEq, Repr

/-- Why the machine stops. -/
inductive Fault where
  /-- An operation would touch shared memory of a layout that `SHM_SIZE` does not cover (20_memory.md R61, R76). Raised
  by every operation that reads or writes shared memory, before it does anything. Safe: it needs a
  configuration that is not well-formed (assumption 23). -/
  | shmOutOfRange
  /-- TX_ENQUEUE on a channel whose ring is not in `P_RINGS` (00_scope.md R6). Safe: it needs a configuration
  that is not well-formed (assumption 23). -/
  | channelWithoutRing (ch : ChanId)
deriving DecidableEq, Repr

/-- Why the model gives no meaning. -/
inductive Refusal where
  /-- The instruction has no meaning in the model. Raised by exec's arm; safe. No arm raises it. -/
  | notModelled (mnemonic : String)
deriving DecidableEq, Repr

/-- What a step or a meaning answers. -/
abbrev Answer := Host.Outcome State Fault Refusal

/-- The reset value of the power-management state (R49). -/
def Pm.init : Pm := ⟨0, false, false, .off, .off, 0, 0⟩

/-- The reset value of the counters (R49). -/
def Counters.init : Counters := ⟨0, 0, 0, 0, 0, 0, 0⟩

/-- The state after reset of a machine with configuration `c`, in an environment whose shared memory and input
lines the launch gives (70_reset_and_hazards.md R310, R312). `fault` is empty whatever that memory holds (R43, R49): a
launch memory that 93_implementation_defined.md X16 calls a breach of the CP, such as a frame that is not well-formed, is no
step and records nothing; that shared memory is well-formed is a premise of a claim, `State.launchable` (DESIGN
CHOICE, assumption 30). No RX byte counts as written and not published (assumption 29). -/
def State.resetWith (c : Config) (shm : Memory) (apWakeup cpStatus : Bool) : State where
  cfg := c
  inbox := []
  busy := none
  mode := .offline
  rings := []
  chans := []
  pm := Pm.init
  cnt := Counters.init
  refused := false
  fault := ⟨false, false⟩
  history := []
  shm := shm
  apWakeup := apWakeup
  cpStatus := cpStatus
  rxWritten := []
  schedule := []

/-- The machine right after reset: configuration K (assumption 1), no byte of shared memory listed (assumption 4),
both input lines low (assumption 5), no turn scheduled (assumption 6). -/
def State.reset : State := State.resetWith Config.testK [] false false

end Sys2Proof.Machine
end

