-- ==== Sys2Proof/Machine/Ops.lean ====
section
/-! DEFINITION. The named operations over the history, the per-ring and per-channel state, shared memory and the output
lines (00_scope.md R9), and the escalation of link-level errors (60_exceptions.md R286). The block has no trap entry and no
return from one (R286, R287): escalation is its only "trap", and it is `State.requestRecovery`. -/

namespace Sys2Proof.Machine

/-! The history (10_state.md R48). -/

/-- Append an entry: `emit` of R9. -/
def State.emit (s : State) (e : HistEvent) : State :=
  { s with history := s.history ++ [e] }

/-- Record the outcome of an operation HOST did not request (10_state.md R21, 60_exceptions.md R283). -/
def State.settle (s : State) (i : Instr) (o : OpOutcome) : State :=
  s.emit (.outcome i o)

/-- Give HOST the outcome of its request (R21). `refused` is no outcome of the chip (60_exceptions.md R280), so it is recorded
and not handed out (assumption 14). -/
def State.reply (s : State) (i : Instr) (o : OpOutcome) : State :=
  match o with
  | .refused => s.emit (.outcome i .refused)
  | _ => s.emit (.result i o)

/-! Per-ring and per-channel state. -/

/-- The state of ring `r`. -/
def State.ring (s : State) (r : RingId) : RingState :=
  SMap.get RingState.init s.rings r

/-- Write the state of ring `r`. -/
def State.setRing (s : State) (r : RingId) (v : RingState) : State :=
  { s with rings := SMap.put RingState.init s.rings r v }

/-- The state of channel `ch`. -/
def State.chan (s : State) (ch : ChanId) : ChanState :=
  SMap.get ChanState.init s.chans ch.toNat

/-- Write the state of channel `ch`. -/
def State.setChan (s : State) (ch : ChanId) (v : ChanState) : State :=
  { s with chans := SMap.put ChanState.init s.chans ch.toNat v }

/-- The reassembly buffer of session `sid` (10_state.md R30). -/
def ChanState.session (c : ChanState) (sid : BitVec 7) : Option Bytes :=
  SMap.get none c.reasm sid.toNat

/-- Write the reassembly buffer of session `sid`. -/
def ChanState.setSession (c : ChanState) (sid : BitVec 7) (b : Option Bytes) : ChanState :=
  { c with reasm := SMap.put none c.reasm sid.toNat b }

/-! Shared memory (20_memory.md). -/

/-- What a byte no one has written reads as (assumption 4). -/
def unlistedByte : Byte := 0

/-- Read one byte. -/
def Memory.read (m : Memory) (a : Nat) : Byte :=
  SMap.get unlistedByte m a

/-- Write one byte. -/
def Memory.write (m : Memory) (a : Nat) (b : Byte) : Memory :=
  SMap.put unlistedByte m a b

/-- The canonical form of shared memory. -/
abbrev Memory.wf (m : Memory) : Prop :=
  SMap.wf unlistedByte m

/-- `MemReadBytes` (R9). -/
def Memory.readBytes (m : Memory) (a : Nat) : Nat → Bytes
  | 0 => []
  | n + 1 => m.read a :: Memory.readBytes m (a + 1) n

/-- `MemWriteBytes` (R9). -/
def Memory.writeBytes (m : Memory) (a : Nat) : Bytes → Memory
  | [] => m
  | b :: bs => Memory.writeBytes (m.write a b) (a + 1) bs

/-- `MemRead` of `n` bytes, little-endian (R9, R60). -/
def Memory.readLe (m : Memory) (a n : Nat) : Nat :=
  leNat (m.readBytes a n)

/-- `MemWrite` of `n` bytes, little-endian (R9, R60). -/
def Memory.writeLe (m : Memory) (a n v : Nat) : Memory :=
  m.writeBytes a (leBytes n v)

/-- Put bytes into a ring of `size` bytes at `base`, from index `h` on, with wraparound (20_memory.md R64). -/
def Memory.ringPut (base size : Nat) (m : Memory) (h : Nat) : Bytes → Memory
  | [] => m
  | b :: bs => Memory.ringPut base size (m.write (base + h % size) b) (h + 1) bs

/-- Take `k` bytes out of a ring of `size` bytes at `base`, from index `t` on (R64, 42_ring.md R176). -/
def Memory.ringTake (base size : Nat) (m : Memory) (t : Nat) : Nat → Bytes
  | 0 => []
  | k + 1 => m.read (base + t % size) :: Memory.ringTake base size m (t + 1) k

/-- Set or clear the marks of `k` bytes of a ring of `size` bytes at `base`, from index `h` on (R64). -/
def markRing (base size : Nat) (on : Bool) (m : SMap Bool) (h : Nat) : Nat → SMap Bool
  | 0 => m
  | k + 1 => markRing base size on (SMap.put false m (base + h % size) on) (h + 1) k

/-- Each of these bytes is marked. -/
def markedRing (base size : Nat) (m : SMap Bool) (h : Nat) : Nat → Bool
  | 0 => true
  | k + 1 => SMap.get false m (base + h % size) && markedRing base size m (h + 1) k

/-- Set or clear the `written` marks of `k` RX data bytes of a ring, from index `h` on (R66, assumption 29). -/
def State.markRx (s : State) (rc : RingCfg) (on : Bool) (h k : Nat) : State :=
  { s with rxWritten := markRing rc.rxBase rc.rxSize on s.rxWritten h k }

/-- Read an aligned u32 word (R68). -/
def State.word (s : State) (a : Nat) : Nat :=
  s.shm.readLe a 4

/-- Write an aligned u32 word (R68). -/
def State.setWord (s : State) (a v : Nat) : State :=
  { s with shm := s.shm.writeLe a 4 v }

/-! Output lines (20_memory.md R67). -/

/-- The level of an output line. -/
def Pm.line (p : Pm) : OutLine → Bool
  | .apStatus => p.apStatus
  | .cpWakeup => p.cpWakeup

/-- The power-management state with an output line at level `v`. -/
def Pm.setLine (p : Pm) (l : OutLine) (v : Bool) : Pm :=
  match l with
  | .apStatus => { p with apStatus := v }
  | .cpWakeup => { p with cpWakeup := v }

/-- Drive an output line to level `v`; a change is an output event, a line already there is not written
(43_pm.md R221). -/
def State.drive (s : State) (l : OutLine) (v : Bool) : State :=
  if s.pm.line l = v then s
  else { s with pm := s.pm.setLine l v }.emit (.gpio l v)

/-! Counters and escalation. -/

/-- The counter of a name. -/
def Counters.get (c : Counters) : Counter → U32
  | .badHeader => c.badHeader
  | .noChannel => c.noChannel
  | .netInvalid => c.netInvalid
  | .txqDrop => c.txqDrop
  | .rxqDrop => c.rxqDrop
  | .ignoredIrq => c.ignoredIrq
  | .recovery => c.recovery

/-- Count one, modulo 2^32 (10_state.md R41). -/
def Counters.bump (c : Counters) : Counter → Counters
  | .badHeader => { c with badHeader := c.badHeader + 1 }
  | .noChannel => { c with noChannel := c.noChannel + 1 }
  | .netInvalid => { c with netInvalid := c.netInvalid + 1 }
  | .txqDrop => { c with txqDrop := c.txqDrop + 1 }
  | .rxqDrop => { c with rxqDrop := c.rxqDrop + 1 }
  | .ignoredIrq => { c with ignoredIrq := c.ignoredIrq + 1 }
  | .recovery => { c with recovery := c.recovery + 1 }

/-- Count one. -/
def State.count (s : State) (c : Counter) : State :=
  { s with cnt := s.cnt.bump c }

/-- Escalation of a link-level error (60_exceptions.md R286, 44_link_control.md R264): count it and emit the recovery request. The
caller then ends with the error outcome; every change made before stays in place. -/
def State.requestRecovery (s : State) (why : RecoveryReason) : State :=
  (s.count .recovery).emit (.recovery why)

end Sys2Proof.Machine
end

