-- ==== Sys2Proof/Machine/Flags.lean ====
section
/-! DEFINITION. The flags of the block. It has no condition codes (10_state.md R21): its flags are the armed flags of the
timers (60_exceptions.md R291) and the two sticky marks (10_state.md R42, R43). -/

namespace Sys2Proof.Machine

/-- The armed flag of a timer. -/
def Timer.isArmed : Timer → Bool
  | .off => false
  | .armed => true
  | .posted => true

/-- Arm, or restart, the sleep-release timer and remember the wake generation (43_pm.md R224, R226, R228). -/
def Pm.armSleep (p : Pm) : Pm :=
  { p with sleep := .armed, sleepGen := p.wakeGen }

/-- Cancel both release timers (43_pm.md R221, R228). -/
def Pm.cancelTimers (p : Pm) : Pm :=
  { p with sleep := .off, linkoff := .off }

/-- Arm the TX retry timer when the queue holds a frame (42_ring.md R181, R182). -/
def RingState.armRetryIfQueued (v : RingState) : RingState :=
  if v.txq = [] then v else { v with retry := .armed }

/-- Set the sticky refusal mark (10_state.md R42). -/
def State.refuse (s : State) : State :=
  { s with refused := true }

/-- Add a fault reason; a reason is never removed (10_state.md R43). -/
def FaultSet.add (f : FaultSet) : DutyReason → FaultSet
  | .remote => { f with remoteDutyBroken := true }
  | .host => { f with hostDutyBroken := true }

/-- Record a broken duty (60_exceptions.md R290). -/
def State.addFault (s : State) (d : DutyReason) : State :=
  { s with fault := s.fault.add d }

end Sys2Proof.Machine
end

