-- ==== Sys2Proof/Machine/Operands.lean ====
section
/-! DEFINITION. The operand forms of the operations (30_encoding.md R101): a ring id, a channel id, an operand of a codec
function; and the two gates an operation passes before it acts, shared memory and the link mode. -/

namespace Sys2Proof.Machine

/-- A ring operand. A ring outside `P_RINGS` is an ill-typed operand: the duty breach is recorded and the
operation does nothing (60_exceptions.md R290, assumption 19). It is recorded here, when BLK performs the event, and not
when HOST appends it: R43 and R290 give no time (DESIGN CHOICE, assumption 32). -/
def withRing (r : RingId) (who : DutyReason) (s : State) (k : RingCfg → Answer) : Answer :=
  match s.cfg.ring? r with
  | none => .next (s.addFault who)
  | some rc => k rc

/-- The operands of a HOST call of a codec function. An operand outside its type is a broken duty of HOST; the
function is total and still answers (60_exceptions.md R290, assumption 19). It is recorded when BLK performs the call
(DESIGN CHOICE, assumption 32). -/
def State.checkOperand (s : State) (ok : Bool) : State :=
  if ok then s else s.addFault .host

/-- An operation that touches shared memory stops when the layout leaves it (20_memory.md R61, R76, assumption 23). -/
def withShm (s : State) (k : Answer) : Answer :=
  if s.cfg.fits then k else .fault .shmOutOfRange

/-- What the link mode lets a data-path operation do (42_ring.md R171). -/
inductive Gate where
  /-- IPC: as its rule says -/
  | run
  /-- OFFLINE or ULOAD: the link is down -/
  | down
  /-- BOOT or DLOAD: refused -/
  | refuse
deriving DecidableEq, Repr

/-- The mode gate (R171). -/
def modeGate : LinkMode → Gate
  | .ipc => .run
  | .offline => .down
  | .uload => .down
  | .boot => .refuse
  | .dload => .refuse

end Sys2Proof.Machine
end

