-- ==== Sys2Proof/Machine/CodecOps.lean ====
section
/-! DEFINITION. The meanings of the codec's operations, of FRAME_BUILD and of the four frame forms (40_codec.md, 30_encoding.md
R94, R102). They read no block state; HOST calls them and gets their value as a Result (R100, 10_state.md R21). -/

namespace Sys2Proof.Machine

/-- CALC_PADDING (40_codec.md R120). -/
def execCalcPadding (n : Nat) (s : State) : Answer :=
  .next (s.reply (.calcPadding n) (.number (calcPadding n)))

/-- HEADER_LEN (R121); its operand has bit 7 set. -/
def execHeaderLen (cfg : Byte) (s : State) : Answer :=
  .next ((s.checkOperand (cfg.getLsbD 7)).reply (.headerLen cfg) (.number (headerLen cfg)))

/-- BUILD_HEADER (R122 to R125). -/
def execBuildHeader (ch : ChanId) (plen : Nat) (pad : Bool) (ctl : Option Ctl) (s : State) : Answer :=
  .next (s.reply (.buildHeader ch plen pad ctl) (builtOutcome (buildHeader ch plen pad ctl)))

/-- PARSE_HEADER (R126 to R129). -/
def execParseHeader (bytes : Bytes) (s : State) : Answer :=
  .next (s.reply (.parseHeader bytes) (parseHeader bytes).outcome)

/-- TOTAL_FRAME_LEN (R130); its operand is a header record of R126 or of R122. -/
def execTotalFrameLen (hdr : Hdr) (s : State) : Answer :=
  .next ((s.checkOperand hdr.wf).reply (.totalFrameLen hdr) (.number (totalFrameLen hdr)))

/-- FRAME_BUILD (30_encoding.md R102). -/
def execFrameBuild (ch : ChanId) (payload : Bytes) (pad : Bool) (ctl : Option Ctl) (s : State) : Answer :=
  .next (s.reply (.frameBuild ch payload pad ctl) (builtOutcome (frameBuild ch payload pad ctl)))

/-- A frame form as HOST gives it: the codec parses its bytes (R94, R126, assumption 12). A form whose fields are not those
of its row is an ill-typed operand: the breach is recorded and the codec still answers (60_exceptions.md R290, assumption 19). -/
def frameForm (i : Instr) (bytes : Bytes) (s : State) : Answer :=
  .next ((s.checkOperand (i.wf s.cfg)).reply i (parseHeader bytes).outcome)

/-- A frame with a 4-byte header (R94). -/
def execSipc5Hdr4 (cfg : Byte) (ch : ChanId) (len : U16) (body : Bytes) (s : State) : Answer :=
  frameForm (.sipc5Hdr4 cfg ch len body) (hdr4Bytes cfg ch len body) s

/-- A frame with a 5-byte header (R94). -/
def execSipc5Hdr5Ctl (cfg : Byte) (ch : ChanId) (len : U16) (ctl : Byte) (body : Bytes) (s : State) : Answer :=
  frameForm (.sipc5Hdr5Ctl cfg ch len ctl body) (hdr5Bytes cfg ch len ctl body) s

/-- A frame with a 6-byte header (R94). -/
def execSipc5Hdr6Ext (cfg : Byte) (ch : ChanId) (len : U32) (body : Bytes) (s : State) : Answer :=
  frameForm (.sipc5Hdr6Ext cfg ch len body) (hdr6Bytes cfg ch len body) s

/-- A config byte without START (R128). -/
def execSipc5BadConfig (cfg : Byte) (s : State) : Answer :=
  frameForm (.sipc5BadConfig cfg) [cfg] s

end Sys2Proof.Machine
end

