-- ==== Sys2Proof/Machine/Demux.lean ====
section
/-! DEFINITION. The channel demultiplexer (41_demux.md). -/

namespace Sys2Proof.Machine

/-- An operation's end: the state it leaves and its outcome. -/
abbrev Ended := State × OpOutcome

/-- The first byte's version nibble is 4 or 6 (R147). -/
def ipVersionOk : Bytes → Bool
  | [] => false
  | b :: _ => b.toNat / 16 == 4 || b.toNat / 16 == 6

/-- DELIVER_NET (R147). -/
def deliverNet (ch : ChanId) (data : Bytes) (s : State) : Ended :=
  if ipVersionOk data then (s.emit (.netDeliver ch data), .delivered)
  else (s.count .netInvalid, .error (.netInvalid ch))

/-- Delivery to a MISC channel's queue (R146). -/
def deliverMisc (ch : ChanId) (data : Bytes) (s : State) : Ended :=
  if (s.chan ch).rxq.length = s.cfg.rxqDepth then
    (s.count .rxqDrop, .error (.rxQueueFull ch))
  else
    ((s.setChan ch { s.chan ch with rxq := (s.chan ch).rxq ++ [data] }).emit (.wake ch), .delivered)

/-- DELIVER (R146). -/
def deliver (cc : ChanCfg) (ch : ChanId) (data : Bytes) (s : State) : Ended :=
  match cc.delivery with
  | .net => deliverNet ch data s
  | .misc => deliverMisc ch data s

/-- The buffer of a session with one more fragment (R144). -/
def joined (old : Option Bytes) (payload : Bytes) : Bytes :=
  match old with
  | some b => b ++ payload
  | none => payload

/-- REASSEMBLE (R144). -/
def reassemble (cc : ChanCfg) (ch : ChanId) (c : Ctl) (payload : Bytes) (s : State) : Ended :=
  if c.more then
    (s.setChan ch ((s.chan ch).setSession c.sid (some (joined ((s.chan ch).session c.sid) payload))),
      .accumulated)
  else
    deliver cc ch (joined ((s.chan ch).session c.sid) payload)
      (s.setChan ch ((s.chan ch).setSession c.sid none))

/-- ROUTE (R140, R141, R143, R145). -/
def route (ch : ChanId) (payload : Bytes) (ctl : Option Ctl) (s : State) : Ended :=
  match s.cfg.chan? ch with
  | none => (s.count .noChannel, .error (.noSuchChannel ch))
  | some cc =>
    if cc.kind = .cmd then (s.emit (.cmdFrame ch payload), .forwarded)
    else
      match ctl with
      | some c => if cc.kind = .fmt then reassemble cc ch c payload s else deliver cc ch payload s
      | none => deliver cc ch payload s

/-- RX_READ (R148). -/
def rxRead (ch : ChanId) (s : State) : Ended :=
  match s.cfg.chan? ch with
  | none => (s, .error (.noSuchChannel ch))
  | some cc =>
    if cc.delivery = .misc then
      match (s.chan ch).rxq with
      | [] => (s, .empty)
      | d :: q => (s.setChan ch { s.chan ch with rxq := q }, .data d)
    else (s, .error (.noSuchChannel ch))

/-- CHANNEL_RESET (R149). -/
def channelReset (ch : ChanId) (s : State) : Ended :=
  match s.cfg.chan? ch with
  | none => (s, .error (.noSuchChannel ch))
  | some cc =>
    (s.setChan ch
      { rxq := if cc.delivery = .misc then [] else (s.chan ch).rxq
        reasm := if cc.kind = .fmt then [] else (s.chan ch).reasm }, .ok)

/-- ROUTE as an operation: internal, so its outcome is recorded. -/
def execRoute (ch : ChanId) (payload : Bytes) (ctl : Option Ctl) (s : State) : Answer :=
  let e := route ch payload ctl s
  .next (e.1.settle (.route ch payload ctl) e.2)

/-- RX_READ as a HOST request. -/
def execRxRead (ch : ChanId) (s : State) : Answer :=
  let e := rxRead ch s
  .next (e.1.reply (.rxRead ch) e.2)

/-- CHANNEL_RESET as a HOST request. -/
def execChannelReset (ch : ChanId) (s : State) : Answer :=
  let e := channelReset ch s
  .next (e.1.reply (.channelReset ch) e.2)

end Sys2Proof.Machine
end

