-- ==== Sys2Proof/Machine/Pm.lean ====
section
/-! DEFINITION. The power-management handshake (43_pm.md), except POLL_STEP, whose success runs the ring
transport's XMIT_BODY and which stands in Machine/Poll.lean. -/

namespace Sys2Proof.Machine

/-- The named states of R220. -/
inductive NamedPm where
  | awakeHeld | drainTimerPending | linkoffPending | asleep | awakeIdle
deriving DecidableEq, Repr

/-- The named state is a function of the state; the first match wins (R220, 10_state.md R40). -/
def Pm.named (p : Pm) : NamedPm :=
  if 0 < p.refCnt then .awakeHeld
  else if p.sleep.isArmed then .drainTimerPending
  else if p.linkoff.isArmed then .linkoffPending
  else if !p.cpWakeup && !p.apStatus then .asleep
  else .awakeIdle

/-- FORBID_SLEEP up to its poll (R221). -/
def forbid (o : Origin) (who : Requester) (s : State) : State :=
  let s1 := { s with pm := { s.pm with refCnt := s.pm.refCnt + 1 } }
  let s2 := s1.drive .apStatus true
  let s3 := { s2 with pm := s2.pm.cancelTimers }
  let s4 := s3.drive .cpWakeup true
  { s4 with busy := some ⟨s.cfg.pollMax, o, who⟩ }

/-- PERMIT_SLEEP on the power-management state: decrement, clamp at 0, and at 0 arm the release timer (R224). -/
def Pm.permit (p : Pm) : Pm :=
  if p.refCnt ≤ 1 then { p with refCnt := 0 }.armSleep
  else { p with refCnt := p.refCnt - 1 }

/-- PERMIT_SLEEP (R224). -/
def permit (s : State) : State :=
  { s with pm := s.pm.permit }

/-- PERMIT_SLEEP run by another operation: its outcome is recorded (60_exceptions.md R283). -/
def permitWithin (s : State) : State :=
  (permit s).settle .permitSleep .ok

/-- Some ring waits for a response (R226). -/
def State.anyResRequired (s : State) : Bool :=
  s.cfg.rings.any fun rc => (s.ring rc.id).resRequired

/-- SLEEP_TIMER_FIRE (R226). -/
def sleepTimerFire (s : State) : State × OpOutcome :=
  if s.pm.sleep.isArmed then
    if 0 < s.pm.refCnt ∨ s.pm.wakeGen ≠ s.pm.sleepGen ∨ s.anyResRequired = true then
      ({ s with pm := s.pm.armSleep }, .rescheduled)
    else
      let s1 := { s with pm := { s.pm with sleep := .off } }
      let s2 := s1.drive .cpWakeup false
      ({ s2 with pm := { s2.pm with linkoff := .armed } }, .released)
  else (s, .stale)

/-- LINKOFF_TIMER_FIRE (R227). The input lines are read live. -/
def linkoffTimerFire (s : State) : State × OpOutcome :=
  if s.pm.linkoff.isArmed then
    if 0 < s.pm.refCnt ∨ s.pm.cpWakeup = true then
      ({ s with pm := { s.pm with linkoff := .off } }, .cancelled)
    else if s.cpStatus = true ∨ s.apWakeup = true then
      ({ s with pm := { s.pm with linkoff := .armed } }, .rescheduled)
    else
      let s1 := { s with pm := { s.pm with linkoff := .off } }
      (s1.drive .apStatus false, .released)
  else (s, .stale)

/-- AP_WAKEUP_EDGE (R228). -/
def apWakeupEdge (level : Bool) (s : State) : State × OpOutcome :=
  if level then
    let s1 := { s with pm := { s.pm with wakeGen := s.pm.wakeGen + 1 }.cancelTimers }
    let s2 := s1.drive .apStatus true
    (if s2.pm.refCnt = 0 then { s2 with pm := s2.pm.armSleep } else s2, .ok)
  else (s, .ok)

/-- CP_STATUS_EDGE (R229). -/
def cpStatusEdge (level : Bool) (s : State) : State × OpOutcome :=
  if level = false ∧ s.pm.refCnt = 0 ∧ s.pm.cpWakeup = false ∧ s.pm.apStatus = true ∧
      s.pm.sleep.isArmed = false ∧ s.pm.linkoff.isArmed = false then
    ({ s with pm := { s.pm with linkoff := .armed } }, .ok)
  else (s, .ok)

/-- FORBID_SLEEP as an operation. HOST's own, or the form XMIT runs; the latter's ring is an operand
(R221). The outcome comes from the poll (R223). -/
def execForbidSleep (origin : Origin) (s : State) : Answer :=
  match origin with
  | .host => .next (forbid .host .host s)
  | .xmit r => withRing r .host s fun _ => .next (forbid (.xmit r) .host s)

/-- PERMIT_SLEEP as a HOST request (R224). -/
def execPermitSleep (s : State) : Answer :=
  .next ((permit s).reply .permitSleep .ok)

/-- SLEEP_TIMER_FIRE as a TIMERS event (R226). -/
def execSleepTimerFire (s : State) : Answer :=
  let e := sleepTimerFire s
  .next (e.1.settle .sleepTimerFire e.2)

/-- LINKOFF_TIMER_FIRE as a TIMERS event (R227). -/
def execLinkoffTimerFire (s : State) : Answer :=
  let e := linkoffTimerFire s
  .next (e.1.settle .linkoffTimerFire e.2)

/-- AP_WAKEUP_EDGE as a CP event (R228). -/
def execApWakeupEdge (level : Bool) (s : State) : Answer :=
  let e := apWakeupEdge level s
  .next (e.1.settle (.apWakeupEdge level) e.2)

/-- CP_STATUS_EDGE as a CP event (R229). -/
def execCpStatusEdge (level : Bool) (s : State) : Answer :=
  let e := cpStatusEdge level s
  .next (e.1.settle (.cpStatusEdge level) e.2)

end Sys2Proof.Machine
end

