-- ==== Sys2Proof/Machine/Ring.lean ====
section
/-! DEFINITION. The ring-buffer transport (42_ring.md). -/

namespace Sys2Proof.Machine

/-! Arithmetic (R170). -/

/-- `used = (head - tail) mod size`, for `head` and `tail` below `size`. -/
def Snapshot.used (p : Snapshot) : Nat :=
  (p.head + (p.size - p.tail)) % p.size

/-- `free = size - 1 - used`: one slot stays empty. -/
def Snapshot.free (p : Snapshot) : Nat :=
  p.size - 1 - p.used

/-- The snapshot of ring r's TX direction (20_memory.md R73). -/
def State.txSnap (s : State) (rc : RingCfg) : Snapshot :=
  ⟨s.word rc.txHead, s.word rc.txTail, rc.txSize⟩

/-- The snapshot of ring r's RX direction (R73). -/
def State.rxSnap (s : State) (rc : RingCfg) : Snapshot :=
  ⟨s.word rc.rxHead, s.word rc.rxTail, rc.rxSize⟩

/-- Both indices are in range (20_memory.md R63). -/
def Snapshot.inRange (p : Snapshot) : Bool :=
  decide (p.head < p.size) && decide (p.tail < p.size)

/-- The link is live (20_memory.md R65). -/
def State.magicOk (s : State) : Bool :=
  s.word s.cfg.magicAddr == s.cfg.magic.toNat

/-! Reading the occupancy (R173, R174). -/

/-- GET_TX_SPACE (R173): the error, or the snapshot, whose free space is the value. -/
def getTxSpace (rc : RingCfg) (s : State) : State × Except ErrorCode Snapshot :=
  if s.magicOk = true ∧ (s.txSnap rc).inRange = true then (s, .ok (s.txSnap rc))
  else (s.requestRecovery (.ringCorrupt rc.id), .error (.eio rc.id))

/-- GET_RX_USED (R174). -/
def getRxUsed (rc : RingCfg) (s : State) : State × Except ErrorCode Snapshot :=
  if (s.rxSnap rc).inRange then (s, .ok (s.rxSnap rc))
  else (s.requestRecovery (.ringDesync rc.id), .error (.desync rc.id))

/-- The outcome of GET_TX_SPACE. -/
def spaceOutcome : Except ErrorCode Snapshot → OpOutcome
  | .ok p => .space p.free p
  | .error e => .error e

/-- The outcome of GET_RX_USED. -/
def usedOutcome : Except ErrorCode Snapshot → OpOutcome
  | .ok p => .used p.used p
  | .error e => .error e

/-! Transmitting (R175, R177, R179). -/

/-- RING_WRITE (R175): the data, then the head word. The new head is `(h + len) mod size`. -/
def ringWrite (rc : RingCfg) (h : Nat) (f : Bytes) (m : Memory) : Memory :=
  (Memory.ringPut rc.txBase rc.txSize m h f).writeLe rc.txHead 4 ((h + f.length) % rc.txSize)

/-- What the loop of XMIT_BODY leaves: shared memory, the frames not sent, the bytes written, and whether a
frame did not fit. -/
structure SendRun where
  mem : Memory
  rest : List Bytes
  written : Nat
  nospc : Bool
deriving DecidableEq, Repr

/-- The loop of XMIT_BODY (R177): a frame goes in whole or stays at the head of the queue. -/
def sendFrames (rc : RingCfg) : List Bytes → Nat → Nat → Memory → SendRun
  | [], _, _, m => ⟨m, [], 0, false⟩
  | f :: q, space, h, m =>
    if space < f.length then ⟨m, f :: q, 0, true⟩
    else
      let run := sendFrames rc q (space - f.length) ((h + f.length) % rc.txSize) (ringWrite rc h f m)
      { run with written := f.length + run.written }

/-- NOSPC(r) (R179). -/
def noSpace (rc : RingCfg) (s : State) : State :=
  if rc.ackRing then
    if (s.ring rc.id).ackWait = .off then
      (s.emit (.mbxOut rc.encReqAck)).setRing rc.id { s.ring rc.id with ackWait := .armed }
    else s
  else s.setRing rc.id { s.ring rc.id with retry := .armed }

/-- The actions after the loop of XMIT_BODY, before PERMIT_SLEEP (R177, R178). -/
def afterSend (rc : RingCfg) (run : SendRun) (s : State) : State :=
  let s1 := { s with shm := run.mem }.setRing rc.id { s.ring rc.id with txq := run.rest }
  let s2 := if 0 < run.written then s1.emit (.mbxOut rc.encData) else s1
  let s3 := s2.setRing rc.id { s2.ring rc.id with resRequired := run.nospc }
  if run.nospc then noSpace rc s3 else s3

/-- XMIT_BODY (R177). -/
def xmitBody (rc : RingCfg) (s : State) : Ended :=
  let g := getTxSpace rc s
  let s1 := g.1.settle (.getTxSpace rc.id) (spaceOutcome g.2)
  match g.2 with
  | .error e => (permitWithin s1, .error e)
  | .ok p =>
    let run := sendFrames rc (s1.ring rc.id).txq p.free p.head s1.shm
    (permitWithin (afterSend rc run s1),
      if run.nospc then .noSpc run.written else .sent run.written)

/-- XMIT, part 1 (R177, R171). `none`: the poll is in progress and gives the outcome later. -/
def xmitStart (r : RingId) (who : Requester) (s : State) : State × Option OpOutcome :=
  match modeGate s.mode with
  | .refuse => (s.refuse, some .refused)
  | .down => (s, some (.error .linkDown))
  | .run =>
    if (s.ring r).txq = [] then
      (s.setRing r { s.ring r with resRequired := false }, some (.sent 0))
    else (forbid (.xmit r) who s, none)

/-- Record the outcome of an XMIT: for HOST as a Result, for the retry timer as the outcome of XMIT and then of
RETRY_TIMER_FIRE (10_state.md R21, 60_exceptions.md R283, assumption 13). -/
def finishXmit (r : RingId) (who : Requester) (o : OpOutcome) (s : State) : State :=
  match who with
  | .host => s.reply (.xmit r) o
  | .retryTimer => (s.settle (.xmit r) o).settle (.retryTimerFire r) o

/-- XMIT as performed for a requester. -/
def performXmit (r : RingId) (who : Requester) (s : State) : State :=
  let e := xmitStart r who s
  match e.2 with
  | some o => finishXmit r who o e.1
  | none => e.1

/-- RETRY_TIMER_FIRE (R183). In BOOT and DLOAD it does nothing but the refusal (R171, assumption 16). -/
def retryTimerFire (r : RingId) (s : State) : State :=
  if (s.ring r).retry.isArmed then
    if modeGate s.mode = .refuse then s.refuse.settle (.retryTimerFire r) .refused
    else performXmit r .retryTimer (s.setRing r { s.ring r with retry := .off })
  else s.settle (.retryTimerFire r) .stale

/-- TX_ENQUEUE (R172, R171), on a channel with its ring known. -/
def txEnqueueOn (rc : RingCfg) (ch : ChanId) (payload : Bytes) (ctl : Option Ctl) (s : State) : Ended :=
  match frameBuild ch payload rc.pad ctl with
  | .error e => (s, .error e)
  | .ok f =>
    if f.length > rc.txSize - 1 then (s, .error (.tooLong f.length))
    else if (s.ring rc.id).txq.length = s.cfg.txqDepth then
      (s.count .txqDrop, .error (.txQueueFull ch))
    else
      (s.setRing rc.id { s.ring rc.id with txq := (s.ring rc.id).txq ++ [f] }, .queued)

/-! The RES_ACK wait (R180 to R182). -/

/-- MBX_RES_ACK (R181). -/
def mbxResAck (r : RingId) (s : State) : Ended :=
  match modeGate s.mode with
  | .refuse => (s.refuse, .refused)
  | .down => (s, .ignored)
  | .run =>
    (s.setRing r { s.ring r with ackWait := .off, resRequired := false }.armRetryIfQueued, .ok)

/-- RES_ACK_TIMEOUT while the wait is open and the mode is IPC (R182). -/
def ackTimeoutRun (rc : RingCfg) (s : State) : Ended :=
  if s.word rc.txHead = s.word rc.txTail then
    (s.setRing rc.id
      { s.ring rc.id with ackWait := .off, resRequired := false }.armRetryIfQueued, .ok)
  else
    (s.setRing rc.id { s.ring rc.id with ackWait := .off }, .error (.ackTimeout rc.id))

/-- RES_ACK_TIMEOUT (R182, R171, assumption 15). -/
def resAckTimeout (rc : RingCfg) (s : State) : Ended :=
  if (s.ring rc.id).ackWait.isArmed then
    match modeGate s.mode with
    | .refuse => (s.refuse, .refused)
    | .down => (s.setRing rc.id { s.ring rc.id with ackWait := .off }, .ok)
    | .run => ackTimeoutRun rc s
  else (s, .stale)

/-! Draining (R184, R185). -/

/-- Route the frames of a drain in ring order, each outcome recorded (R185, 41_demux.md R140). -/
def routeAll : List (Hdr × Bytes) → State → State
  | [], s => s
  | (h, p) :: fs, s =>
    let e := route h.channelId p h.ctl s
    routeAll fs (e.1.settle (.route h.channelId p h.ctl) e.2)

/-- The parse error a drain ends with, if it does: a malformed header, or a partial frame that can never fit a
ring of `n` bytes (R185). -/
def drainError (n : Nat) : SplitEnd → Option ParseError
  | .clean => none
  | .partialFrame need => if need > n - 1 then some (.badLength need) else none
  | .malformed e => some e

/-- The RES_ACK a clean drain owes (R185). -/
def payAck (rc : RingCfg) (s : State) : State :=
  if (s.ring rc.id).rxAckOwed then
    (s.emit (.mbxOut rc.encResAck)).setRing rc.id { s.ring rc.id with rxAckOwed := false }
  else s

/-- The bytes of a drain's snapshot (R176). -/
def rxBytes (rc : RingCfg) (s : State) : Bytes :=
  Memory.ringTake rc.rxBase rc.rxSize s.shm (s.rxSnap rc).tail (s.rxSnap rc).used

/-- RX_DRAIN in IPC mode, with both indices in range (R185). -/
def drainRun (rc : RingCfg) (s : State) : Ended :=
  let p := s.rxSnap rc
  let sp := split (rxBytes rc s)
  let s1 := routeAll sp.frames s
  match drainError rc.rxSize sp.ending with
  | some e =>
    (((s1.count .badHeader).setWord rc.rxTail p.head).requestRecovery (.ringDesync rc.id),
      .error (.malformed e))
  | none =>
    (payAck rc (s1.setWord rc.rxTail ((p.tail + sp.off) % rc.rxSize)), .drained sp.frames.length)

/-- RX_DRAIN (R185, R171; SIPC4: 44_link_control.md R266, assumption 24; outside IPC: assumption 17). -/
def rxDrain (rc : RingCfg) (s : State) : Ended :=
  match modeGate s.mode with
  | .refuse => (s.refuse, .refused)
  | .down => (s, .ignored)
  | .run =>
    if s.cfg.framing = .sipc4 then (s.refuse, .refused)
    else if (s.rxSnap rc).inRange then drainRun rc s
    else (s.requestRecovery (.ringDesync rc.id), .error (.desync rc.id))

/-- RX_DRAIN run by another operation: its outcome is recorded (60_exceptions.md R283). -/
def rxDrainWithin (rc : RingCfg) (s : State) : State :=
  let e := rxDrain rc s
  e.1.settle (.rxDrain rc.id) e.2

/-- MBX_REQ_ACK (R184, R171). Its own outcome is that of its drain (assumption 28). -/
def mbxReqAck (rc : RingCfg) (s : State) : Ended :=
  match modeGate s.mode with
  | .refuse => (s.refuse, .refused)
  | .down => (s, .ignored)
  | .run =>
    let s1 := s.setRing rc.id { s.ring rc.id with rxAckOwed := true }
    let e := rxDrain rc s1
    (e.1.settle (.rxDrain rc.id) e.2, e.2)

/-! The operations. -/

/-- TX_ENQUEUE as a HOST request (R172). -/
def execTxEnqueue (ch : ChanId) (payload : Bytes) (ctl : Option Ctl) (s : State) : Answer :=
  match modeGate s.mode with
  | .refuse => .next (s.refuse.reply (.txEnqueue ch payload ctl) .refused)
  | .down => .next (s.reply (.txEnqueue ch payload ctl) (.error .linkDown))
  | .run =>
    match s.cfg.chan? ch with
    | none => .next (s.reply (.txEnqueue ch payload ctl) (.error (.noSuchChannel ch)))
    | some cc =>
      if cc.kind = .cmd then .next (s.reply (.txEnqueue ch payload ctl) (.error (.noSuchChannel ch)))
      else if s.cfg.framing = .sipc4 then .next (s.refuse.reply (.txEnqueue ch payload ctl) .refused)
      else
        match s.cfg.ringFor cc with
        | none => .fault (.channelWithoutRing ch)
        | some rc =>
          let e := txEnqueueOn rc ch payload ctl s
          .next (e.1.reply (.txEnqueue ch payload ctl) e.2)

/-- GET_TX_SPACE as a HOST request (R173), in every mode (R171). -/
def execGetTxSpace (r : RingId) (s : State) : Answer :=
  withRing r .host s fun rc => withShm s <|
    let g := getTxSpace rc s
    .next (g.1.reply (.getTxSpace r) (spaceOutcome g.2))

/-- GET_RX_USED as a HOST request (R174), in every mode (R171). -/
def execGetRxUsed (r : RingId) (s : State) : Answer :=
  withRing r .host s fun rc => withShm s <|
    let g := getRxUsed rc s
    .next (g.1.reply (.getRxUsed r) (usedOutcome g.2))

/-- XMIT as a HOST request (R177). -/
def execXmit (r : RingId) (s : State) : Answer :=
  withRing r .host s fun _ => .next (performXmit r .host s)

/-- RETRY_TIMER_FIRE as a TIMERS event (R183). A ring outside `P_RINGS` has no timer (assumption 19). -/
def execRetryTimerFire (r : RingId) (s : State) : Answer :=
  match s.cfg.ring? r with
  | none => .next (s.settle (.retryTimerFire r) .stale)
  | some _ => .next (retryTimerFire r s)

/-- RES_ACK_TIMEOUT as a TIMERS event (R182). A ring outside `P_RINGS` has no timer (assumption 19). -/
def execResAckTimeout (r : RingId) (s : State) : Answer :=
  match s.cfg.ring? r with
  | none => .next (s.settle (.resAckTimeout r) .stale)
  | some rc =>
    withShm s <|
      let e := resAckTimeout rc s
      .next (e.1.settle (.resAckTimeout r) e.2)

/-- RX_DRAIN as an operation (R185): internal, so its outcome is recorded. -/
def execRxDrain (r : RingId) (s : State) : Answer :=
  withRing r .remote s fun rc => withShm s <|
    let e := rxDrain rc s
    .next (e.1.settle (.rxDrain r) e.2)

/-- MBX_REQ_ACK as an operation (R184). -/
def execMbxReqAck (r : RingId) (s : State) : Answer :=
  withRing r .remote s fun rc => withShm s <|
    let e := mbxReqAck rc s
    .next (e.1.settle (.mbxReqAck r) e.2)

/-- MBX_RES_ACK as an operation (R181). -/
def execMbxResAck (r : RingId) (s : State) : Answer :=
  withRing r .remote s fun _ =>
    let e := mbxResAck r s
    .next (e.1.settle (.mbxResAck r) e.2)

end Sys2Proof.Machine
end

