-- ==== Sys2Proof/Machine/Poll.lean ====
section
/-! DEFINITION. POLL_STEP and the completion of the liveness poll (43_pm.md R222, R223). -/

namespace Sys2Proof.Machine

/-- COMPLETE_OK (R223), the poll already ended. -/
def completeOk (p : Poll) (s : State) : State :=
  match p.origin with
  | .host => s.reply (.forbidSleep .host) .ok
  | .xmit r =>
    match s.cfg.ring? r with
    | none => s.addFault .host
    | some rc =>
      let e := xmitBody rc (s.settle (.forbidSleep (.xmit r)) .ok)
      finishXmit r p.requester e.2 e.1

/-- COMPLETE_FAIL (R223), the poll already ended. -/
def completeFail (p : Poll) (s : State) : State :=
  let s1 := (permitWithin s).requestRecovery .linkNotReady
  match p.origin with
  | .host => s1.reply (.forbidSleep .host) (.error .linkNotReady)
  | .xmit r =>
    finishXmit r p.requester (.error .linkNotReady)
      (s1.settle (.forbidSleep (.xmit r)) (.error .linkNotReady))

/-- One read of the poll (R222). With no read left after this one, the poll fails. -/
def pollStep (p : Poll) (s : State) : State :=
  if s.magicOk then completeOk p { s with busy := none }
  else if p.remaining ≤ 1 then completeFail p { s with busy := none }
  else { s with busy := some { p with remaining := p.remaining - 1 } }

/-- POLL_STEP as an operation: enabled only while a poll is in progress (R222, assumption 18). -/
def execPollStep (s : State) : Answer :=
  match s.busy with
  | none => .next s
  | some p => withShm s (.next (pollStep p s))

end Sys2Proof.Machine
end

