-- ==== Sys2Proof/Machine/Link.lean ====
section
/-! DEFINITION. Mailbox dispatch, link mode and flush (44_link_control.md). -/

namespace Sys2Proof.Machine

/-- MBX_REQ_ACK run by MBX_IRQ: its outcome is recorded (R260). -/
def mbxReqAckWithin (rc : RingCfg) (s : State) : State :=
  let e := mbxReqAck rc s
  e.1.settle (.mbxReqAck rc.id) e.2

/-- MBX_RES_ACK run by MBX_IRQ: its outcome is recorded (R260). -/
def mbxResAckWithin (r : RingId) (s : State) : State :=
  let e := mbxResAck r s
  e.1.settle (.mbxResAck r) e.2

/-- The pairs of one ring in a mailbox value, in the order DATA, REQ_ACK, RES_ACK (R260). -/
def dispatchRing (v : U16) (rc : RingCfg) (s : State) : State :=
  let s1 := if s.cfg.mbxHas v rc.id .data then rxDrainWithin rc s else s
  let s2 := if s.cfg.mbxHas v rc.id .reqAck then mbxReqAckWithin rc s1 else s1
  if s.cfg.mbxHas v rc.id .resAck then mbxResAckWithin rc.id s2 else s2

/-- The rings in list order (R260). -/
def dispatchRings (v : U16) : List RingCfg → State → State
  | [], s => s
  | rc :: rcs, s => dispatchRings v rcs (dispatchRing v rc s)

/-- A data value whose decode names a ring outside `P_RINGS` is a broken duty of the CP, in every mode (60_exceptions.md R290,
93_implementation_defined.md X12); recorded when BLK performs the event (assumption 20). -/
def checkPairs (v : U16) (s : State) : State :=
  if s.cfg.mbxStray v then s.addFault .remote else s

/-- A data value in IPC mode: the pairs of every ring of `P_RINGS` (R260). -/
def dispatch (v : U16) (s : State) : State :=
  dispatchRings v s.cfg.rings s

/-- MBX_IRQ (R260, R261). -/
def execMbxIrq (v : U16) (s : State) : Answer :=
  if s.cfg.isCmd v then .next ((s.emit (.cmdOut v)).settle (.mbxIrq v) .forwarded)
  else
    let s1 := checkPairs v s
    match modeGate s.mode with
    | .run => withShm s (.next ((dispatch v s1).settle (.mbxIrq v) .dispatched))
    | .down => .next ((s1.count .ignoredIrq).settle (.mbxIrq v) .ignored)
    | .refuse => .next (s1.refuse.settle (.mbxIrq v) .refused)

/-- SET_MODE (R262). -/
def execSetMode (m : LinkMode) (s : State) : Answer :=
  .next ({ s with mode := m }.reply (.setMode m) .ok)

/-- One ring's TX state flushed (R263). -/
def RingState.flushed (v : RingState) : RingState :=
  { v with txq := [], resRequired := false, retry := .off, ackWait := .off }

/-- The rings flushed one by one (R263). -/
def flushRings : List RingCfg → State → State
  | [], s => s
  | rc :: rcs, s => flushRings rcs (s.setRing rc.id (s.ring rc.id).flushed)

/-- FLUSH_TX (R263). -/
def execFlushTx (s : State) : Answer :=
  .next ((flushRings s.cfg.rings s).reply .flushTx .ok)

end Sys2Proof.Machine
end

