-- ==== Sys2Proof/Machine/Dispatch.lean ====
section
/-! DEFINITION. One arm per instruction (30_encoding.md R100). -/

namespace Sys2Proof.Machine

def exec (i : Instr) (s : State) : Host.Outcome State Fault Refusal :=
  match i with
  | .calcPadding n => Sys2Proof.Machine.execCalcPadding n s
  | .headerLen cfg => Sys2Proof.Machine.execHeaderLen cfg s
  | .buildHeader ch plen pad ctl => Sys2Proof.Machine.execBuildHeader ch plen pad ctl s
  | .parseHeader bytes => Sys2Proof.Machine.execParseHeader bytes s
  | .totalFrameLen hdr => Sys2Proof.Machine.execTotalFrameLen hdr s
  | .route ch payload ctl => Sys2Proof.Machine.execRoute ch payload ctl s
  | .rxRead ch => Sys2Proof.Machine.execRxRead ch s
  | .channelReset ch => Sys2Proof.Machine.execChannelReset ch s
  | .txEnqueue ch payload ctl => Sys2Proof.Machine.execTxEnqueue ch payload ctl s
  | .getTxSpace r => Sys2Proof.Machine.execGetTxSpace r s
  | .getRxUsed r => Sys2Proof.Machine.execGetRxUsed r s
  | .xmit r => Sys2Proof.Machine.execXmit r s
  | .retryTimerFire r => Sys2Proof.Machine.execRetryTimerFire r s
  | .resAckTimeout r => Sys2Proof.Machine.execResAckTimeout r s
  | .rxDrain r => Sys2Proof.Machine.execRxDrain r s
  | .mbxReqAck r => Sys2Proof.Machine.execMbxReqAck r s
  | .mbxResAck r => Sys2Proof.Machine.execMbxResAck r s
  | .forbidSleep origin => Sys2Proof.Machine.execForbidSleep origin s
  | .pollStep => Sys2Proof.Machine.execPollStep s
  | .permitSleep => Sys2Proof.Machine.execPermitSleep s
  | .sleepTimerFire => Sys2Proof.Machine.execSleepTimerFire s
  | .linkoffTimerFire => Sys2Proof.Machine.execLinkoffTimerFire s
  | .apWakeupEdge level => Sys2Proof.Machine.execApWakeupEdge level s
  | .cpStatusEdge level => Sys2Proof.Machine.execCpStatusEdge level s
  | .mbxIrq v => Sys2Proof.Machine.execMbxIrq v s
  | .setMode m => Sys2Proof.Machine.execSetMode m s
  | .flushTx => Sys2Proof.Machine.execFlushTx s
  | .frameBuild ch payload pad ctl => Sys2Proof.Machine.execFrameBuild ch payload pad ctl s
  | .sipc5Hdr4 cfg ch len body => Sys2Proof.Machine.execSipc5Hdr4 cfg ch len body s
  | .sipc5Hdr5Ctl cfg ch len ctl body => Sys2Proof.Machine.execSipc5Hdr5Ctl cfg ch len ctl body s
  | .sipc5Hdr6Ext cfg ch len body => Sys2Proof.Machine.execSipc5Hdr6Ext cfg ch len body s
  | .sipc5BadConfig cfg => Sys2Proof.Machine.execSipc5BadConfig cfg s

end Sys2Proof.Machine
end

