-- ==== Sys2Proof/Machine/Agents.lean ====
section
/-! DEFINITION. The turns of HOST, CP and TIMERS (00_scope.md R5): which event each may append (60_exceptions.md R289), the CP's
writes and its duties (20_memory.md R66, R67), and the expiry of timers (43_pm.md R225). A turn that is not enabled
changes nothing (assumptions 6 and 27). -/

namespace Sys2Proof

/-- HOST may start this operation (60_exceptions.md R289). FRAME_BUILD expands to operations HOST may start, and a
frame form is PARSE_HEADER of its bytes (assumptions 11 and 12). -/
def Instr.hostMayStart : Instr → Bool
  | .calcPadding _ => true
  | .headerLen _ => true
  | .buildHeader _ _ _ _ => true
  | .parseHeader _ => true
  | .totalFrameLen _ => true
  | .route _ _ _ => false
  | .rxRead _ => true
  | .channelReset _ => true
  | .txEnqueue _ _ _ => true
  | .getTxSpace _ => true
  | .getRxUsed _ => true
  | .xmit _ => true
  | .retryTimerFire _ => false
  | .resAckTimeout _ => false
  | .rxDrain _ => false
  | .mbxReqAck _ => false
  | .mbxResAck _ => false
  | .forbidSleep .host => true
  | .forbidSleep (.xmit _) => false
  | .pollStep => false
  | .permitSleep => true
  | .sleepTimerFire => false
  | .linkoffTimerFire => false
  | .apWakeupEdge _ => false
  | .cpStatusEdge _ => false
  | .mbxIrq _ => false
  | .setMode _ => true
  | .flushTx => true
  | .frameBuild _ _ _ _ => true
  | .sipc5Hdr4 _ _ _ _ => true
  | .sipc5Hdr5Ctl _ _ _ _ _ => true
  | .sipc5Hdr6Ext _ _ _ _ => true
  | .sipc5BadConfig _ => true

namespace Machine

/-- Append an event to the inbox (10_state.md R22). -/
def State.append (s : State) (i : Instr) : State :=
  { s with inbox := s.inbox ++ [i] }

/-- HOST appends a request. A breach by an ill-typed operand is not recorded here but when BLK performs the request
(DESIGN CHOICE, assumption 32). -/
def hostTurn (i : Instr) (s : State) : State :=
  if i.hostMayStart then s.append i else s

/-- How far `b` is ahead of `a` in a ring of `n` bytes. -/
def ahead (n a b : Nat) : Nat :=
  (b + (n - a)) % n

/-- The CP moves TXTAIL(r) forward, over bytes that are in the ring, to an index in range (R66). -/
def txTailDuty (p : Snapshot) (v : Nat) : Bool :=
  p.inRange && decide (v < p.size) && decide (ahead p.size p.tail v ≤ p.used)

/-- The CP moves RXHEAD(r) forward, within the free bytes, to an index in range, and only over bytes it has written
since they were last published: data before the head word (R66, assumption 29). -/
def rxHeadDuty (rc : RingCfg) (s : State) (v : Nat) : Bool :=
  let p := s.rxSnap rc
  p.inRange && decide (v < p.size) && decide (ahead p.size p.head v ≤ p.free) &&
  markedRing rc.rxBase rc.rxSize s.rxWritten p.head (ahead p.size p.head v)

/-- The CP writes RX data beyond RXHEAD(r), over bytes that are not published (R66, R70). -/
def rxDataDuty (p : Snapshot) (index len : Nat) : Bool :=
  p.inRange && decide (index < p.size) &&
  decide (ahead p.size p.head index + len ≤ p.size - p.used)

/-- A write of the CP, with the breach recorded when the duty does not hold (R66, assumption 21). -/
def cpWrite (duty : Bool) (m : Memory) (s : State) : State :=
  if duty then { s with shm := m } else { s with shm := m }.addFault .remote

/-- A write of the CP in ring r; there is none in a ring outside `P_RINGS`. -/
def cpRing (r : RingId) (s : State) (k : RingCfg → State) : State :=
  match s.cfg.ring? r with
  | none => s.addFault .remote
  | some rc => if s.cfg.fits then k rc else s.addFault .remote

/-- A change of an input line also appends its edge event; a level already there is no change (R67). -/
def lineTurn (old new : Bool) (edge : Instr) (s s' : State) : State :=
  if old = new then s else s'.append edge

/-- A turn of the CP. R66 gives the fields but no widths of the CP's writes: the index and magic words are written whole
(R68) and RX data as a byte sequence. A write in another form, the move `elsewhere`, records the breach wherever it
lands, also where it lands on bytes the CP owns (one byte of the magic word) or writes no byte (DESIGN CHOICE,
assumption 31). A write of RX data marks its bytes written; a write of RXHEAD unmarks the bytes it passes
(assumption 29). -/
def cpTurn (m : CpMove) (s : State) : State :=
  match m with
  | .txTail r v =>
    cpRing r s fun rc =>
      cpWrite (txTailDuty (s.txSnap rc) v.toNat) (s.shm.writeLe rc.txTail 4 v.toNat) s
  | .rxHead r v =>
    cpRing r s fun rc =>
      cpWrite (rxHeadDuty rc s v.toNat) (s.shm.writeLe rc.rxHead 4 v.toNat)
        (s.markRx rc false (s.word rc.rxHead) (ahead rc.rxSize (s.word rc.rxHead) v.toNat))
  | .rxData r i b =>
    cpRing r s fun rc =>
      cpWrite (rxDataDuty (s.rxSnap rc) i b.length)
        (Memory.ringPut rc.rxBase rc.rxSize s.shm i b) (s.markRx rc true i b.length)
  | .magic v =>
    if s.cfg.fits then { s with shm := s.shm.writeLe s.cfg.magicAddr 4 v.toNat }
    else s.addFault .remote
  | .elsewhere a b =>
    if a + b.length ≤ s.cfg.shmSize then cpWrite false (s.shm.writeBytes a b) s
    else s.addFault .remote
  | .apWakeup level => lineTurn s.apWakeup level (.apWakeupEdge level) s { s with apWakeup := level }
  | .cpStatus level => lineTurn s.cpStatus level (.cpStatusEdge level) s { s with cpStatus := level }
  | .mailbox v => s.append (.mbxIrq v)

/-- A turn of TIMERS: while a timer is armed and the expiry of this arming is not appended yet, append it
(43_pm.md R225, assumption 22). -/
def timerTurn (t : TimerId) (s : State) : State :=
  match t with
  | .sleep =>
    if s.pm.sleep = .armed then
      { s with pm := { s.pm with sleep := .posted } }.append .sleepTimerFire
    else s
  | .linkoff =>
    if s.pm.linkoff = .armed then
      { s with pm := { s.pm with linkoff := .posted } }.append .linkoffTimerFire
    else s
  | .retry r =>
    if (s.ring r).retry = .armed then
      (s.setRing r { s.ring r with retry := .posted }).append (.retryTimerFire r)
    else s
  | .resAck r =>
    if (s.ring r).ackWait = .armed then
      (s.setRing r { s.ring r with ackWait := .posted }).append (.resAckTimeout r)
    else s

/-- A turn of an agent other than BLK. -/
def agentTurn (m : Move) (s : State) : State :=
  match m with
  | .blk => s
  | .host i => hostTurn i s
  | .cp c => cpTurn c s
  | .timer t => timerTurn t s

end Machine

end Sys2Proof
end

