-- ==== Sys2Proof/Machine/Fetch.lean ====
section
/-! DEFINITION. What BLK performs next (10_state.md R20, R22, R23): the continuation of the poll in progress, or else the head of the
inbox. The block fetches no instruction bytes; `place` puts an operation where BLK takes its next one (assumption 8). -/

namespace Sys2Proof.Machine

/-- The operation BLK performs next and the state it performs it in: a poll in progress goes on; otherwise the
inbox head is removed and recorded as performed. `none`: BLK has no enabled step. -/
def fetch (s : State) : Option (Instr × State) :=
  match s.busy with
  | some _ => some (.pollStep, s)
  | none =>
    match s.inbox with
    | [] => none
    | i :: rest => some (i, { s with inbox := rest }.emit (.input i))

/-- Whose turn it is: the head of the schedule, or BLK when the schedule is used up (assumption 6). -/
def nextTurn (s : State) : Move × State :=
  match s.schedule with
  | [] => (.blk, s)
  | m :: rest => (m, { s with schedule := rest })

/-- Put an operation where BLK takes its next one, with BLK's turn next. POLL_STEP is the continuation of a poll, so
it is placed by a poll that HOST's FORBID_SLEEP has just begun (43_pm.md R221). -/
def place (i : Instr) (s : State) : State :=
  match i with
  | .pollStep =>
    { s with busy := some ⟨s.cfg.pollMax, .host, .host⟩, schedule := .blk :: s.schedule }
  | _ => { s with busy := none, inbox := i :: s.inbox, schedule := .blk :: s.schedule }

end Sys2Proof.Machine
end

