-- ==== Sys2Proof/Machine/Step.lean ====
section
/-! DEFINITION. One step: one turn of one agent (00_scope.md R5, R10). -/

namespace Sys2Proof.Machine

/-- A turn of BLK: perform the next operation; with none to perform the state stays (assumption 7). -/
def blkTurn (s : State) : Host.Outcome State Fault Refusal :=
  match fetch s with
  | none => .next s
  | some (i, s') => exec i s'

/-- One step of the machine. -/
def step (s : State) : Host.Outcome State Fault Refusal :=
  match nextTurn s with
  | (.blk, s') => blkTurn s'
  | (m, s') => .next (agentTurn m s')

/-- The state whose next step performs the instruction of a table word (assumption 8). -/
def State.withFetchWord (s : State) (nbits w : Nat) : State :=
  match decodeTableWord nbits w with
  | some i => place i s
  | none => s

end Sys2Proof.Machine
end

