-- ==== Sys2Proof/Safety.lean ====
section
/-! DEFINITION. What counts as a safe run: the premises of a claim (70_reset_and_hazards.md R312), the end of a run (R313), and
the invariants that the statements name. -/

namespace Sys2Proof.Machine

/-- No fault recorded and not refused: the premises of a claim about the block (60_exceptions.md R290, 70_reset_and_hazards.md R312). -/
def State.clean (s : State) : Prop :=
  s.fault = ⟨false, false⟩ ∧ s.refused = false

/-- Every index word is below its ring's size (20_memory.md R63, 70_reset_and_hazards.md R311 step 2). -/
def State.indicesInRange (s : State) : Prop :=
  ∀ rc ∈ s.cfg.rings, (s.txSnap rc).inRange = true ∧ (s.rxSnap rc).inRange = true

/-- The RX bytes of every ring are whole SIPC5 frames (R311 step 2). -/
def State.rxWhole (s : State) : Prop :=
  ∀ rc ∈ s.cfg.rings, (split (rxBytes rc s)).ending = .clean

/-- The launch premises of R312 on a state. -/
def State.launchable (s : State) : Prop :=
  s.cfg.wf = true ∧ s.clean ∧ s.indicesInRange ∧ s.rxWhole

/-- No timer of ring `rc` is armed. -/
def State.ringIdle (s : State) (rc : RingCfg) : Prop :=
  (s.ring rc.id).retry.isArmed = false ∧ (s.ring rc.id).ackWait.isArmed = false

/-- A quiescent state: the end of a run (R313). -/
def State.quiescent (s : State) : Prop :=
  s.inbox = [] ∧ s.busy = none ∧ s.pm.sleep.isArmed = false ∧ s.pm.linkoff.isArmed = false ∧
  ∀ rc ∈ s.cfg.rings, s.ringIdle rc

/-- A failed end (R313). -/
def State.failedEnd (s : State) : Prop :=
  s.quiescent ∧ ¬ s.clean

/-- The state's tables and shared memory are in canonical form. -/
def State.canonical (s : State) : Prop :=
  s.shm.wf ∧ SMap.wf false s.rxWritten ∧ SMap.wf RingState.init s.rings ∧ SMap.wf ChanState.init s.chans ∧
  ∀ c ∈ s.chans, SMap.wf none c.2.reasm

/-- Every listed byte of shared memory is below `SHM_SIZE` (20_memory.md R61). -/
def State.shmInside (s : State) : Prop :=
  ∀ c ∈ s.shm, c.1 < s.cfg.shmSize

/-- The power-management invariant behind R220 and R230: a holder keeps both lines up; `cp_wakeup` keeps
`ap_status` up; the link-off timer runs only with `cp_wakeup` released; with no holder and no timer both
lines are down; and a poll in progress holds. -/
def State.pmSafe (s : State) : Prop :=
  (0 < s.pm.refCnt → s.pm.cpWakeup = true) ∧
  (s.pm.cpWakeup = true → s.pm.apStatus = true) ∧
  (s.pm.linkoff.isArmed = true → s.pm.cpWakeup = false) ∧
  (s.pm.refCnt = 0 → s.pm.sleep.isArmed = false → s.pm.linkoff.isArmed = false →
    s.pm.cpWakeup = false ∧ s.pm.apStatus = false) ∧
  (s.busy ≠ none → 0 < s.pm.refCnt)

/-- The queues respect their bounds, and every queued frame can fit its ring (10_state.md R25, R29, 42_ring.md R172). -/
def State.queuesBounded (s : State) : Prop :=
  (∀ rc ∈ s.cfg.rings, (s.ring rc.id).txq.length ≤ s.cfg.txqDepth ∧
    ∀ f ∈ (s.ring rc.id).txq, f.length ≤ rc.txSize - 1) ∧
  ∀ ch, (s.chan ch).rxq.length ≤ s.cfg.rxqDepth

/-- The events of a history that name a recovery request. -/
def recoveryCount (h : List HistEvent) : Nat :=
  h.countP fun e => match e with
    | .recovery _ => true
    | _ => false

/-- `cnt_recovery` counts the recovery requests of the history (44_link_control.md R264). -/
def State.recoveriesCounted (s : State) : Prop :=
  s.cnt.recovery = BitVec.ofNat 32 (recoveryCount s.history)

/-- The level the history gives an output line: the last change, or 0 (20_memory.md R67). -/
def lineLevel (l : OutLine) (h : List HistEvent) : Bool :=
  h.foldl (fun v e => match e with
    | .gpio l' v' => if l' = l then v' else v
    | _ => v) false

/-- Every change of an output line is in the history (43_pm.md). -/
def State.linesRecorded (s : State) : Prop :=
  ∀ l, s.pm.line l = lineLevel l s.history

/-! Words the statements use. -/

/-- Ring `r` is left with state `v`, every other ring as it was. -/
def ringOnly (s t : State) (r : RingId) (v : RingState) : Prop :=
  t.ring r = v ∧ ∀ r', r' ≠ r → t.ring r' = s.ring r'

/-- Channel `ch` is left with state `v`, every other channel as it was. -/
def chanOnly (s t : State) (ch : ChanId) (v : ChanState) : Prop :=
  t.chan ch = v ∧ ∀ ch', ch' ≠ ch → t.chan ch' = s.chan ch'

/-- Operations performed one after another, stopping at the first that does not answer a next state. -/
def runAll : List Instr → State → Answer
  | [], s => .next s
  | i :: is, s =>
    match exec i s with
    | .next s' => runAll is s'
    | .fault f => .fault f
    | .refused r => .refused r

/-- The ring operations a mailbox data value asks for, in the order of 44_link_control.md R260. -/
def mbxWork (c : Config) (v : U16) : List Instr :=
  c.rings.flatMap fun rc =>
    (if c.mbxHas v rc.id .data then [.rxDrain rc.id] else []) ++
    (if c.mbxHas v rc.id .reqAck then [.mbxReqAck rc.id] else []) ++
    (if c.mbxHas v rc.id .resAck then [.mbxResAck rc.id] else [])

end Sys2Proof.Machine
end

