-- ==== Sys2Proof/Certificates/Slice0/Obligations.lean ====
section
/-! DEFINITION. The statements for the provers. Each docstring names the rule of spec/ it formalises, or the log entry of
notes/assumptions/ where it rests on a choice of the model. -/

open Sys2Proof Sys2Proof.Machine

/-! Codec. -/

/-- 40_codec.md R120: CALC_PADDING always succeeds, with a result in {0, 1, 2, 3}, and padding is idempotent. -/
def Obligations.CalcPaddingCompletesToAMultipleOfFour : Prop :=
  ∀ (n : Nat) (s : State), ∃ k,
    exec (.calcPadding n) s =
      .next { s with history := s.history ++ [.result (.calcPadding n) (.number k)] } ∧
    k = (4 - n % 4) % 4 ∧ k ≤ 3 ∧ (n % 4 = 0 → k = 0) ∧ (4 - (n + k) % 4) % 4 = 0

/-- 40_codec.md R121: HEADER_LEN looks up EXT (bit 5), then CTL (bit 4); no other bit matters. -/
def Obligations.HeaderLenLooksUpExtThenCtl : Prop :=
  ∀ (cfg : Byte) (s : State), cfg.getLsbD 7 = true →
    exec (.headerLen cfg) s =
      .next { s with history := s.history ++ [.result (.headerLen cfg) (.number
        (match cfg.getLsbD 5, cfg.getLsbD 4 with
         | false, _ => 4
         | true, true => 5
         | true, false => 6))] }

/-- 40_codec.md R122: BUILD_HEADER picks the control, base or extended variant, writes its bytes, and answers
TooLong when the total does not fit. -/
def Obligations.BuildHeaderWritesItsVariant : Prop :=
  ∀ (ch : ChanId) (plen : Nat) (pad : Bool) (ctl : Option Ctl) (s : State),
    let done : OpOutcome → Answer := fun o =>
      .next { s with history := s.history ++ [.result (.buildHeader ch plen pad ctl) o] }
    let byte : Nat → Byte := fun v => BitVec.ofNat 8 v
    (∀ c, ctl = some c → 5 + plen ≤ 0xFFFF →
      exec (.buildHeader ch plen pad ctl) s = done (.bytes
        [if pad then 0xF0 else 0xB0, ch, byte (5 + plen), byte ((5 + plen) / 2 ^ 8),
         byte ((if c.more then 128 else 0) + c.sid.toNat)])) ∧
    (∀ c, ctl = some c → 0xFFFF < 5 + plen →
      exec (.buildHeader ch plen pad ctl) s = done (.error (.tooLong (5 + plen)))) ∧
    (ctl = none → 4 + plen ≤ 0xFFFF →
      exec (.buildHeader ch plen pad ctl) s = done (.bytes
        [if pad then 0xC0 else 0x80, ch, byte (4 + plen), byte ((4 + plen) / 2 ^ 8)])) ∧
    (ctl = none → 0xFFFF < 4 + plen → 6 + plen ≤ 0xFFFFFFFF →
      exec (.buildHeader ch plen pad ctl) s = done (.bytes
        [if pad then 0xE0 else 0xA0, ch, byte (6 + plen), byte ((6 + plen) / 2 ^ 8),
         byte ((6 + plen) / 2 ^ 16), byte ((6 + plen) / 2 ^ 24)])) ∧
    (ctl = none → 0xFFFFFFFF < 6 + plen →
      exec (.buildHeader ch plen pad ctl) s = done (.error (.tooLong (6 + plen))))

/-- 40_codec.md R126 to R129: PARSE_HEADER makes its checks in the order Incomplete(1), BadConfig, Incomplete(header),
BadLength, Incomplete(total), and otherwise answers the header record. -/
def Obligations.ParseHeaderRunsItsChecksInOrder : Prop :=
  ∀ (bytes : Bytes) (s : State),
    let done : OpOutcome → Answer := fun o =>
      .next { s with history := s.history ++ [.result (.parseHeader bytes) o] }
    let cfg : Byte := bytes.getD 0 0
    let b : Nat → Nat := fun i => (bytes.getD i 0).toNat
    let hl : Nat := if cfg.getLsbD 5 = false then 4 else if cfg.getLsbD 4 = true then 5 else 6
    let fl : Nat :=
      if hl = 6 then b 2 + 2 ^ 8 * b 3 + 2 ^ 16 * b 4 + 2 ^ 24 * b 5 else b 2 + 2 ^ 8 * b 3
    let total : Nat := fl + if cfg.getLsbD 6 = true then (4 - fl % 4) % 4 else 0
    (bytes.length < 1 → exec (.parseHeader bytes) s = done (.incomplete 1)) ∧
    (1 ≤ bytes.length → cfg.getLsbD 7 = false →
      exec (.parseHeader bytes) s = done (.error (.parse (.badConfig cfg)))) ∧
    (1 ≤ bytes.length → cfg.getLsbD 7 = true → bytes.length < hl →
      exec (.parseHeader bytes) s = done (.incomplete hl)) ∧
    (hl ≤ bytes.length → cfg.getLsbD 7 = true → fl < hl →
      exec (.parseHeader bytes) s = done (.error (.parse (.badLength fl)))) ∧
    (hl ≤ bytes.length → cfg.getLsbD 7 = true → hl ≤ fl → bytes.length < total →
      exec (.parseHeader bytes) s = done (.incomplete total)) ∧
    (hl ≤ bytes.length → cfg.getLsbD 7 = true → hl ≤ fl → total ≤ bytes.length →
      exec (.parseHeader bytes) s = done (.parsed
        { channelId := bytes.getD 1 0
          frameLen := fl
          headerLen := hl
          isExtended := cfg.getLsbD 5
          isControl := decide (hl = 5)
          hasPadding := cfg.getLsbD 6
          ctl := if hl = 5 then
            some ⟨(bytes.getD 4 0).getLsbD 7, BitVec.ofNat 7 (b 4)⟩ else none }))

/-- 40_codec.md R130: TOTAL_FRAME_LEN is the frame length plus the padding, a multiple of 4 when there is padding. -/
def Obligations.TotalFrameLenAddsThePadding : Prop :=
  ∀ (hdr : Hdr) (s : State), hdr.wf = true → ∃ k,
    exec (.totalFrameLen hdr) s =
      .next { s with history := s.history ++ [.result (.totalFrameLen hdr) (.number k)] } ∧
    (hdr.hasPadding = true → k = hdr.frameLen + (4 - hdr.frameLen % 4) % 4 ∧ k % 4 = 0) ∧
    (hdr.hasPadding = false → k = hdr.frameLen)

/-- 30_encoding.md R102: FRAME_BUILD is BUILD_HEADER of the payload's length, then the payload, then the zeros of
CALC_PADDING; it fails exactly as BUILD_HEADER fails. -/
def Obligations.FrameBuildIsHeaderPayloadPadding : Prop :=
  ∀ (ch : ChanId) (p : Bytes) (pad : Bool) (ctl : Option Ctl) (s : State),
    let built : OpOutcome → Answer := fun o =>
      .next { s with history := s.history ++ [.result (.buildHeader ch p.length pad ctl) o] }
    let done : OpOutcome → Answer := fun o =>
      .next { s with history := s.history ++ [.result (.frameBuild ch p pad ctl) o] }
    (∃ h, exec (.buildHeader ch p.length pad ctl) s = built (.bytes h) ∧
      exec (.frameBuild ch p pad ctl) s = done (.bytes (h ++ p ++
        List.replicate (if pad then (4 - (h.length + p.length) % 4) % 4 else 0) 0))) ∨
    (∃ n, exec (.buildHeader ch p.length pad ctl) s = built (.error (.tooLong n)) ∧
      exec (.frameBuild ch p pad ctl) s = done (.error (.tooLong n)))

/-- 30_encoding.md R94 and R103 on the four frame forms of the opcode table; that performing such a form is PARSE_HEADER
of its bytes is the model's choice (log entry 12). -/
def Obligations.FrameFormsParseToTheirHeaders : Prop :=
  ∀ (c : Config) (cfg : Byte) (ch : ChanId) (len : U16) (len32 : U32) (ctl : Byte) (body : Bytes) (s : State),
    let done : Instr → OpOutcome → Answer := fun i o =>
      .next { s with history := s.history ++ [.result i o] }
    ((Instr.sipc5Hdr4 cfg ch len body).wf c = true →
      exec (.sipc5Hdr4 cfg ch len body) s = done (.sipc5Hdr4 cfg ch len body)
        (if len.toNat < 4 then .error (.parse (.badLength len.toNat))
         else .parsed ⟨ch, len.toNat, 4, false, false, cfg.getLsbD 6, none⟩)) ∧
    ((Instr.sipc5Hdr5Ctl cfg ch len ctl body).wf c = true →
      exec (.sipc5Hdr5Ctl cfg ch len ctl body) s = done (.sipc5Hdr5Ctl cfg ch len ctl body)
        (if len.toNat < 5 then .error (.parse (.badLength len.toNat))
         else .parsed ⟨ch, len.toNat, 5, true, true, cfg.getLsbD 6,
           some ⟨ctl.getLsbD 7, BitVec.ofNat 7 ctl.toNat⟩⟩)) ∧
    ((Instr.sipc5Hdr6Ext cfg ch len32 body).wf c = true →
      exec (.sipc5Hdr6Ext cfg ch len32 body) s = done (.sipc5Hdr6Ext cfg ch len32 body)
        (if len32.toNat < 6 then .error (.parse (.badLength len32.toNat))
         else .parsed ⟨ch, len32.toNat, 6, true, false, cfg.getLsbD 6, none⟩)) ∧
    ((Instr.sipc5BadConfig cfg).wf c = true →
      exec (.sipc5BadConfig cfg) s =
        done (.sipc5BadConfig cfg) (.error (.parse (.badConfig cfg))))

/-- 40_codec.md R132, for every channel id, every payload that can be encoded, and with or without a control byte: parsing
a built frame gives its fields back, SPLIT gives the one frame, and SPLIT of a proper prefix that is not
empty is Partial. (R132 says every proper prefix; SPLIT of the empty sequence is Clean by R131 and vector
V-C44, so the empty prefix is left out here.) -/
def Obligations.BuiltFrameParsesBack : Prop :=
  ∀ (ch : ChanId) (p : Bytes) (pad : Bool) (ctl : Option Ctl),
    ((ctl = none ∧ 6 + p.length ≤ 0xFFFFFFFF) ∨ (ctl ≠ none ∧ 5 + p.length ≤ 0xFFFF)) →
    ∃ f hdr, frameBuild ch p pad ctl = .ok f ∧
      (∀ k, parseHeader (f ++ List.replicate k 0) = .ok hdr) ∧
      hdr.channelId = ch ∧ hdr.headerLen ≤ hdr.frameLen ∧
      hdr.frameLen - hdr.headerLen = p.length ∧ hdr.hasPadding = pad ∧ hdr.ctl = ctl ∧
      (ctl = none → (hdr.isExtended = true ↔ 0xFFFF < 4 + p.length)) ∧
      split f = ⟨[(hdr, p)], f.length, .clean⟩ ∧
      ∀ g rest, g ++ rest = f → g ≠ [] → rest ≠ [] → ∃ n, split g = ⟨[], 0, .partialFrame n⟩

/-- 40_codec.md R131: SPLIT of frames laid end to end gives every frame, in order, each with its payload, and ends
Clean. -/
def Obligations.SplitRecoversFramesLaidEndToEnd : Prop :=
  ∀ frames : List (ChanId × Bytes × Bool × Option Ctl × Bytes),
    (∀ x ∈ frames, frameBuild x.1 x.2.1 x.2.2.1 x.2.2.2.1 = .ok x.2.2.2.2) →
    ∃ hdrs : List Hdr,
      hdrs.length = frames.length ∧
      split (frames.map fun x => x.2.2.2.2).flatten =
        ⟨hdrs.zip (frames.map fun x => x.2.1), (frames.map fun x => x.2.2.2.2.length).sum, .clean⟩ ∧
      hdrs.map (·.channelId) = frames.map (·.1) ∧
      hdrs.map (·.ctl) = frames.map fun x => x.2.2.2.1

/-! Encoding. -/

/-- Every instruction with well-formed operands that has bytes decodes from them, whatever follows; FRAME_BUILD alone has
none (30_encoding.md R102). The operand layout is the model's own (log entries 9, 10, 11). A START-less config byte that is
also an operation number decodes as the operation; as a frame it decodes back. -/
def Obligations.DecodeOfEncodeGivesTheInstructionBack : Prop :=
  (∀ (c : Config) (i : Instr) (w rest : Bytes), i.wf c = true → encode i = some w →
    (∀ cfg, i = .sipc5BadConfig cfg → opOfByte cfg = none) → decode (w ++ rest) = .ok (i, rest)) ∧
  (∀ (cfg : Byte) (rest : Bytes), cfg.getLsbD 7 = false →
    decodeFrame (cfg :: rest) = .ok (.sipc5BadConfig cfg, rest)) ∧
  (∀ i : Instr, encode i = none ↔ ∃ ch p pad ctl, i = .frameBuild ch p pad ctl)

/-- Each byte sequence that decodes is the encoding of what it decodes to, followed by the rest: no two encodings
of one instruction, and no byte dropped (log entries 9, 10). -/
def Obligations.DecodedBytesAreTheEncoding : Prop :=
  ∀ (bs rest : Bytes) (i : Instr), decode bs = .ok (i, rest) →
    ∃ w, encode i = some w ∧ bs = w ++ rest

/-- Bytes written out from 30_encoding.md R91, R94 and R100 decode to the instructions they stand for. That a byte which is
an operation number is read as the operation and not as a config byte without START is log entry 9; that the bytes of
zeros after it are its operands is log entry 10. -/
def Obligations.TableWordsDecode : Prop :=
  decodeTableWord 8 0x01 = some (.calcPadding 0) ∧
  decodeTableWord 8 0x11 = some (.rxRead 0) ∧
  decodeTableWord 8 0x23 = some (.xmit 0) ∧
  decodeTableWord 8 0x31 = some .pollStep ∧
  decodeTableWord 8 0x42 = some .flushTx ∧
  decodeTableWord 32 0x00040580 = some (.sipc5Hdr4 0x80 5 4 []) ∧
  decodeTableWord 40 0x83000501B0 = some (.sipc5Hdr5Ctl 0xB0 1 5 0x83 []) ∧
  decodeTableWord 48 0x0000000605A0 = some (.sipc5Hdr6Ext 0xA0 5 6 []) ∧
  decodeTableWord 8 0x00 = some (.sipc5BadConfig 0)

/-! Sequencing. -/

/-- 10_state.md R22, R23: with no poll in progress BLK removes the inbox head and performs it; a poll in progress goes on first, and
between its reads other agents' turns may come (43_pm.md R222); with nothing to perform a turn of BLK changes nothing but
the schedule (log entry 7). The turns are data (log entry 6), and `withFetchWord` places a decoded instruction where
BLK takes its next one (log entry 8). -/
def Obligations.StepPerformsTheInboxHeadOrThePoll : Prop :=
  (∀ (s : State) (i : Instr) (q : List Instr) (ms : List Move), s.busy = none → s.inbox = i :: q →
    (s.schedule = [] → step s = exec i { s with inbox := q, history := s.history ++ [.input i] }) ∧
    (s.schedule = .blk :: ms → step s =
      exec i { s with inbox := q, history := s.history ++ [.input i], schedule := ms })) ∧
  (∀ (s : State) (p : Poll) (ms : List Move), s.busy = some p →
    (s.schedule = [] → step s = exec .pollStep s) ∧
    (s.schedule = .blk :: ms → step s = exec .pollStep { s with schedule := ms })) ∧
  (∀ (s : State) (ms : List Move), s.busy = none → s.inbox = [] →
    (s.schedule = [] → step s = .next s) ∧
    (s.schedule = .blk :: ms → step s = .next { s with schedule := ms })) ∧
  (∀ (s : State) (nbits w : Nat) (i : Instr), decodeTableWord nbits w = some i → i ≠ .pollStep →
    step (s.withFetchWord nbits w) =
      exec i { s with busy := none, history := s.history ++ [.input i] }) ∧
  (∀ (s : State) (nbits w : Nat), decodeTableWord nbits w = some .pollStep →
    step (s.withFetchWord nbits w) =
      exec .pollStep { s with busy := some ⟨s.cfg.pollMax, .host, .host⟩ })

/-- 60_exceptions.md R289 and 43_pm.md R225: HOST appends the operations R289 lists, FRAME_BUILD and the frame forms (log
entries 11 and 12), and no other; TIMERS append at most one expiry per arming, only while the timer is armed; a turn that
is not enabled changes nothing (log entries 6, 22, 27). That HOST's turn records no breach, also for an ill-typed operand, is
log entry 32. -/
def Obligations.HostAndTimerTurnsAppendOnlyTheirEvents : Prop :=
  ∀ (s : State) (ms : List Move) (i : Instr) (t : TimerId),
    (s.schedule = .host i :: ms → step s = .next { s with
      schedule := ms
      inbox := s.inbox ++ match i with
        | .calcPadding _ | .headerLen _ | .buildHeader _ _ _ _ | .parseHeader _ | .totalFrameLen _ => [i]
        | .rxRead _ | .channelReset _ | .txEnqueue _ _ _ | .getTxSpace _ | .getRxUsed _ | .xmit _ => [i]
        | .forbidSleep .host | .permitSleep | .setMode _ | .flushTx => [i]
        | .frameBuild _ _ _ _ | .sipc5Hdr4 _ _ _ _ | .sipc5Hdr5Ctl _ _ _ _ _ => [i]
        | .sipc5Hdr6Ext _ _ _ _ | .sipc5BadConfig _ => [i]
        | .route _ _ _ | .rxDrain _ | .mbxReqAck _ | .mbxResAck _ | .forbidSleep (.xmit _) | .pollStep => []
        | .sleepTimerFire | .linkoffTimerFire | .retryTimerFire _ | .resAckTimeout _ => []
        | .apWakeupEdge _ | .cpStatusEdge _ | .mbxIrq _ => [] }) ∧
    (s.schedule = .timer t :: ms → ∃ u, step s = .next u ∧
      (match t with
       | .sleep => if s.pm.sleep = .armed
          then u = { s with schedule := ms, inbox := s.inbox ++ [.sleepTimerFire],
                            pm := { s.pm with sleep := .posted } }
          else u = { s with schedule := ms }
       | .linkoff => if s.pm.linkoff = .armed
          then u = { s with schedule := ms, inbox := s.inbox ++ [.linkoffTimerFire],
                            pm := { s.pm with linkoff := .posted } }
          else u = { s with schedule := ms }
       | .retry r => if (s.ring r).retry = .armed
          then u = { s with schedule := ms, inbox := s.inbox ++ [.retryTimerFire r], rings := u.rings } ∧
            ringOnly s u r { s.ring r with retry := .posted }
          else u = { s with schedule := ms }
       | .resAck r => if (s.ring r).ackWait = .armed
          then u = { s with schedule := ms, inbox := s.inbox ++ [.resAckTimeout r], rings := u.rings } ∧
            ringOnly s u r { s.ring r with ackWait := .posted }
          else u = { s with schedule := ms }))

/-- 20_memory.md R66, R67: a CP turn writes only shared memory, the input lines and the marks of its RX writes; a change of a
line appends its edge event. A write of a field lands there and nowhere else, and RemoteDutyBroken is recorded
exactly when: an index leaves its range, passes its bound, or publishes an RX byte that the CP has not written since it
was last published (log entry 29); RX data is written over published bytes; the write is of no field of the CP's (log
entries 21 and 31); there is no such ring, or the layout leaves shared memory (log entry 23). -/
def Obligations.CpTurnsWriteFieldsAndRecordBreaches : Prop :=
  ∀ (s : State) (ms : List Move) (m : CpMove), s.schedule = .cp m :: ms → ∃ u, step s = .next u ∧
    u = { s with schedule := ms, shm := u.shm, fault := u.fault, inbox := u.inbox,
                 apWakeup := u.apWakeup, cpStatus := u.cpStatus, rxWritten := u.rxWritten } ∧
    let broken : FaultSet := { s.fault with remoteDutyBroken := true }
    let calm : Prop := u.inbox = s.inbox ∧ u.apWakeup = s.apWakeup ∧ u.cpStatus = s.cpStatus
    let quiet : Prop := u.shm = s.shm ∧ u.fault = s.fault ∧ u.rxWritten = s.rxWritten
    let nowhere : Prop := u.shm = s.shm ∧ u.fault = broken ∧ u.rxWritten = s.rxWritten
    let noRing : RingId → Prop := fun r => s.cfg.ring? r = none ∨ s.cfg.fits = false → nowhere
    let only : Nat → Nat → Prop := fun a n => ∀ x, x < a ∨ a + n ≤ x → u.shm.read x = s.shm.read x
    let judged : Prop → Prop := fun duty => (duty → u.fault = s.fault) ∧ (¬ duty → u.fault = broken)
    let mark : State → Nat → Bool := fun v a => SMap.get false v.rxWritten a
    match m with
    | .apWakeup l => quiet ∧ u.apWakeup = l ∧ u.cpStatus = s.cpStatus ∧
        u.inbox = s.inbox ++ if s.apWakeup = l then [] else [.apWakeupEdge l]
    | .cpStatus l => quiet ∧ u.apWakeup = s.apWakeup ∧ u.cpStatus = l ∧
        u.inbox = s.inbox ++ if s.cpStatus = l then [] else [.cpStatusEdge l]
    | .mailbox v => quiet ∧ u.apWakeup = s.apWakeup ∧ u.cpStatus = s.cpStatus ∧
        u.inbox = s.inbox ++ [.mbxIrq v]
    | .magic v => calm ∧ (s.cfg.fits = false → nowhere) ∧ (s.cfg.fits = true →
        u.fault = s.fault ∧ u.rxWritten = s.rxWritten ∧
        u.shm.readLe s.cfg.magicAddr 4 = v.toNat ∧ only s.cfg.magicAddr 4)
    | .txTail r v => calm ∧ noRing r ∧ ∀ rc, s.cfg.ring? r = some rc → s.cfg.fits = true →
        u.shm.readLe rc.txTail 4 = v.toNat ∧ only rc.txTail 4 ∧ u.rxWritten = s.rxWritten ∧
        let h := s.shm.readLe rc.txHead 4
        let tl := s.shm.readLe rc.txTail 4
        let n := rc.txSize
        judged (h < n ∧ tl < n ∧ v.toNat < n ∧ (v.toNat + (n - tl)) % n ≤ (h + (n - tl)) % n)
    | .rxHead r v => calm ∧ noRing r ∧ ∀ rc, s.cfg.ring? r = some rc → s.cfg.fits = true →
        u.shm.readLe rc.rxHead 4 = v.toNat ∧ only rc.rxHead 4 ∧
        let h := s.shm.readLe rc.rxHead 4
        let tl := s.shm.readLe rc.rxTail 4
        let n := rc.rxSize
        let k := (v.toNat + (n - h)) % n
        judged (h < n ∧ tl < n ∧ v.toNat < n ∧ k ≤ n - 1 - (h + (n - tl)) % n ∧
          ∀ j, j < k → mark s (rc.rxBase + (h + j) % n) = true) ∧
        (∀ j, j < k → mark u (rc.rxBase + (h + j) % n) = false) ∧
        ∀ a, (∀ j, j < k → a ≠ rc.rxBase + (h + j) % n) → mark u a = mark s a
    | .rxData r i b => calm ∧ noRing r ∧ ∀ rc, s.cfg.ring? r = some rc → s.cfg.fits = true →
        let h := s.shm.readLe rc.rxHead 4
        let tl := s.shm.readLe rc.rxTail 4
        let n := rc.rxSize
        (∀ j, j < b.length → b.length ≤ j + n → u.shm.read (rc.rxBase + (i + j) % n) = b.getD j 0) ∧
        (∀ a, (∀ j, j < b.length → a ≠ rc.rxBase + (i + j) % n) →
          u.shm.read a = s.shm.read a ∧ mark u a = mark s a) ∧
        (∀ j, j < b.length → mark u (rc.rxBase + (i + j) % n) = true) ∧
        judged (h < n ∧ tl < n ∧ i < n ∧ (i + (n - h)) % n + b.length ≤ n - (h + (n - tl)) % n)
    | .elsewhere a b => calm ∧ u.fault = broken ∧ u.rxWritten = s.rxWritten ∧
        (s.cfg.shmSize < a + b.length → u.shm = s.shm) ∧
        (a + b.length ≤ s.cfg.shmSize → only a b.length ∧
          ∀ j, j < b.length → u.shm.read (a + j) = b.getD j 0)

/-! Demultiplexer. -/

/-- 41_demux.md R140, R145: a frame of a channel that is not in the table is dropped and counted; a frame on a CMD channel goes
on unchanged and to no queue. -/
def Obligations.RouteDropsUnknownAndForwardsCmd : Prop :=
  ∀ (ch : ChanId) (p : Bytes) (ctl : Option Ctl) (s : State),
    (s.cfg.chan? ch = none →
      exec (.route ch p ctl) s = .next { s with
        cnt := { s.cnt with noChannel := s.cnt.noChannel + 1 }
        history := s.history ++ [.outcome (.route ch p ctl) (.error (.noSuchChannel ch))] }) ∧
    (∀ cc, s.cfg.chan? ch = some cc → cc.kind = .cmd →
      exec (.route ch p ctl) s = .next { s with
        history := s.history ++ [.cmdFrame ch p, .outcome (.route ch p ctl) .forwarded] })

/-- 41_demux.md R146: delivery to a MISC channel, of a frame that is not reassembled (R143: no control byte, or a channel that is
not FMT): the payload joins the queue and wakes a waiter, or is dropped and counted when the queue is full. -/
def Obligations.RouteDeliversToTheMiscQueue : Prop :=
  ∀ (ch : ChanId) (p : Bytes) (ctl : Option Ctl) (s : State) (cc : ChanCfg),
    s.cfg.chan? ch = some cc → cc.kind ≠ .cmd → (cc.kind = .fmt → ctl = none) → cc.delivery = .misc →
    ((s.chan ch).rxq.length ≠ s.cfg.rxqDepth → ∃ t, exec (.route ch p ctl) s = .next t ∧
      chanOnly s t ch ⟨(s.chan ch).rxq ++ [p], (s.chan ch).reasm⟩ ∧
      t = { s with chans := t.chans,
                   history := s.history ++ [.wake ch, .outcome (.route ch p ctl) .delivered] }) ∧
    ((s.chan ch).rxq.length = s.cfg.rxqDepth →
      exec (.route ch p ctl) s = .next { s with
        cnt := { s.cnt with rxqDrop := s.cnt.rxqDrop + 1 }
        history := s.history ++ [.outcome (.route ch p ctl) (.error (.rxQueueFull ch))] })

/-- 41_demux.md R147: delivery to a NET channel, of a frame that is not reassembled: handed out when the first byte's high nibble is
4 or 6, dropped and counted otherwise, also when it is empty. -/
def Obligations.RouteDeliversIpPacketsOnly : Prop :=
  ∀ (ch : ChanId) (p : Bytes) (ctl : Option Ctl) (s : State) (cc : ChanCfg),
    s.cfg.chan? ch = some cc → cc.kind ≠ .cmd → (cc.kind = .fmt → ctl = none) → cc.delivery = .net →
    ((∃ b q, p = b :: q ∧ (b.extractLsb' 4 4 = 4 ∨ b.extractLsb' 4 4 = 6)) →
      exec (.route ch p ctl) s = .next { s with
        history := s.history ++ [.netDeliver ch p, .outcome (.route ch p ctl) .delivered] }) ∧
    (¬ (∃ b q, p = b :: q ∧ (b.extractLsb' 4 4 = 4 ∨ b.extractLsb' 4 4 = 6)) →
      exec (.route ch p ctl) s = .next { s with
        cnt := { s.cnt with netInvalid := s.cnt.netInvalid + 1 }
        history := s.history ++ [.outcome (.route ch p ctl) (.error (.netInvalid ch))] })

/-- 41_demux.md R144: a fragment with `more` joins its session's buffer; the last one clears the session and delivers the whole
buffer, exactly as the buffer is delivered when it comes as one frame without a control byte (R140, R146, R147); no other
session and no other channel changes. -/
def Obligations.RouteReassemblesFmtFragments : Prop :=
  ∀ (ch : ChanId) (p : Bytes) (c : Ctl) (s : State) (cc : ChanCfg),
    s.cfg.chan? ch = some cc → cc.kind = .fmt →
    let buf : Bytes := ((s.chan ch).session c.sid).getD [] ++ p
    let i : Instr := .route ch p (some c)
    let whole : Instr := .route ch buf none
    let sessionIs : State → Option Bytes → Prop := fun t b =>
      (t.chan ch).session c.sid = b ∧ (t.chan ch).rxq = (s.chan ch).rxq ∧
      (∀ sid, sid ≠ c.sid → (t.chan ch).session sid = (s.chan ch).session sid) ∧
      (∀ ch', ch' ≠ ch → t.chan ch' = s.chan ch')
    (c.more = true → ∃ t, exec i s = .next t ∧ sessionIs t (some buf) ∧
      t = { s with chans := t.chans, history := s.history ++ [.outcome i .accumulated] }) ∧
    (c.more = false → ∃ (u v : State) (o : OpOutcome), sessionIs u none ∧ u = { s with chans := u.chans } ∧
      exec whole u = .next { v with history := v.history ++ [.outcome whole o] } ∧
      exec i s = .next { v with history := v.history ++ [.outcome i o] })

/-- 41_demux.md R148: RX_READ takes the oldest entry of a MISC channel's queue, answers Empty when there is none, and
NoSuchChannel for a channel that is not in the table or is NET. -/
def Obligations.RxReadTakesTheOldestEntry : Prop :=
  ∀ (ch : ChanId) (s : State),
    let done : OpOutcome → Answer := fun o =>
      .next { s with history := s.history ++ [.result (.rxRead ch) o] }
    ((∀ cc, s.cfg.chan? ch = some cc → cc.delivery = .net) →
      exec (.rxRead ch) s = done (.error (.noSuchChannel ch))) ∧
    (∀ cc, s.cfg.chan? ch = some cc → cc.delivery = .misc → (s.chan ch).rxq = [] →
      exec (.rxRead ch) s = done .empty) ∧
    (∀ cc d q, s.cfg.chan? ch = some cc → cc.delivery = .misc → (s.chan ch).rxq = d :: q →
      ∃ t, exec (.rxRead ch) s = .next t ∧ chanOnly s t ch ⟨q, (s.chan ch).reasm⟩ ∧
        t = { s with chans := t.chans, history := s.history ++ [.result (.rxRead ch) (.data d)] })

/-- 41_demux.md R149: CHANNEL_RESET clears every session of an FMT channel and the queue of a MISC channel, and keeps
everything else, queued TX frames among it. -/
def Obligations.ChannelResetClearsSessionsAndQueue : Prop :=
  ∀ (ch : ChanId) (s : State),
    (s.cfg.chan? ch = none → exec (.channelReset ch) s = .next { s with
      history := s.history ++ [.result (.channelReset ch) (.error (.noSuchChannel ch))] }) ∧
    (∀ cc, s.cfg.chan? ch = some cc → ∃ t, exec (.channelReset ch) s = .next t ∧
      (∀ sid, (t.chan ch).session sid = if cc.kind = .fmt then none else (s.chan ch).session sid) ∧
      (t.chan ch).rxq = (if cc.delivery = .misc then [] else (s.chan ch).rxq) ∧
      (∀ ch', ch' ≠ ch → t.chan ch' = s.chan ch') ∧
      t = { s with chans := t.chans, history := s.history ++ [.result (.channelReset ch) .ok] })

/-! Ring transport. -/

/-- 42_ring.md R170: for indices in range, `used` is the head's distance from the tail modulo the size, and used and free
make up the size less the one slot kept empty. -/
def Obligations.UsedAndFreeMakeUpTheRing : Prop :=
  ∀ p : Snapshot, p.head < p.size → p.tail < p.size →
    ((p.used : Int) = ((p.head : Int) - (p.tail : Int)) % (p.size : Int)) ∧
    p.used + p.free = p.size - 1 ∧ p.used ≤ p.size - 1 ∧ (p.head = p.tail ↔ p.used = 0)

/-- 42_ring.md R171: in OFFLINE and ULOAD the TX operations end with LinkDown and write nothing else, and the two timer
events only clear their flag (the outcome Ok of RES_ACK_TIMEOUT there is log entry 15; that a retry records the outcome
of XMIT and then its own, R183 and 60_exceptions.md R283, is log entry 13). Not armed, they are Stale in every mode:
XmitAndRetryStartTheWake, ResAckTimeoutTellsDrainedFromStuck. -/
def Obligations.LinkDownStopsTheDataPath : Prop :=
  ∀ (s : State) (ch : ChanId) (p : Bytes) (ctl : Option Ctl) (r : RingId) (rc : RingCfg),
    s.mode = .offline ∨ s.mode = .uload → s.cfg.ring? r = some rc → s.cfg.fits = true →
    exec (.txEnqueue ch p ctl) s = .next { s with
      history := s.history ++ [.result (.txEnqueue ch p ctl) (.error .linkDown)] } ∧
    exec (.xmit r) s = .next { s with
      history := s.history ++ [.result (.xmit r) (.error .linkDown)] } ∧
    ((s.ring r).retry ≠ .off → ∃ t, exec (.retryTimerFire r) s = .next t ∧
      ringOnly s t r { s.ring r with retry := .off } ∧
      t = { s with rings := t.rings, history := s.history ++
        [.outcome (.xmit r) (.error .linkDown), .outcome (.retryTimerFire r) (.error .linkDown)] }) ∧
    ((s.ring r).ackWait ≠ .off → ∃ t, exec (.resAckTimeout r) s = .next t ∧
      ringOnly s t r { s.ring r with ackWait := .off } ∧
      t = { s with rings := t.rings, history := s.history ++ [.outcome (.resAckTimeout r) .ok] })

/-- 42_ring.md R171: in BOOT and DLOAD every data-path operation sets the refusal mark and does nothing else; the history
records the mark (log entries 14, 16). -/
def Obligations.BootAndDloadRefuseTheDataPath : Prop :=
  ∀ (s : State) (ch : ChanId) (p : Bytes) (ctl : Option Ctl) (r : RingId) (rc : RingCfg),
    s.mode = .boot ∨ s.mode = .dload → s.cfg.ring? r = some rc → s.cfg.fits = true →
    ∀ i ∈ [Instr.txEnqueue ch p ctl, .xmit r, .rxDrain r, .mbxReqAck r, .mbxResAck r] ++
        (if (s.ring r).retry = .off then [] else [.retryTimerFire r]) ++
        (if (s.ring r).ackWait = .off then [] else [.resAckTimeout r]),
      exec i s = .next { s with refused := true, history := s.history ++ [.outcome i .refused] }

/-- 44_link_control.md R266: a configuration that asks for SIPC4 framing is refused at the first operation that would encode or decode
it: TX_ENQUEUE on a channel that carries data, and RX_DRAIN, each in IPC mode (log entry 24). The recorded entry `refused`,
and that HOST gets no Result, are log entry 14. -/
def Obligations.Sipc4FramingIsRefused : Prop :=
  ∀ (s : State) (ch : ChanId) (p : Bytes) (ctl : Option Ctl) (r : RingId) (rc : RingCfg) (cc : ChanCfg),
    s.cfg.framing = .sipc4 → s.mode = .ipc → s.cfg.fits = true →
    (s.cfg.chan? ch = some cc → cc.kind ≠ .cmd → exec (.txEnqueue ch p ctl) s = .next { s with
      refused := true, history := s.history ++ [.outcome (.txEnqueue ch p ctl) .refused] }) ∧
    (s.cfg.ring? r = some rc → exec (.rxDrain r) s = .next { s with
      refused := true, history := s.history ++ [.outcome (.rxDrain r) .refused] })

/-- 42_ring.md R172: in IPC mode TX_ENQUEUE refuses an unknown or CMD channel, a frame that cannot be encoded or can never fit,
and a full queue, in that order; otherwise the frame joins the queue of the channel's ring. -/
def Obligations.TxEnqueueQueuesTheFrameOrSaysWhy : Prop :=
  ∀ (ch : ChanId) (p : Bytes) (ctl : Option Ctl) (s : State), s.mode = .ipc → s.cfg.framing = .sipc5 →
    let i : Instr := .txEnqueue ch p ctl
    let done : OpOutcome → Answer := fun o => .next { s with history := s.history ++ [.result i o] }
    ((∀ cc, s.cfg.chan? ch = some cc → cc.kind = .cmd) →
      exec i s = done (.error (.noSuchChannel ch))) ∧
    (∀ cc r rc, s.cfg.chan? ch = some cc → cc.kind ≠ .cmd → cc.ring = some r → s.cfg.ring? r = some rc →
      (∀ e, frameBuild ch p rc.pad ctl = .error e → exec i s = done (.error e)) ∧
      (∀ f, frameBuild ch p rc.pad ctl = .ok f →
        (rc.txSize - 1 < f.length → exec i s = done (.error (.tooLong f.length))) ∧
        (f.length ≤ rc.txSize - 1 → (s.ring r).txq.length = s.cfg.txqDepth →
          exec i s = .next { s with
            cnt := { s.cnt with txqDrop := s.cnt.txqDrop + 1 }
            history := s.history ++ [.result i (.error (.txQueueFull ch))] }) ∧
        (f.length ≤ rc.txSize - 1 → (s.ring r).txq.length ≠ s.cfg.txqDepth →
          ∃ t, exec i s = .next t ∧ ringOnly s t r { s.ring r with txq := (s.ring r).txq ++ [f] } ∧
            t = { s with rings := t.rings, history := s.history ++ [.result i .queued] })))

/-- 42_ring.md R173, R174: GET_TX_SPACE answers the free bytes and the snapshot, or, on a magic mismatch or an index
out of range, counts and requests a recovery and answers EIO; GET_RX_USED answers the used bytes and the snapshot, or, on
an index out of range, counts and requests a recovery and answers Desync. In every mode, with no other effect. -/
def Obligations.OccupancyReadsAnswerOrEscalate : Prop :=
  ∀ (r : RingId) (rc : RingCfg) (s : State), s.cfg.ring? r = some rc → s.cfg.fits = true →
    let m := s.shm.readLe s.cfg.magicAddr 4
    let h := s.shm.readLe rc.txHead 4
    let t := s.shm.readLe rc.txTail 4
    let n := rc.txSize
    let rh := s.shm.readLe rc.rxHead 4
    let rt := s.shm.readLe rc.rxTail 4
    let rn := rc.rxSize
    (m = s.cfg.magic.toNat → h < n → t < n → ∃ free : Nat,
      (free : Int) = (n : Int) - 1 - ((h : Int) - (t : Int)) % (n : Int) ∧
      exec (.getTxSpace r) s = .next { s with
        history := s.history ++ [.result (.getTxSpace r) (.space free ⟨h, t, n⟩)] }) ∧
    (m ≠ s.cfg.magic.toNat ∨ n ≤ h ∨ n ≤ t →
      exec (.getTxSpace r) s = .next { s with
        cnt := { s.cnt with recovery := s.cnt.recovery + 1 }
        history := s.history ++
          [.recovery (.ringCorrupt r), .result (.getTxSpace r) (.error (.eio r))] }) ∧
    (rh < rn → rt < rn → ∃ used : Nat, (used : Int) = ((rh : Int) - (rt : Int)) % (rn : Int) ∧
      exec (.getRxUsed r) s = .next { s with
        history := s.history ++ [.result (.getRxUsed r) (.used used ⟨rh, rt, rn⟩)] }) ∧
    (rn ≤ rh ∨ rn ≤ rt →
      exec (.getRxUsed r) s = .next { s with
        cnt := { s.cnt with recovery := s.cnt.recovery + 1 }
        history := s.history ++
          [.recovery (.ringDesync r), .result (.getRxUsed r) (.error (.desync r))] })

/-- 42_ring.md R177 part 1 and R183: RETRY_TIMER_FIRE is Stale when not armed, in every mode. In IPC mode, XMIT on an empty queue
clears the flag and sends nothing; on a queue with a frame it starts the wake of R221. An armed RETRY_TIMER_FIRE does the
same after clearing its flag. -/
def Obligations.XmitAndRetryStartTheWake : Prop :=
  ∀ (r : RingId) (rc : RingCfg) (s : State), s.cfg.ring? r = some rc →
    let held : Pm := { s.pm with refCnt := s.pm.refCnt + 1, apStatus := true, cpWakeup := true,
                                 sleep := .off, linkoff := .off }
    let lines : List HistEvent :=
      (if s.pm.apStatus then [] else [.gpio .apStatus true]) ++
      (if s.pm.cpWakeup then [] else [.gpio .cpWakeup true])
    ((s.ring r).retry = .off → exec (.retryTimerFire r) s = .next { s with
      history := s.history ++ [.outcome (.retryTimerFire r) .stale] }) ∧
    (s.mode = .ipc → (s.ring r).txq = [] → ∃ t, exec (.xmit r) s = .next t ∧
      ringOnly s t r { s.ring r with resRequired := false } ∧
      t = { s with rings := t.rings, history := s.history ++ [.result (.xmit r) (.sent 0)] }) ∧
    (s.mode = .ipc → (s.ring r).txq ≠ [] → exec (.xmit r) s = .next { s with
      pm := held, busy := some ⟨s.cfg.pollMax, .xmit r, .host⟩, history := s.history ++ lines }) ∧
    (s.mode = .ipc → (s.ring r).retry ≠ .off → (s.ring r).txq = [] →
      ∃ t, exec (.retryTimerFire r) s = .next t ∧
        ringOnly s t r { s.ring r with retry := .off, resRequired := false } ∧
        t = { s with rings := t.rings, history := s.history ++
          [.outcome (.xmit r) (.sent 0), .outcome (.retryTimerFire r) (.sent 0)] }) ∧
    (s.mode = .ipc → (s.ring r).retry ≠ .off → (s.ring r).txq ≠ [] →
      ∃ t, exec (.retryTimerFire r) s = .next t ∧
        ringOnly s t r { s.ring r with retry := .off } ∧
        t = { s with rings := t.rings, pm := held,
                     busy := some ⟨s.cfg.pollMax, .xmit r, .retryTimer⟩,
                     history := s.history ++ lines })

/-- 42_ring.md R175, R177, R187: the poll step that completes an XMIT sends the longest prefix of the queue that fits the free
space, keeps the rest in order, writes exactly the bytes of the sent frames from TXHEAD on, with wraparound, moves
TXHEAD past them, and changes no other byte of shared memory. -/
def Obligations.XmitSendsTheLongestPrefixThatFits : Prop :=
  ∀ (r : RingId) (rc : RingCfg) (s : State) (k : Nat) (who : Requester),
    s.cfg.wf = true → s.cfg.ring? r = some rc → s.busy = some ⟨k, .xmit r, who⟩ →
    s.shm.readLe s.cfg.magicAddr 4 = s.cfg.magic.toNat →
    s.shm.readLe rc.txHead 4 < rc.txSize → s.shm.readLe rc.txTail 4 < rc.txSize →
    let h := s.shm.readLe rc.txHead 4
    let n := rc.txSize
    let free := n - 1 - (h + (n - s.shm.readLe rc.txTail 4)) % n
    ∃ t sent rest, exec .pollStep s = .next t ∧
      (s.ring r).txq = sent ++ rest ∧ (t.ring r).txq = rest ∧
      sent.flatten.length ≤ free ∧
      (∀ f q, rest = f :: q → free < sent.flatten.length + f.length) ∧
      t.shm.readLe rc.txHead 4 = (h + sent.flatten.length) % n ∧
      (∀ i, i < sent.flatten.length →
        t.shm.read (rc.txBase + (h + i) % n) = sent.flatten.getD i 0) ∧
      ∀ a, (∀ i, i < sent.flatten.length → a ≠ rc.txBase + (h + i) % n) →
        a < rc.txHead ∨ rc.txHead + 4 ≤ a → t.shm.read a = s.shm.read a

/-- 42_ring.md R177 to R179 and R223: what the completing poll step of an XMIT leaves beside shared memory. With `rest` left
in the queue the flag is set and either one REQ_ACK is sent and the wait opened, or the retry is armed; without, the
flag is cleared. The hold is given back (R224). The history holds one data notification when a byte was
written (the sub-operations' records are log entry 13). -/
def Obligations.XmitBackpressureAndNotification : Prop :=
  ∀ (r : RingId) (rc : RingCfg) (s : State) (k : Nat) (who : Requester),
    s.cfg.wf = true → s.cfg.ring? r = some rc → s.busy = some ⟨k, .xmit r, who⟩ →
    s.shm.readLe s.cfg.magicAddr 4 = s.cfg.magic.toNat →
    s.shm.readLe rc.txHead 4 < rc.txSize → s.shm.readLe rc.txTail 4 < rc.txSize →
    let h := s.shm.readLe rc.txHead 4
    let tl := s.shm.readLe rc.txTail 4
    let n := rc.txSize
    let free := n - 1 - (h + (n - tl)) % n
    ∃ t written, exec .pollStep s = .next t ∧
      let rest := (t.ring r).txq
      let asks := rest ≠ [] ∧ rc.ackRing = true ∧ (s.ring r).ackWait = .off
      let o : OpOutcome := if rest = [] then .sent written else .noSpc written
      written + rest.flatten.length = (s.ring r).txq.flatten.length ∧
      ringOnly s t r
        { txq := rest
          resRequired := decide (rest ≠ [])
          retry := if rest ≠ [] ∧ rc.ackRing = false then .armed else (s.ring r).retry
          rxAckOwed := (s.ring r).rxAckOwed
          ackWait := if asks then .armed else (s.ring r).ackWait } ∧
      t.pm = (if s.pm.refCnt ≤ 1 then
        { s.pm with refCnt := 0, sleep := .armed, sleepGen := s.pm.wakeGen }
        else { s.pm with refCnt := s.pm.refCnt - 1 }) ∧
      t = { s with busy := none, rings := t.rings, pm := t.pm, shm := t.shm, history := s.history ++
        [.outcome (.forbidSleep (.xmit r)) .ok, .outcome (.getTxSpace r) (.space free ⟨h, tl, n⟩)] ++
        (if 0 < written then [.mbxOut rc.encData] else []) ++
        (if asks then [.mbxOut rc.encReqAck] else []) ++
        [.outcome .permitSleep .ok] ++
        (match who with
         | .host => [.result (.xmit r) o]
         | .retryTimer => [.outcome (.xmit r) o, .outcome (.retryTimerFire r) o]) }

/-- 42_ring.md R181: MBX_RES_ACK ends the wait, clears the flag and arms the retry when a frame is queued, whether or not a
wait was open. -/
def Obligations.ResAckEndsTheWait : Prop :=
  ∀ (r : RingId) (rc : RingCfg) (s : State), s.mode = .ipc → s.cfg.ring? r = some rc →
    ∃ t, exec (.mbxResAck r) s = .next t ∧
      ringOnly s t r { s.ring r with
        ackWait := .off, resRequired := false,
        retry := if (s.ring r).txq = [] then (s.ring r).retry else .armed } ∧
      t = { s with rings := t.rings, history := s.history ++ [.outcome (.mbxResAck r) .ok] }

/-- 42_ring.md R182: without a wait it is Stale, in every mode. In IPC mode, on a drained ring the wait ends as with RES_ACK;
otherwise AckTimeout, with the queue and the flag kept and nothing armed. -/
def Obligations.ResAckTimeoutTellsDrainedFromStuck : Prop :=
  ∀ (r : RingId) (rc : RingCfg) (s : State), s.cfg.ring? r = some rc → s.cfg.fits = true →
    let h := s.shm.readLe rc.txHead 4
    let t := s.shm.readLe rc.txTail 4
    ((s.ring r).ackWait = .off → exec (.resAckTimeout r) s = .next { s with
      history := s.history ++ [.outcome (.resAckTimeout r) .stale] }) ∧
    (s.mode = .ipc → (s.ring r).ackWait ≠ .off → h = t → ∃ u, exec (.resAckTimeout r) s = .next u ∧
      ringOnly s u r { s.ring r with
        ackWait := .off, resRequired := false,
        retry := if (s.ring r).txq = [] then (s.ring r).retry else .armed } ∧
      u = { s with rings := u.rings, history := s.history ++ [.outcome (.resAckTimeout r) .ok] }) ∧
    (s.mode = .ipc → (s.ring r).ackWait ≠ .off → h ≠ t → ∃ u, exec (.resAckTimeout r) s = .next u ∧
      ringOnly s u r { s.ring r with ackWait := .off } ∧
      u = { s with rings := u.rings,
                   history := s.history ++ [.outcome (.resAckTimeout r) (.error (.ackTimeout r))] })

/-- 42_ring.md R185 in IPC mode, when the drain ends without a parse error: the frames are routed in order, RXTAIL stops after
the last complete frame, no other byte of shared memory changes, and an owed RES_ACK is sent. -/
def Obligations.RxDrainRoutesFramesAndAdvancesTheTail : Prop :=
  ∀ (r : RingId) (rc : RingCfg) (s : State), s.mode = .ipc → s.cfg.framing = .sipc5 → s.cfg.wf = true →
    s.cfg.ring? r = some rc → s.shm.readLe rc.rxHead 4 < rc.rxSize → s.shm.readLe rc.rxTail 4 < rc.rxSize →
    let h := s.shm.readLe rc.rxHead 4
    let tl := s.shm.readLe rc.rxTail 4
    let n := rc.rxSize
    let sp := split (Memory.ringTake rc.rxBase n s.shm tl ((h + (n - tl)) % n))
    sp.ending = .clean ∨ (∃ need, sp.ending = .partialFrame need ∧ need ≤ n - 1) →
    ∃ u t, runAll (sp.frames.map fun x => .route x.1.channelId x.2 x.1.ctl) s = .next u ∧
      exec (.rxDrain r) s = .next t ∧
      t.shm.readLe rc.rxTail 4 = (tl + sp.off) % n ∧
      (∀ a, a < rc.rxTail ∨ rc.rxTail + 4 ≤ a → t.shm.read a = s.shm.read a) ∧
      ringOnly s t r { s.ring r with rxAckOwed := false } ∧
      t = { u with shm := t.shm, rings := t.rings, history := u.history ++
        (if (s.ring r).rxAckOwed then [.mbxOut rc.encResAck] else []) ++
        [.outcome (.rxDrain r) (.drained sp.frames.length)] }

/-- 42_ring.md R185 in IPC mode, when the drain meets a malformed header or a partial frame that can never fit: the frames
before it are routed, the rest of the snapshot is discarded, both counters count, a recovery is requested, and no RES_ACK
is sent. -/
def Obligations.RxDrainOnAMalformedFrameEscalates : Prop :=
  ∀ (r : RingId) (rc : RingCfg) (s : State) (e : ParseError), s.mode = .ipc → s.cfg.framing = .sipc5 →
    s.cfg.wf = true → s.cfg.ring? r = some rc →
    s.shm.readLe rc.rxHead 4 < rc.rxSize → s.shm.readLe rc.rxTail 4 < rc.rxSize →
    let h := s.shm.readLe rc.rxHead 4
    let tl := s.shm.readLe rc.rxTail 4
    let n := rc.rxSize
    let sp := split (Memory.ringTake rc.rxBase n s.shm tl ((h + (n - tl)) % n))
    sp.ending = .malformed e ∨
      (∃ need, sp.ending = .partialFrame need ∧ n - 1 < need ∧ e = .badLength need) →
    ∃ u t, runAll (sp.frames.map fun x => .route x.1.channelId x.2 x.1.ctl) s = .next u ∧
      exec (.rxDrain r) s = .next t ∧
      t.shm.readLe rc.rxTail 4 = h ∧
      (∀ a, a < rc.rxTail ∨ rc.rxTail + 4 ≤ a → t.shm.read a = s.shm.read a) ∧
      t = { u with
        shm := t.shm
        cnt := { u.cnt with badHeader := u.cnt.badHeader + 1, recovery := u.cnt.recovery + 1 }
        history := u.history ++
          [.recovery (.ringDesync r), .outcome (.rxDrain r) (.error (.malformed e))] }

/-- 42_ring.md R185: RX_DRAIN with an index out of range requests a recovery, ends with Desync, and writes no shared memory. -/
def Obligations.RxDrainOutOfRangeIsDesync : Prop :=
  ∀ (r : RingId) (rc : RingCfg) (s : State), s.mode = .ipc → s.cfg.framing = .sipc5 → s.cfg.fits = true →
    s.cfg.ring? r = some rc →
    rc.rxSize ≤ s.shm.readLe rc.rxHead 4 ∨ rc.rxSize ≤ s.shm.readLe rc.rxTail 4 →
    exec (.rxDrain r) s = .next { s with
      cnt := { s.cnt with recovery := s.cnt.recovery + 1 }
      history := s.history ++
        [.recovery (.ringDesync r), .outcome (.rxDrain r) (.error (.desync r))] }

/-- 42_ring.md R184: MBX_REQ_ACK notes the owed RES_ACK and performs RX_DRAIN; its own outcome is that of the drain (log
entry 28). -/
def Obligations.ReqAckOwesAndDrains : Prop :=
  ∀ (r : RingId) (rc : RingCfg) (s : State), s.mode = .ipc → s.cfg.fits = true → s.cfg.ring? r = some rc →
    ∃ u t o, ringOnly s u r { s.ring r with rxAckOwed := true } ∧ u = { s with rings := u.rings } ∧
      exec (.rxDrain r) u = .next t ∧ t.history.getLast? = some (.outcome (.rxDrain r) o) ∧
      exec (.mbxReqAck r) s =
        .next { t with history := t.history ++ [.outcome (.mbxReqAck r) o] }

/-! Power management. -/

/-- 43_pm.md R221: FORBID_SLEEP takes a hold, asserts both lines, cancels both release timers and begins the poll, for HOST and
for an XMIT. -/
def Obligations.ForbidSleepHoldsAndBeginsThePoll : Prop :=
  ∀ (s : State) (o : Origin) (rc : RingCfg), (∀ r, o = .xmit r → s.cfg.ring? r = some rc) →
    exec (.forbidSleep o) s = .next { s with
      pm := { s.pm with refCnt := s.pm.refCnt + 1, apStatus := true, cpWakeup := true,
                        sleep := .off, linkoff := .off }
      busy := some ⟨s.cfg.pollMax, o, .host⟩
      history := s.history ++ (if s.pm.apStatus then [] else [.gpio .apStatus true]) ++
        (if s.pm.cpWakeup then [] else [.gpio .cpWakeup true]) }

/-- 43_pm.md R222, R223 for origin HOST: a read of the magic word ends the poll with Ok; a failed read that is not the last leaves
one read less; a failed last read gives the hold back, requests a recovery and ends with LinkNotReady. -/
def Obligations.HostPollEndsInOkOrLinkNotReady : Prop :=
  ∀ (s : State) (k : Nat) (who : Requester), s.cfg.fits = true → 1 ≤ k → s.busy = some ⟨k, .host, who⟩ →
    let live := s.shm.readLe s.cfg.magicAddr 4 = s.cfg.magic.toNat
    (live → exec .pollStep s = .next { s with
      busy := none, history := s.history ++ [.result (.forbidSleep .host) .ok] }) ∧
    (¬ live → 2 ≤ k → exec .pollStep s = .next { s with busy := some ⟨k - 1, .host, who⟩ }) ∧
    (¬ live → k = 1 → exec .pollStep s = .next { s with
      busy := none
      pm := if s.pm.refCnt ≤ 1 then
        { s.pm with refCnt := 0, sleep := .armed, sleepGen := s.pm.wakeGen }
        else { s.pm with refCnt := s.pm.refCnt - 1 }
      cnt := { s.cnt with recovery := s.cnt.recovery + 1 }
      history := s.history ++ [.outcome .permitSleep .ok, .recovery .linkNotReady,
        .result (.forbidSleep .host) (.error .linkNotReady)] })

/-- 43_pm.md R222, R223 and 42_ring.md R173, R177, for an XMIT of HOST or of the retry timer: a failed read that is not the last
leaves one read less; a failed last read gives the hold back, requests a recovery and ends the XMIT with LinkNotReady; a
poll that succeeds on a ring with an index out of range gives the hold back, requests a recovery and ends it with EIO. The
queue and shared memory are unchanged. The records of the sub-operations are the model's (log entry 13). -/
def Obligations.XmitThatCannotSendKeepsTheQueue : Prop :=
  ∀ (s : State) (k : Nat) (r : RingId) (rc : RingCfg) (who : Requester), s.cfg.fits = true → 1 ≤ k →
    s.cfg.ring? r = some rc → s.busy = some ⟨k, .xmit r, who⟩ →
    let live := s.shm.readLe s.cfg.magicAddr 4 = s.cfg.magic.toNat
    let told : OpOutcome → List HistEvent := fun o => match who with
      | .host => [.result (.xmit r) o]
      | .retryTimer => [.outcome (.xmit r) o, .outcome (.retryTimerFire r) o]
    let ended : RecoveryReason → List HistEvent → List HistEvent → Answer := fun why before after =>
      .next { s with
        busy := none
        pm := if s.pm.refCnt ≤ 1 then
          { s.pm with refCnt := 0, sleep := .armed, sleepGen := s.pm.wakeGen }
          else { s.pm with refCnt := s.pm.refCnt - 1 }
        cnt := { s.cnt with recovery := s.cnt.recovery + 1 }
        history := s.history ++ before ++ [.recovery why] ++ after }
    (¬ live → 2 ≤ k → exec .pollStep s = .next { s with busy := some ⟨k - 1, .xmit r, who⟩ }) ∧
    (¬ live → k = 1 → exec .pollStep s = ended .linkNotReady [.outcome .permitSleep .ok]
      (.outcome (.forbidSleep (.xmit r)) (.error .linkNotReady) :: told (.error .linkNotReady))) ∧
    (live → rc.txSize ≤ s.shm.readLe rc.txHead 4 ∨ rc.txSize ≤ s.shm.readLe rc.txTail 4 →
      exec .pollStep s = ended (.ringCorrupt r) [.outcome (.forbidSleep (.xmit r)) .ok]
        ([.outcome (.getTxSpace r) (.error (.eio r)), .outcome .permitSleep .ok] ++
          told (.error (.eio r))))

/-- 43_pm.md R224: PERMIT_SLEEP gives one hold back; at 0, also from 0, it clamps and (re)arms the sleep timer; the lines are
not touched. -/
def Obligations.PermitSleepDecrementsAndArmsAtZero : Prop :=
  ∀ s : State,
    (∀ n, s.pm.refCnt = n + 2 → exec .permitSleep s = .next { s with
      pm := { s.pm with refCnt := n + 1 }
      history := s.history ++ [.result .permitSleep .ok] }) ∧
    (s.pm.refCnt = 1 ∨ s.pm.refCnt = 0 → exec .permitSleep s = .next { s with
      pm := { s.pm with refCnt := 0, sleep := .armed, sleepGen := s.pm.wakeGen }
      history := s.history ++ [.result .permitSleep .ok] })

/-- 43_pm.md R226: SLEEP_TIMER_FIRE is Stale when not armed; it reschedules while a hold, a newer wake edge or a set
res_required flag stands; otherwise it releases cp_wakeup and arms the link-off timer. -/
def Obligations.SleepTimerReleasesOrReschedules : Prop :=
  ∀ s : State,
    let blocked := 0 < s.pm.refCnt ∨ s.pm.wakeGen ≠ s.pm.sleepGen ∨
      ∃ rc ∈ s.cfg.rings, (s.ring rc.id).resRequired = true
    (s.pm.sleep = .off → exec .sleepTimerFire s = .next { s with
      history := s.history ++ [.outcome .sleepTimerFire .stale] }) ∧
    (s.pm.sleep ≠ .off → blocked → exec .sleepTimerFire s = .next { s with
      pm := { s.pm with sleep := .armed, sleepGen := s.pm.wakeGen }
      history := s.history ++ [.outcome .sleepTimerFire .rescheduled] }) ∧
    (s.pm.sleep ≠ .off → ¬ blocked → exec .sleepTimerFire s = .next { s with
      pm := { s.pm with sleep := .off, cpWakeup := false, linkoff := .armed }
      history := s.history ++ (if s.pm.cpWakeup then [.gpio .cpWakeup false] else []) ++
        [.outcome .sleepTimerFire .released] })

/-- 43_pm.md R227: LINKOFF_TIMER_FIRE is Stale when not armed, Cancelled when the link is held again, rescheduled while an input
line is high, and otherwise releases ap_status. -/
def Obligations.LinkoffTimerReleasesApStatus : Prop :=
  ∀ s : State,
    let held := 0 < s.pm.refCnt ∨ s.pm.cpWakeup = true
    let high := s.cpStatus = true ∨ s.apWakeup = true
    (s.pm.linkoff = .off → exec .linkoffTimerFire s = .next { s with
      history := s.history ++ [.outcome .linkoffTimerFire .stale] }) ∧
    (s.pm.linkoff ≠ .off → held → exec .linkoffTimerFire s = .next { s with
      pm := { s.pm with linkoff := .off }
      history := s.history ++ [.outcome .linkoffTimerFire .cancelled] }) ∧
    (s.pm.linkoff ≠ .off → ¬ held → high → exec .linkoffTimerFire s = .next { s with
      pm := { s.pm with linkoff := .armed }
      history := s.history ++ [.outcome .linkoffTimerFire .rescheduled] }) ∧
    (s.pm.linkoff ≠ .off → ¬ held → ¬ high → exec .linkoffTimerFire s = .next { s with
      pm := { s.pm with linkoff := .off, apStatus := false }
      history := s.history ++ (if s.pm.apStatus then [.gpio .apStatus false] else []) ++
        [.outcome .linkoffTimerFire .released] })

/-- 43_pm.md R228, R229: a rising wake edge counts, cancels both release timers, asserts ap_status and, without a holder, restarts
the sleep timer; a falling one changes nothing. A falling cp_status edge re-arms the link-off timer in AWAKE_IDLE
with ap_status up, and nothing else does anything. -/
def Obligations.EdgesUpdateTheHandshake : Prop :=
  ∀ s : State,
    exec (.apWakeupEdge true) s = .next { s with
      pm := { s.pm with wakeGen := s.pm.wakeGen + 1, linkoff := .off, apStatus := true,
                        sleep := if s.pm.refCnt = 0 then .armed else .off,
                        sleepGen := if s.pm.refCnt = 0 then s.pm.wakeGen + 1 else s.pm.sleepGen }
      history := s.history ++ (if s.pm.apStatus then [] else [.gpio .apStatus true]) ++
        [.outcome (.apWakeupEdge true) .ok] } ∧
    exec (.apWakeupEdge false) s = .next { s with
      history := s.history ++ [.outcome (.apWakeupEdge false) .ok] } ∧
    exec (.cpStatusEdge true) s = .next { s with
      history := s.history ++ [.outcome (.cpStatusEdge true) .ok] } ∧
    exec (.cpStatusEdge false) s = .next { s with
      pm := { s.pm with linkoff :=
        if s.pm.named = .awakeIdle ∧ s.pm.cpWakeup = false then .armed else s.pm.linkoff }
      history := s.history ++ [.outcome (.cpStatusEdge false) .ok] }

/-! Link control. -/

/-- 44_link_control.md R260, R261: a command value is forwarded in every mode; a data value outside IPC is counted and ignored (OFFLINE,
ULOAD) or refused (BOOT, DLOAD; the recorded entry is log entry 14), and shared memory is not read. A data value whose decode names a ring outside `P_RINGS`
records RemoteDutyBroken there as well (60_exceptions.md R290, log entry 20). -/
def Obligations.MbxIrqForwardsCommandsAndIgnoresNonIpcData : Prop :=
  ∀ (v : U16) (s : State),
    let cmd := ∃ w ∈ s.cfg.cmdRows, v &&& w.mask = w.value
    let judged : FaultSet :=
      if s.cfg.mbxStray v then { s.fault with remoteDutyBroken := true } else s.fault
    (cmd → exec (.mbxIrq v) s = .next { s with
      history := s.history ++ [.cmdOut v, .outcome (.mbxIrq v) .forwarded] }) ∧
    (¬ cmd → s.mode = .offline ∨ s.mode = .uload → exec (.mbxIrq v) s = .next { s with
      fault := judged
      cnt := { s.cnt with ignoredIrq := s.cnt.ignoredIrq + 1 }
      history := s.history ++ [.outcome (.mbxIrq v) .ignored] }) ∧
    (¬ cmd → s.mode = .boot ∨ s.mode = .dload → exec (.mbxIrq v) s = .next { s with
      fault := judged
      refused := true
      history := s.history ++ [.outcome (.mbxIrq v) .refused] })

/-- 44_link_control.md R260: a data value in IPC mode performs the ring operations of its decode, ring by ring in list order, DATA, REQ_ACK,
RES_ACK within a ring, each exactly as it would run on its own; a decoded ring outside `P_RINGS` records RemoteDutyBroken
(60_exceptions.md R290, log entry 20). -/
def Obligations.MbxIrqDispatchIsTheListedOperations : Prop :=
  ∀ (v : U16) (s : State), s.cfg.wf = true → s.mode = .ipc → s.cfg.isCmd v = false →
    ∃ t, runAll (mbxWork s.cfg v) { s with
        fault := if s.cfg.mbxStray v then { s.fault with remoteDutyBroken := true } else s.fault } = .next t ∧
      exec (.mbxIrq v) s = .next { t with history := t.history ++ [.outcome (.mbxIrq v) .dispatched] }

/-- 44_link_control.md R262, R263: SET_MODE changes the mode and nothing else, from any mode to any mode; FLUSH_TX empties the four TX
fields of every ring, in every mode, and writes nothing else. -/
def Obligations.SetModeAndFlushTx : Prop :=
  ∀ (m : LinkMode) (s : State),
    exec (.setMode m) s = .next { s with
      mode := m, history := s.history ++ [.result (.setMode m) .ok] } ∧
    ∃ t, exec .flushTx s = .next t ∧
      (∀ r, t.ring r = if (s.cfg.ring? r).isSome then
        ⟨[], false, .off, (s.ring r).rxAckOwed, .off⟩ else s.ring r) ∧
      t = { s with rings := t.rings, history := s.history ++ [.result .flushTx .ok] }

/-! The whole machine. -/

/-- 10_state.md R49, 70_reset_and_hazards.md R310: the reset values, for every configuration, every shared memory and any levels of the input
lines, which stay as the launch gives them; no RX byte counts as written (log entry 29); and the fixed reset state is one
of these (log entries 1, 4, 5). -/
def Obligations.ResetValues : Prop :=
  (∀ (c : Config) (m : Memory) (a b : Bool),
    let s := State.resetWith c m a b
    s.inbox = [] ∧ s.busy = none ∧ s.mode = .offline ∧
    (∀ r, (s.ring r).txq = [] ∧ (s.ring r).resRequired = false ∧ (s.ring r).retry = .off ∧
      (s.ring r).rxAckOwed = false ∧ (s.ring r).ackWait = .off) ∧
    (∀ ch, (s.chan ch).rxq = [] ∧ ∀ sid, (s.chan ch).session sid = none) ∧
    s.pm.refCnt = 0 ∧ s.pm.apStatus = false ∧ s.pm.cpWakeup = false ∧
    s.pm.sleep = .off ∧ s.pm.linkoff = .off ∧ s.pm.wakeGen = 0 ∧ s.pm.sleepGen = 0 ∧
    (∀ k, s.cnt.get k = 0) ∧ s.refused = false ∧
    s.fault.remoteDutyBroken = false ∧ s.fault.hostDutyBroken = false ∧
    s.history = [] ∧ s.shm = m ∧ s.apWakeup = a ∧ s.cpStatus = b ∧ s.rxWritten = []) ∧
  ∃ c m a b, State.reset = State.resetWith c m a b

/-- The invariants hold at reset, for every configuration and every shared memory in canonical form within `SHM_SIZE`. -/
def Obligations.InvariantsHoldAtReset : Prop :=
  ∀ (c : Config) (m : Memory) (a b : Bool), m.wf → (∀ x ∈ m, x.1 < c.shmSize) →
    let s := State.resetWith c m a b
    s.canonical ∧ s.shmInside ∧ s.pmSafe ∧ s.queuesBounded ∧ s.recoveriesCounted ∧ s.linesRecorded ∧ s.clean

/-- Every step keeps shared memory and the state's tables in canonical form, and, in a well-formed configuration, every
listed byte inside shared memory (20_memory.md R61, R76). -/
def Obligations.StepKeepsTheCanonicalForm : Prop :=
  ∀ s t : State, step s = .next t →
    (s.canonical → t.canonical) ∧ (s.cfg.wf = true → s.shmInside → t.shmInside)

/-- 43_pm.md R230, R220: every step keeps the wake invariant: while a hold is open cp_wakeup is asserted. In a state of the
invariant the named state AWAKE_IDLE does not occur, and ASLEEP is exactly: no holder, no timer armed. -/
def Obligations.StepKeepsHoldersAwake : Prop :=
  ∀ s t : State, s.pmSafe → step s = .next t → t.pmSafe ∧ t.pm.named ≠ .awakeIdle ∧
    (t.pm.named = .asleep ↔
      t.pm.refCnt = 0 ∧ t.pm.sleep.isArmed = false ∧ t.pm.linkoff.isArmed = false)

/-- 43_pm.md R230: cp_wakeup goes from 1 to 0 only in a BLK turn that performs SLEEP_TIMER_FIRE, and only when ref_cnt = 0. -/
def Obligations.CpWakeupFallsOnlyInTheSleepTimer : Prop :=
  ∀ s t : State, step s = .next t → s.pm.cpWakeup = true → t.pm.cpWakeup = false →
    s.pm.refCnt = 0 ∧ s.busy = none ∧ s.inbox.head? = some .sleepTimerFire ∧
    (s.schedule = [] ∨ s.schedule.head? = some .blk)

/-- 42_ring.md R188: a BLK turn that changes a byte of a ring's TX data or of its TXHEAD word is the poll step that completes an XMIT
of that ring, with the magic word read live; in a state of the wake invariant cp_wakeup is asserted and a hold is
open. -/
def Obligations.NoTxWithoutWake : Prop :=
  ∀ (s t : State) (rc : RingCfg) (a : Nat), s.cfg.wf = true → rc ∈ s.cfg.rings → step s = .next t →
    (s.schedule = [] ∨ s.schedule.head? = some .blk) →
    ((rc.txBase ≤ a ∧ a < rc.txBase + rc.txSize) ∨ (rc.txHead ≤ a ∧ a < rc.txHead + 4)) →
    t.shm.read a ≠ s.shm.read a →
    (∃ k who, s.busy = some ⟨k, .xmit rc.id, who⟩) ∧
    s.shm.readLe s.cfg.magicAddr 4 = s.cfg.magic.toNat ∧
    (s.pmSafe → s.pm.cpWakeup = true ∧ 1 ≤ s.pm.refCnt)

/-- Every step keeps the queues within their bounds and every queued frame within its ring (10_state.md R25, R29, 42_ring.md
R172). -/
def Obligations.StepKeepsTheQueuesBounded : Prop :=
  ∀ s t : State, s.cfg.wf = true → s.queuesBounded → step s = .next t → t.queuesBounded

/-- 20_memory.md R63, R66: while no broken duty of the CP is recorded, every step keeps every index word below its ring's size. -/
def Obligations.StepKeepsTheIndicesInRange : Prop :=
  ∀ s t : State, s.cfg.wf = true → s.indicesInRange → step s = .next t →
    t.fault.remoteDutyBroken = false → t.indicesInRange

/-- 44_link_control.md R264: every step keeps cnt_recovery equal, modulo 2^32, to the number of recovery requests emitted. -/
def Obligations.StepCountsEveryRecoveryRequest : Prop :=
  ∀ s t : State, s.recoveriesCounted → step s = .next t → t.recoveriesCounted

/-- 20_memory.md R67, 43_pm.md: every step keeps each output line at the level of its last Gpio event. -/
def Obligations.StepRecordsEveryLineChange : Prop :=
  ∀ s t : State, s.linesRecorded → step s = .next t → t.linesRecorded

/-- 10_state.md R48: a step only appends to the history, and the history is read for nothing: with another history before it, the
step appends the same entries and leaves the same state. -/
def Obligations.HistoryIsAppendedAndNeverRead : Prop :=
  ∀ s t : State, step s = .next t → ∃ new : List HistEvent,
    t.history = s.history ++ new ∧
    ∀ h : List HistEvent, step { s with history := h } = .next { t with history := h ++ new }

/-- 10_state.md R42, R43, 00_scope.md R6: no step clears the refusal mark, removes a fault reason or changes the configuration; the
mode changes only by SET_MODE. -/
def Obligations.MarksAreStickyAndTheConfigurationFixed : Prop :=
  ∀ s t : State, step s = .next t →
    t.cfg = s.cfg ∧ (s.refused = true → t.refused = true) ∧
    (s.fault.remoteDutyBroken = true → t.fault.remoteDutyBroken = true) ∧
    (s.fault.hostDutyBroken = true → t.fault.hostDutyBroken = true) ∧
    (t.mode ≠ s.mode → s.busy = none ∧ s.inbox.head? = some (.setMode t.mode))

/-- In a well-formed configuration no operation stops the machine: exec answers a next state for every instruction and
every state, so ordinary data never ends a run. -/
def Obligations.NoOperationStopsTheMachine : Prop :=
  ∀ (i : Instr) (s : State), s.cfg.wf = true → ∃ t, exec i s = .next t

/-- 60_exceptions.md R290: an operand outside its type records the broken duty: of HOST for a ring of its request, of the CP for a
ring of a mailbox pair; the operation does nothing else. A codec function and a frame form still answer, a frame form what
PARSE_HEADER of its bytes answers (log entries 12, 19). That the breach is recorded when BLK performs the event, and not when
HOST appends it, is log entry 32. -/
def Obligations.IllTypedOperandsAreRecorded : Prop :=
  (∀ (s : State) (r : RingId) (cfg : Byte), s.cfg.ring? r = none →
    (∀ i ∈ [Instr.getTxSpace r, .getRxUsed r, .xmit r, .forbidSleep (.xmit r)],
      exec i s = .next { s with fault := { s.fault with hostDutyBroken := true } }) ∧
    (∀ i ∈ [Instr.rxDrain r, .mbxReqAck r, .mbxResAck r],
      exec i s = .next { s with fault := { s.fault with remoteDutyBroken := true } }) ∧
    (∀ i ∈ [Instr.retryTimerFire r, .resAckTimeout r],
      exec i s = .next { s with history := s.history ++ [.outcome i .stale] }) ∧
    (cfg.getLsbD 7 = false → exec (.headerLen cfg) s = .next { s with
      fault := { s.fault with hostDutyBroken := true }
      history := s.history ++ [.result (.headerLen cfg) (.number
        (if cfg.getLsbD 5 = false then 4 else if cfg.getLsbD 4 = true then 5 else 6))] })) ∧
  (∀ (s : State) (hdr : Hdr), hdr.wf = false → exec (.totalFrameLen hdr) s = .next { s with
    fault := { s.fault with hostDutyBroken := true }
    history := s.history ++ [.result (.totalFrameLen hdr) (.number
      (hdr.frameLen + if hdr.hasPadding then (4 - hdr.frameLen % 4) % 4 else 0))] }) ∧
  ∀ (s : State) (cfg : Byte) (ch : ChanId) (len : U16) (len32 : U32) (ctl : Byte) (body : Bytes),
    ∀ x ∈ [(Instr.sipc5Hdr4 cfg ch len body, hdr4Bytes cfg ch len body),
        (.sipc5Hdr5Ctl cfg ch len ctl body, hdr5Bytes cfg ch len ctl body),
        (.sipc5Hdr6Ext cfg ch len32 body, hdr6Bytes cfg ch len32 body),
        (.sipc5BadConfig cfg, [cfg])],
      x.1.wf s.cfg = false → ∃ o,
        exec (.parseHeader x.2) s =
          .next { s with history := s.history ++ [.result (.parseHeader x.2) o] } ∧
        exec x.1 s = .next { s with
          fault := { s.fault with hostDutyBroken := true }
          history := s.history ++ [.result x.1 o] }
end

