-- ==== Sys2Proof/Laws/SMap.lean ====
section
/-! SUPPORT. The laws of sparse tables: read after write, the canonical form is kept, equal tables are equal lists. -/

namespace Sys2Proof.Machine

variable {β : Type}

@[simp] theorem SMap.get_nil (d : β) (k : Nat) : SMap.get d [] k = d := rfl

theorem SMap.get_cons (d : β) (a : Nat) (v : β) (m : SMap β) (k : Nat) :
    SMap.get d ((a, v) :: m) k = if a = k then v else SMap.get d m k := rfl

theorem SMap.get_insert (d : β) (m : SMap β) (k j : Nat) (v : β) :
    SMap.get d (SMap.insert m k v) j = if k = j then v else SMap.get d m j := by
  induction m with
  | nil => rfl
  | cons c m ih =>
    obtain ⟨a, w⟩ := c
    by_cases h1 : k < a
    · simp [SMap.insert, h1, SMap.get_cons]
    · by_cases h2 : a = k
      · subst h2
        by_cases h3 : a = j <;> simp [SMap.insert, SMap.get_cons, h3]
      · simp only [SMap.insert, if_neg h1, if_neg h2, SMap.get_cons, ih]
        by_cases h3 : a = j
        · have : k ≠ j := fun h => h2 (h3.trans h.symm)
          simp [h3, this]
        · simp [h3]

theorem SMap.get_filter_ne (d : β) (m : SMap β) (k j : Nat) :
    SMap.get d (m.filter fun c => c.1 != k) j = if k = j then d else SMap.get d m j := by
  induction m with
  | nil => simp
  | cons c m ih =>
    obtain ⟨a, w⟩ := c
    by_cases h : a = k
    · subst h
      by_cases h2 : a = j <;> simp_all [SMap.get_cons]
    · have h' : (a != k) = true := by simpa using h
      rw [List.filter_cons_of_pos (by simpa using h)]
      rw [SMap.get_cons, ih, SMap.get_cons]
      by_cases h2 : k = j
      · subst h2; simp [h]
      · simp [h2]

/-- Reading after writing: the value at the key written, the old value elsewhere. -/
theorem SMap.get_put [DecidableEq β] (d : β) (m : SMap β) (k j : Nat) (v : β) :
    SMap.get d (SMap.put d m k v) j = if k = j then v else SMap.get d m j := by
  unfold SMap.put
  split
  · next h => subst h; exact SMap.get_filter_ne v m k j
  · exact SMap.get_insert d m k j v

@[simp] theorem SMap.get_put_self [DecidableEq β] (d : β) (m : SMap β) (k : Nat) (v : β) :
    SMap.get d (SMap.put d m k v) k = v := by
  simp [SMap.get_put]

theorem SMap.get_put_ne [DecidableEq β] (d : β) (m : SMap β) {k j : Nat} (v : β) (h : k ≠ j) :
    SMap.get d (SMap.put d m k v) j = SMap.get d m j := by
  simp [SMap.get_put, h]

theorem SMap.mem_insert (m : SMap β) (k : Nat) (v : β) (c : Nat × β) (h : c ∈ SMap.insert m k v) :
    c = (k, v) ∨ c ∈ m := by
  induction m with
  | nil => simpa [SMap.insert] using h
  | cons x m ih =>
    obtain ⟨a, w⟩ := x
    unfold SMap.insert at h
    split at h
    · simpa using h
    · split at h
      · rcases List.mem_cons.1 h with h | h
        · exact .inl h
        · exact .inr (List.mem_cons_of_mem _ h)
      · rcases List.mem_cons.1 h with h | h
        · exact .inr (h ▸ List.mem_cons_self)
        · exact (ih h).imp_right (List.mem_cons_of_mem _)

/-- An entry after a write is the one written or an old one. -/
theorem SMap.mem_put [DecidableEq β] (d : β) (m : SMap β) (k : Nat) (v : β) (c : Nat × β)
    (h : c ∈ SMap.put d m k v) : c = (k, v) ∨ c ∈ m := by
  unfold SMap.put at h
  split at h
  · exact .inr (List.mem_filter.1 h).1
  · exact SMap.mem_insert m k v c h

theorem SMap.insert_pairwise (m : SMap β) (k : Nat) (v : β)
    (h : m.Pairwise (fun a b => a.1 < b.1)) :
    (SMap.insert m k v).Pairwise (fun a b => a.1 < b.1) := by
  induction m with
  | nil => simp [SMap.insert]
  | cons x m ih =>
    obtain ⟨a, w⟩ := x
    rw [List.pairwise_cons] at h
    unfold SMap.insert
    split
    · next hk =>
      rw [List.pairwise_cons, List.pairwise_cons]
      refine ⟨fun c hc => ?_, h⟩
      rcases List.mem_cons.1 hc with hc | hc
      · simpa [hc] using hk
      · exact Nat.lt_trans hk (h.1 c hc)
    · next hk =>
      split
      · next he => subst he; exact List.pairwise_cons.2 h
      · next he =>
        rw [List.pairwise_cons]
        refine ⟨fun c hc => ?_, ih h.2⟩
        rcases SMap.mem_insert m k v c hc with hc | hc
        · subst hc; simp; omega
        · exact h.1 c hc

/-- A write keeps the canonical form. -/
theorem SMap.put_wf [DecidableEq β] (d : β) (m : SMap β) (k : Nat) (v : β) (h : SMap.wf d m) :
    SMap.wf d (SMap.put d m k v) := by
  refine ⟨?_, fun c hc => ?_⟩
  · unfold SMap.put
    split
    · exact h.1.filter _
    · exact SMap.insert_pairwise m k v h.1
  · unfold SMap.put at hc
    split at hc
    · exact h.2 c (List.mem_filter.1 hc).1
    · next hv =>
      rcases SMap.mem_insert m k v c hc with hc | hc
      · subst hc; exact hv
      · exact h.2 c hc

theorem SMap.nil_wf (d : β) : SMap.wf d [] := ⟨List.Pairwise.nil, by simp⟩

theorem SMap.get_of_lt (d : β) (m : SMap β) (k : Nat) (h : ∀ c ∈ m, k < c.1) : SMap.get d m k = d := by
  induction m with
  | nil => rfl
  | cons c m ih =>
    have hc := h c List.mem_cons_self
    rw [SMap.get_cons, if_neg (by omega)]
    exact ih fun c hc => h c (List.mem_cons_of_mem _ hc)

/-- Canonical tables that read alike are equal. -/
theorem SMap.ext_of_wf (d : β) (m n : SMap β) (hm : SMap.wf d m) (hn : SMap.wf d n)
    (h : ∀ k, SMap.get d m k = SMap.get d n k) : m = n := by
  induction m generalizing n with
  | nil =>
    cases n with
    | nil => rfl
    | cons c n =>
      have := h c.1
      rw [SMap.get_nil, SMap.get_cons, if_pos rfl] at this
      exact absurd this.symm (hn.2 c List.mem_cons_self)
  | cons c m ih =>
    obtain ⟨a, v⟩ := c
    have hm1 := List.pairwise_cons.1 hm.1
    cases n with
    | nil =>
      have := h a
      rw [SMap.get_nil, SMap.get_cons, if_pos rfl] at this
      exact absurd this (hm.2 (a, v) List.mem_cons_self)
    | cons e n =>
      obtain ⟨b, w⟩ := e
      have hn1 := List.pairwise_cons.1 hn.1
      have hab : a = b := by
        rcases Nat.lt_trichotomy a b with hlt | heq | hgt
        · have := h a
          rw [SMap.get_cons, if_pos rfl,
            SMap.get_of_lt d ((b, w) :: n) a (by
              intro c hc
              rcases List.mem_cons.1 hc with hc | hc
              · simpa [hc] using hlt
              · exact Nat.lt_trans hlt (hn1.1 c hc))] at this
          exact absurd this (hm.2 (a, v) List.mem_cons_self)
        · exact heq
        · have := h b
          rw [SMap.get_cons d b w n, if_pos rfl,
            SMap.get_of_lt d ((a, v) :: m) b (by
              intro c hc
              rcases List.mem_cons.1 hc with hc | hc
              · simpa [hc] using hgt
              · exact Nat.lt_trans hgt (hm1.1 c hc))] at this
          exact absurd this.symm (hn.2 (b, w) List.mem_cons_self)
      subst hab
      have hvw : v = w := by simpa [SMap.get_cons] using h a
      subst hvw
      congr 1
      refine ih n ⟨hm1.2, fun c hc => hm.2 c (List.mem_cons_of_mem _ hc)⟩
        ⟨hn1.2, fun c hc => hn.2 c (List.mem_cons_of_mem _ hc)⟩ fun k => ?_
      by_cases hk : a = k
      · subst hk
        rw [SMap.get_of_lt d m a hm1.1, SMap.get_of_lt d n a hn1.1]
      · simpa [SMap.get_cons, hk] using h k

end Sys2Proof.Machine
end

