-- ==== Sys2Proof/Laws/Memory.lean ====
section
/-! SUPPORT. The laws of shared memory: read after write, what a write leaves alone, the canonical form and the bound on
listed addresses are kept, little-endian words read back. -/

namespace Sys2Proof.Machine

theorem Memory.read_write (m : Memory) (a x : Nat) (b : Byte) :
    (m.write a b).read x = if a = x then b else m.read x :=
  SMap.get_put unlistedByte m a x b

theorem Memory.write_wf (m : Memory) (a : Nat) (b : Byte) (h : m.wf) : (m.write a b).wf :=
  SMap.put_wf unlistedByte m a b h

/-- Every listed address is below `n`. -/
def Memory.below (n : Nat) (m : Memory) : Prop := ∀ c ∈ m, c.1 < n

theorem Memory.write_below (n : Nat) (m : Memory) (a : Nat) (b : Byte) (h : m.below n) (ha : a < n) :
    (m.write a b).below n := fun c hc => by
  rcases SMap.mem_put _ _ _ _ _ hc with hc | hc
  · subst hc; exact ha
  · exact h c hc

/-! `writeBytes`. -/

theorem Memory.read_writeBytes_outside (bs : Bytes) (m : Memory) (a x : Nat)
    (h : x < a ∨ a + bs.length ≤ x) : (m.writeBytes a bs).read x = m.read x := by
  induction bs generalizing m a with
  | nil => rfl
  | cons b bs ih =>
    simp only [List.length_cons] at h
    rw [Memory.writeBytes, ih _ _ (by omega), Memory.read_write, if_neg (by omega)]

theorem Memory.read_writeBytes_inside (bs : Bytes) (m : Memory) (a i : Nat) (h : i < bs.length) :
    (m.writeBytes a bs).read (a + i) = bs[i] := by
  induction bs generalizing m a i with
  | nil => simp at h
  | cons b bs ih =>
    cases i with
    | zero =>
      rw [Memory.writeBytes, Memory.read_writeBytes_outside _ _ _ _ (by omega), Memory.read_write]
      simp
    | succ i =>
      have := ih (m.write a b) (a + 1) i (by simpa using h)
      rw [Memory.writeBytes]
      simpa [Nat.add_assoc, Nat.add_comm 1 i] using this

theorem Memory.writeBytes_wf (bs : Bytes) (m : Memory) (a : Nat) (h : m.wf) : (m.writeBytes a bs).wf := by
  induction bs generalizing m a with
  | nil => exact h
  | cons b bs ih => exact ih _ _ (m.write_wf a b h)

theorem Memory.writeBytes_below (n : Nat) (bs : Bytes) (m : Memory) (a : Nat) (h : m.below n)
    (ha : a + bs.length ≤ n) : (m.writeBytes a bs).below n := by
  induction bs generalizing m a with
  | nil => exact h
  | cons b bs ih =>
    simp only [List.length_cons] at ha
    exact ih _ _ (m.write_below n a b h (by omega)) (by omega)

theorem Memory.length_readBytes (m : Memory) (a n : Nat) : (m.readBytes a n).length = n := by
  induction n generalizing a with
  | zero => rfl
  | succ n ih => simp [Memory.readBytes, ih]

theorem Memory.readBytes_congr (m m' : Memory) (a n : Nat)
    (h : ∀ x, a ≤ x → x < a + n → m.read x = m'.read x) : m.readBytes a n = m'.readBytes a n := by
  induction n generalizing a with
  | zero => rfl
  | succ n ih =>
    rw [Memory.readBytes, Memory.readBytes, h a (by omega) (by omega),
      ih (a + 1) fun x h1 h2 => h x (by omega) (by omega)]

theorem Memory.readBytes_writeBytes_self (bs : Bytes) (m : Memory) (a : Nat) :
    (m.writeBytes a bs).readBytes a bs.length = bs := by
  induction bs generalizing m a with
  | nil => rfl
  | cons b bs ih =>
    rw [List.length_cons, Memory.readBytes, Memory.writeBytes, ih,
      Memory.read_writeBytes_outside _ _ _ _ (by omega), Memory.read_write, if_pos rfl]

/-! Little-endian numbers. -/

@[simp] theorem length_leBytes (n v : Nat) : (leBytes n v).length = n := by
  induction n generalizing v with
  | zero => rfl
  | succ n ih => simp [leBytes, ih]

theorem leNat_leBytes (n v : Nat) : leNat (leBytes n v) = v % 256 ^ n := by
  induction n generalizing v with
  | zero => simp [leBytes, leNat, Nat.mod_one]
  | succ n ih =>
    have h : 256 ^ (n + 1) = 256 * 256 ^ n := by rw [Nat.pow_succ, Nat.mul_comm]
    rw [leBytes, leNat, ih, BitVec.toNat_ofNat, h, Nat.mod_mul]

theorem leNat_lt (bs : Bytes) : leNat bs < 256 ^ bs.length := by
  induction bs with
  | nil => simp [leNat]
  | cons b bs ih =>
    have hb := b.isLt
    rw [leNat, List.length_cons, Nat.pow_succ]
    omega

theorem leBytes_leNat (bs : Bytes) : leBytes bs.length (leNat bs) = bs := by
  induction bs with
  | nil => rfl
  | cons b bs ih =>
    have hb := b.isLt
    have h1 : (b.toNat + 256 * leNat bs) / 256 = leNat bs := by omega
    have h2 : BitVec.ofNat 8 (b.toNat + 256 * leNat bs) = b := by
      apply BitVec.eq_of_toNat_eq
      rw [BitVec.toNat_ofNat]
      omega
    rw [List.length_cons, leNat, leBytes, h1, ih, h2]

theorem Memory.readLe_writeLe_self (m : Memory) (a n v : Nat) :
    (m.writeLe a n v).readLe a n = v % 256 ^ n := by
  have := Memory.readBytes_writeBytes_self (leBytes n v) m a
  rw [length_leBytes] at this
  rw [Memory.readLe, Memory.writeLe, this, leNat_leBytes]

theorem Memory.read_writeLe_outside (m : Memory) (a n v x : Nat) (h : x < a ∨ a + n ≤ x) :
    (m.writeLe a n v).read x = m.read x :=
  Memory.read_writeBytes_outside _ _ _ _ (by simpa using h)

theorem Memory.readLe_congr (m m' : Memory) (a n : Nat)
    (h : ∀ x, a ≤ x → x < a + n → m.read x = m'.read x) : m.readLe a n = m'.readLe a n := by
  rw [Memory.readLe, Memory.readLe, Memory.readBytes_congr m m' a n h]

/-- A word apart from the one written reads as before. -/
theorem Memory.readLe_writeLe_apart (m : Memory) (a n v b k : Nat) (h : b + k ≤ a ∨ a + n ≤ b) :
    (m.writeLe a n v).readLe b k = m.readLe b k :=
  Memory.readLe_congr _ _ _ _ fun x h1 h2 => Memory.read_writeLe_outside _ _ _ _ _ (by omega)

theorem Memory.readLe_lt (m : Memory) (a n : Nat) : m.readLe a n < 256 ^ n := by
  have := leNat_lt (m.readBytes a n)
  rwa [Memory.length_readBytes] at this

theorem Memory.writeLe_wf (m : Memory) (a n v : Nat) (h : m.wf) : (m.writeLe a n v).wf :=
  Memory.writeBytes_wf _ _ _ h

theorem Memory.writeLe_below (k : Nat) (m : Memory) (a n v : Nat) (h : m.below k) (ha : a + n ≤ k) :
    (m.writeLe a n v).below k :=
  Memory.writeBytes_below _ _ _ _ h (by simpa using ha)

/-! Ring copies. -/

/-- A copy into a ring writes only the ring's own bytes. -/
theorem Memory.read_ringPut_outside (base size : Nat) (hs : 0 < size) (bs : Bytes) (m : Memory) (h x : Nat)
    (hx : x < base ∨ base + size ≤ x) : (Memory.ringPut base size m h bs).read x = m.read x := by
  induction bs generalizing m h with
  | nil => rfl
  | cons b bs ih =>
    have := Nat.mod_lt h hs
    rw [Memory.ringPut, ih, Memory.read_write, if_neg (by omega)]

theorem Memory.ringPut_wf (base size : Nat) (bs : Bytes) (m : Memory) (h : Nat) (hm : m.wf) :
    (Memory.ringPut base size m h bs).wf := by
  induction bs generalizing m h with
  | nil => exact hm
  | cons b bs ih => exact ih _ _ (m.write_wf _ b hm)

theorem Memory.ringPut_below (n base size : Nat) (hs : 0 < size) (hn : base + size ≤ n) (bs : Bytes)
    (m : Memory) (h : Nat) (hm : m.below n) : (Memory.ringPut base size m h bs).below n := by
  induction bs generalizing m h with
  | nil => exact hm
  | cons b bs ih =>
    have := Nat.mod_lt h hs
    exact ih _ _ (m.write_below n _ b hm (by omega))

theorem Memory.length_ringTake (base size : Nat) (m : Memory) (t k : Nat) :
    (Memory.ringTake base size m t k).length = k := by
  induction k generalizing t with
  | zero => rfl
  | succ k ih => simp [Memory.ringTake, ih]

theorem Memory.ringTake_congr (base size : Nat) (m m' : Memory) (t k : Nat)
    (h : ∀ j, j < k → m.read (base + (t + j) % size) = m'.read (base + (t + j) % size)) :
    Memory.ringTake base size m t k = Memory.ringTake base size m' t k := by
  induction k generalizing t with
  | zero => rfl
  | succ k ih =>
    have h0 := h 0 (by omega)
    rw [Nat.add_zero] at h0
    rw [Memory.ringTake, Memory.ringTake, h0, ih (t + 1) fun j hj => by
      have := h (j + 1) (by omega)
      rwa [show t + (j + 1) = t + 1 + j by omega] at this]

/-- Two offsets below the size from one index fall on one byte only when they are the same. -/
theorem ring_index_inj (n h i j : Nat) (hi : i < n) (hj : j < n)
    (e : (h + i) % n = (h + j) % n) : i = j := by
  have h1 : (h + i) ≡ (h + j) [MOD n] := e
  have h2 : i ≡ j [MOD n] := Nat.ModEq.add_left_cancel' h h1
  rwa [Nat.ModEq, Nat.mod_eq_of_lt hi, Nat.mod_eq_of_lt hj] at h2

/-- A copy of `bs` from index `h` on leaves the bytes at the other offsets alone. -/
theorem Memory.read_ringPut_gap (base size : Nat) (bs : Bytes) (m : Memory) (h j : Nat)
    (hb : bs.length ≤ j) (hj : j < size) :
    (Memory.ringPut base size m h bs).read (base + (h + j) % size) = m.read (base + (h + j) % size) := by
  induction bs generalizing m h j with
  | nil => rfl
  | cons b bs ih =>
    simp only [List.length_cons] at hb
    cases j with
    | zero => omega
    | succ j =>
      have ih' := ih (m.write (base + h % size) b) (h + 1) j (by omega) (by omega)
      rw [show h + 1 + j = h + (j + 1) by omega] at ih'
      rw [Memory.ringPut, ih', Memory.read_write, if_neg]
      intro e
      have e' : (h + 0) % size = (h + (j + 1)) % size := by simpa using e
      have := ring_index_inj size h 0 (j + 1) (by omega) hj e'
      omega

/-- What a copy puts into a ring, the ring gives back. -/
theorem Memory.ringTake_ringPut (base size : Nat) (bs : Bytes) (m : Memory) (h : Nat)
    (hb : bs.length ≤ size) :
    Memory.ringTake base size (Memory.ringPut base size m h bs) h bs.length = bs := by
  induction bs generalizing m h with
  | nil => rfl
  | cons b bs ih =>
    simp only [List.length_cons] at hb
    have key : (Memory.ringPut base size (m.write (base + h % size) b) (h + 1) bs).read
        (base + h % size) = b := by
      cases hs : size with
      | zero => omega
      | succ n =>
        have hsize : size = n + 1 := hs
        have hgap := Memory.read_ringPut_gap base size bs (m.write (base + h % size) b) (h + 1) n
          (by omega) (by omega)
        have hidx : (h + 1 + n) % size = h % size := by
          rw [show h + 1 + n = h + size by omega, Nat.add_mod_right]
        rw [hidx] at hgap
        rw [← hs, hgap, Memory.read_write, if_pos rfl]
    rw [List.length_cons, Memory.ringTake, Memory.ringPut, key, ih _ _ (by omega)]

end Sys2Proof.Machine
end

