-- ==== Sys2Proof/Laws/Codec.lean ====
section
/-! SUPPORT. The laws of the frame codec: the header lookup, the checks of PARSE_HEADER as one equation, what a built header
parses to with any bytes behind it, and SPLIT frame by frame. -/

namespace Sys2Proof.Machine

theorem headerLen_eq (cfg : Byte) :
    headerLen cfg = if cfg.getLsbD 5 = false then 4 else if cfg.getLsbD 4 = true then 5 else 6 := by
  unfold headerLen
  cases cfg.getLsbD 5 <;> cases cfg.getLsbD 4 <;> rfl

theorem headerLen_cases (cfg : Byte) : headerLen cfg = 4 ∨ headerLen cfg = 5 ∨ headerLen cfg = 6 := by
  rw [headerLen_eq]
  split
  · exact .inl rfl
  · split
    · exact .inr (.inl rfl)
    · exact .inr (.inr rfl)

theorem calcPadding_le (n : Nat) : calcPadding n ≤ 3 := by
  unfold calcPadding
  omega

theorem leBytes_two (v : Nat) : leBytes 2 v = [BitVec.ofNat 8 v, BitVec.ofNat 8 (v / 2 ^ 8)] := by
  simp [leBytes]

theorem leBytes_four (v : Nat) : leBytes 4 v =
    [BitVec.ofNat 8 v, BitVec.ofNat 8 (v / 2 ^ 8), BitVec.ofNat 8 (v / 2 ^ 16), BitVec.ofNat 8 (v / 2 ^ 24)] := by
  simp [leBytes, Nat.div_div_eq_div_mul]

theorem ctlOfByte_ctlByte (c : Ctl) : ctlOfByte (ctlByte c) = c := by
  obtain ⟨m, sid⟩ := c
  have h := sid.isLt
  have key : (ctlByte ⟨m, sid⟩).toNat = (if m then 128 else 0) + sid.toNat := by
    rw [ctlByte, BitVec.toNat_ofNat, Nat.mod_eq_of_lt]
    cases m <;> simp <;> omega
  unfold ctlOfByte
  congr 1
  · rw [BitVec.getLsbD, key, Nat.testBit_eq_decide_div_mod_eq]
    cases m <;> simp <;> omega
  · apply BitVec.eq_of_toNat_eq
    rw [BitVec.extractLsb'_toNat, key]
    cases m <;> simp <;> omega

theorem ctlByte_ctlOfByte (b : Byte) : ctlByte (ctlOfByte b) = b := by
  have h := b.isLt
  apply BitVec.eq_of_toNat_eq
  rw [ctlByte, BitVec.toNat_ofNat, ctlOfByte, BitVec.extractLsb'_toNat, BitVec.getLsbD,
    Nat.testBit_eq_decide_div_mod_eq]
  simp only [decide_eq_true_eq, Nat.shiftRight_zero]
  split <;> omega

/-- The checks of PARSE_HEADER, on bytes that begin with a config byte. -/
theorem parseHeader_cons (cfg : Byte) (bs : Bytes) :
    parseHeader (cfg :: bs) =
      if cfg.getLsbD 7 = false then .bad (.badConfig cfg)
      else if (cfg :: bs).length < headerLen cfg then .incomplete (headerLen cfg)
      else if (readHdr cfg (cfg :: bs)).frameLen < headerLen cfg then
        .bad (.badLength (readHdr cfg (cfg :: bs)).frameLen)
      else if (cfg :: bs).length < totalFrameLen (readHdr cfg (cfg :: bs)) then
        .incomplete (totalFrameLen (readHdr cfg (cfg :: bs)))
      else .ok (readHdr cfg (cfg :: bs)) := rfl

/-- Bytes that begin with whole header bytes `hb` whose record is `H`. -/
theorem parseHeader_of_header (cfg : Byte) (hb x : Bytes) (H : Hdr) (hs : cfg.getLsbD 7 = true)
    (hl : (cfg :: hb).length = headerLen cfg) (hH : readHdr cfg (cfg :: hb ++ x) = H)
    (hf : headerLen cfg ≤ H.frameLen) :
    parseHeader (cfg :: hb ++ x) =
      if (cfg :: hb).length + x.length < totalFrameLen H then .incomplete (totalFrameLen H) else .ok H := by
  have hlen : (cfg :: (hb ++ x)).length = (cfg :: hb).length + x.length := by
    simp only [List.length_cons, List.length_append]
    omega
  rw [List.cons_append] at hH ⊢
  rw [parseHeader_cons, hH, hlen, if_neg (by simp [hs]), if_neg (by omega), if_neg (by omega)]

/-- A part of the header, from its first byte, is incomplete. -/
theorem parseHeader_of_part (cfg : Byte) (g : Bytes) (hs : cfg.getLsbD 7 = true)
    (hl : (cfg :: g).length < headerLen cfg) : parseHeader (cfg :: g) = .incomplete (headerLen cfg) := by
  rw [parseHeader_cons, if_neg (by simp [hs]), if_pos hl]

/-- The record of a built header, whatever follows it (40_codec.md R122, R126). -/
structure Built (ch : ChanId) (plen : Nat) (pad : Bool) (ctl : Option Ctl) (hb : Bytes) (H : Hdr) : Prop where
  length : hb.length = H.headerLen
  four : 4 ≤ H.headerLen
  chan : H.channelId = ch
  frame : H.frameLen = H.headerLen + plen
  padding : H.hasPadding = pad
  control : H.ctl = ctl
  extended : ctl = none → (H.isExtended = true ↔ 0xFFFF < 4 + plen)
  parse : ∀ x, parseHeader (hb ++ x) =
    if hb.length + x.length < totalFrameLen H then .incomplete (totalFrameLen H) else .ok H
  part : ∀ g rest, g ++ rest = hb → g ≠ [] → rest ≠ [] → parseHeader g = .incomplete H.headerLen



theorem Built.of_bytes (ch : ChanId) (plen : Nat) (pad : Bool) (ctl : Option Ctl) (cfg : Byte) (hb : Bytes) (H : Hdr)
    (hs : cfg.getLsbD 7 = true) (hl : (cfg :: hb).length = headerLen cfg)
    (hH : ∀ x, readHdr cfg (cfg :: hb ++ x) = H) (hc : H.channelId = ch)
    (hf : H.frameLen = headerLen cfg + plen) (hp : cfg.getLsbD 6 = pad) (hctl : H.ctl = ctl)
    (hx : ctl = none → (H.isExtended = true ↔ 0xFFFF < 4 + plen)) :
    Built ch plen pad ctl (cfg :: hb) H := by
  have hhl : H.headerLen = headerLen cfg := by rw [← hH []]; rfl
  have hpad : H.hasPadding = cfg.getLsbD 6 := by rw [← hH []]; rfl
  have h4 := headerLen_cases cfg
  refine ⟨by omega, by omega, hc, by omega, by rw [hpad, hp], hctl, hx,
    fun x => parseHeader_of_header cfg hb x H hs hl (hH x) (by omega), fun g rest e hg hr => ?_⟩
  cases g with
  | nil => exact absurd rfl hg
  | cons a g =>
    have e' : a = cfg ∧ g ++ rest = hb := by simpa using e
    obtain ⟨rfl, rfl⟩ := e'
    have hr' : 0 < rest.length := List.length_pos_iff.mpr hr
    rw [hhl]
    refine parseHeader_of_part a g hs ?_
    rw [← hl]
    simp only [List.length_cons, List.length_append]
    omega

/-- What BUILD_HEADER writes, PARSE_HEADER reads (40_codec.md R122, R126). -/
theorem buildHeader_built (ch : ChanId) (plen : Nat) (pad : Bool) (ctl : Option Ctl) (hb : Bytes)
    (h : buildHeader ch plen pad ctl = .ok hb) : ∃ H, Built ch plen pad ctl hb H := by
  unfold buildHeader at h
  split at h
  · next c =>
    split at h
    · simp at h
    · next hle =>
      simp only [Except.ok.injEq, List.cons_append, List.nil_append, leBytes_two] at h
      subst h
      refine ⟨⟨ch, 5 + plen, 5, true, true, pad, some c⟩, Built.of_bytes _ _ _ _ _ _ _
        (by cases pad <;> decide) (by cases pad <;> rfl) (fun x => ?_) rfl
        (by cases pad <;> rfl) (by cases pad <;> decide) rfl (by simp)⟩
      have hv : leNat [BitVec.ofNat 8 (5 + plen), BitVec.ofNat 8 ((5 + plen) / 2 ^ 8)] = 5 + plen := by
        rw [← leBytes_two, leNat_leBytes, Nat.mod_eq_of_lt (by omega)]
      cases pad
      · simp [readHdr, padBit, headerLen, ctlOfByte_ctlByte]
        simpa using hv
      · simp [readHdr, padBit, headerLen, ctlOfByte_ctlByte]
        simpa using hv
  · split at h
    · next hle =>
      simp only [Except.ok.injEq, List.cons_append, List.nil_append, leBytes_two] at h
      subst h
      refine ⟨⟨ch, 4 + plen, 4, false, false, pad, none⟩, Built.of_bytes _ _ _ _ _ _ _
        (by cases pad <;> decide) (by cases pad <;> rfl) (fun x => ?_) rfl
        (by cases pad <;> rfl) (by cases pad <;> decide) rfl (fun _ => by simp; omega)⟩
      have hv : leNat [BitVec.ofNat 8 (4 + plen), BitVec.ofNat 8 ((4 + plen) / 2 ^ 8)] = 4 + plen := by
        rw [← leBytes_two, leNat_leBytes, Nat.mod_eq_of_lt (by omega)]
      cases pad
      · simp [readHdr, padBit, headerLen]
        simpa using hv
      · simp [readHdr, padBit, headerLen]
        simpa using hv
    · next hgt =>
      split at h
      · simp at h
      · next hle =>
        simp only [Except.ok.injEq, List.cons_append, List.nil_append, leBytes_four] at h
        subst h
        refine ⟨⟨ch, 6 + plen, 6, true, false, pad, none⟩, Built.of_bytes _ _ _ _ _ _ _
          (by cases pad <;> decide) (by cases pad <;> rfl) (fun x => ?_) rfl
          (by cases pad <;> rfl) (by cases pad <;> decide) rfl (fun _ => by simp; omega)⟩
        have hv : leNat [BitVec.ofNat 8 (6 + plen), BitVec.ofNat 8 ((6 + plen) / 2 ^ 8),
            BitVec.ofNat 8 ((6 + plen) / 2 ^ 16), BitVec.ofNat 8 ((6 + plen) / 2 ^ 24)] = 6 + plen := by
          rw [← leBytes_four, leNat_leBytes, Nat.mod_eq_of_lt (by omega)]
        cases pad
        · simp [readHdr, padBit, headerLen]
          simpa using hv
        · simp [readHdr, padBit, headerLen]
          simpa using hv

/-! SPLIT. -/

/-- PARSE_HEADER answers a record only for a whole frame, of at least 4 bytes. -/
theorem parseHeader_ok (bs : Bytes) (H : Hdr) (h : parseHeader bs = .ok H) :
    4 ≤ totalFrameLen H ∧ totalFrameLen H ≤ bs.length := by
  cases bs with
  | nil => simp [parseHeader] at h
  | cons cfg bs =>
    rw [parseHeader_cons] at h
    split at h
    · simp at h
    split at h
    · simp at h
    split at h
    · simp at h
    split at h
    · simp at h
    next h1 h2 =>
      simp only [ParseResult.ok.injEq] at h
      subst h
      have := headerLen_cases cfg
      refine ⟨?_, by omega⟩
      unfold totalFrameLen
      omega

/-- Fuel beyond the number of bytes changes nothing. -/
theorem splitFrom_fuel (n m : Nat) (bs : Bytes) (off : Nat) (hn : bs.length < n) (hm : bs.length < m) :
    splitFrom n bs off = splitFrom m bs off := by
  induction n generalizing m bs off with
  | zero => omega
  | succ n ih =>
    cases m with
    | zero => omega
    | succ m =>
      unfold splitFrom
      by_cases hb : bs = []
      · simp [hb]
      · rw [if_neg hb, if_neg hb]
        cases hp : parseHeader bs with
        | ok H =>
          have := parseHeader_ok bs H hp
          have hd : (bs.drop (totalFrameLen H)).length = bs.length - totalFrameLen H := List.length_drop
          simp only
          rw [ih m _ _ (by omega) (by omega)]
        | incomplete k => rfl
        | bad e => rfl

/-- SPLIT of a whole frame with bytes behind it: the frame, then SPLIT of the rest. -/
theorem splitFrom_frame (n : Nat) (f x : Bytes) (off : Nat) (H : Hdr) (hf : f ≠ [])
    (hp : parseHeader (f ++ x) = .ok H) (hl : f.length = totalFrameLen H) (hn : (f ++ x).length < n) :
    splitFrom n (f ++ x) off =
      { splitFrom (x.length + 1) x (off + f.length) with
        frames := (H, ((f ++ x).take H.frameLen).drop H.headerLen) ::
          (splitFrom (x.length + 1) x (off + f.length)).frames } := by
  cases n with
  | zero => omega
  | succ n =>
    have hpos : 0 < f.length := List.length_pos_iff.mpr hf
    have hne : f ++ x ≠ [] := by simp [hf]
    rw [splitFrom, if_neg hne, hp]
    simp only
    rw [← hl, List.drop_left, splitFrom_fuel n (x.length + 1) x _ ?_ (by omega)]
    simp only [List.length_append] at hn
    omega

/-- A frame FRAME_BUILD made (30_encoding.md R102): its length is its record's total, it parses with any bytes behind it, its
payload stands between the header and the padding, and a part of it is incomplete. -/
theorem frameBuild_spec (ch : ChanId) (p : Bytes) (pad : Bool) (ctl : Option Ctl) (f : Bytes)
    (h : frameBuild ch p pad ctl = .ok f) : ∃ hb H, Built ch p.length pad ctl hb H ∧
      f.length = totalFrameLen H ∧ (∀ x, parseHeader (f ++ x) = .ok H) ∧
      (∀ x, ((f ++ x).take H.frameLen).drop H.headerLen = p) ∧
      (∀ g rest, g ++ rest = f → g ≠ [] → rest ≠ [] → ∃ n, parseHeader g = .incomplete n) := by
  unfold frameBuild at h
  cases hbh : buildHeader ch p.length pad ctl with
  | error e => simp [hbh] at h
  | ok hb =>
    obtain ⟨H, B⟩ := buildHeader_built _ _ _ _ _ hbh
    simp only [hbh, Except.ok.injEq] at h
    have hlen : f.length = totalFrameLen H := by
      rw [← h, totalFrameLen, B.padding, B.frame, B.length]
      simp only [List.length_append, List.length_replicate, B.length]
    refine ⟨hb, H, B, hlen, fun x => ?_, fun x => ?_, fun g rest e hg hr => ?_⟩
    · have e : f ++ x = hb ++ (p ++ (List.replicate
          (if pad then calcPadding (hb.length + p.length) else 0) 0 ++ x)) := by
        rw [← h]; simp only [List.append_assoc]
      have hlen' : f.length + x.length = hb.length + (p ++ (List.replicate
          (if pad then calcPadding (hb.length + p.length) else 0) (0 : Byte) ++ x)).length := by
        rw [← List.length_append, e, List.length_append]
      rw [e, B.parse, if_neg (by omega)]
    · have e : f ++ x = (hb ++ p) ++ (List.replicate
          (if pad then calcPadding (hb.length + p.length) else 0) 0 ++ x) := by
        rw [← h]; simp only [List.append_assoc]
      have hl : H.frameLen = (hb ++ p).length := by rw [B.frame, List.length_append, B.length]
      rw [e, hl, List.take_left, ← B.length, List.drop_left]
    · have hgf : g.length + rest.length = f.length := by rw [← e, List.length_append]
      have hrp : 0 < rest.length := List.length_pos_iff.mpr hr
      by_cases hgl : g.length < hb.length
      · refine ⟨_, B.part g (hb.drop g.length) ?_ hg ?_⟩
        · have hpre : g <+: hb := by
            refine List.prefix_of_prefix_length_le (l₃ := f) ⟨rest, e⟩ ?_ (by omega)
            rw [← h, List.append_assoc]
            exact List.prefix_append _ _
          obtain ⟨y, rfl⟩ := hpre
          rw [List.drop_left]
        · intro h0
          have := congrArg List.length h0
          rw [List.length_drop, List.length_nil] at this
          omega
      · have hpre : hb <+: g := by
          refine List.prefix_of_prefix_length_le (l₃ := f) ?_ ⟨rest, e⟩ (by omega)
          rw [← h, List.append_assoc]
          exact List.prefix_append _ _
        obtain ⟨y, rfl⟩ := hpre
        refine ⟨totalFrameLen H, ?_⟩
        rw [List.length_append] at hgf
        rw [B.parse, if_pos (by omega)]

end Sys2Proof.Machine
end

