-- ==== Sys2Proof/Laws/State.lean ====
section
/-! SUPPORT. One lemma per field per named update of the state, so that no proof unfolds an update; and the laws of
the per-ring and per-channel state and of shared-memory words. -/

namespace Sys2Proof.Machine

/-! `State.emit`. -/

@[simp] theorem State.emit_cfg (s : State) (e : HistEvent) : (s.emit e).cfg = s.cfg := rfl
@[simp] theorem State.emit_inbox (s : State) (e : HistEvent) : (s.emit e).inbox = s.inbox := rfl
@[simp] theorem State.emit_busy (s : State) (e : HistEvent) : (s.emit e).busy = s.busy := rfl
@[simp] theorem State.emit_mode (s : State) (e : HistEvent) : (s.emit e).mode = s.mode := rfl
@[simp] theorem State.emit_rings (s : State) (e : HistEvent) : (s.emit e).rings = s.rings := rfl
@[simp] theorem State.emit_chans (s : State) (e : HistEvent) : (s.emit e).chans = s.chans := rfl
@[simp] theorem State.emit_pm (s : State) (e : HistEvent) : (s.emit e).pm = s.pm := rfl
@[simp] theorem State.emit_cnt (s : State) (e : HistEvent) : (s.emit e).cnt = s.cnt := rfl
@[simp] theorem State.emit_refused (s : State) (e : HistEvent) : (s.emit e).refused = s.refused := rfl
@[simp] theorem State.emit_fault (s : State) (e : HistEvent) : (s.emit e).fault = s.fault := rfl
@[simp] theorem State.emit_shm (s : State) (e : HistEvent) : (s.emit e).shm = s.shm := rfl
@[simp] theorem State.emit_apWakeup (s : State) (e : HistEvent) : (s.emit e).apWakeup = s.apWakeup := rfl
@[simp] theorem State.emit_cpStatus (s : State) (e : HistEvent) : (s.emit e).cpStatus = s.cpStatus := rfl
@[simp] theorem State.emit_rxWritten (s : State) (e : HistEvent) : (s.emit e).rxWritten = s.rxWritten := rfl
@[simp] theorem State.emit_schedule (s : State) (e : HistEvent) : (s.emit e).schedule = s.schedule := rfl
@[simp] theorem State.emit_ring (s : State) (e : HistEvent) (r' : RingId) : (s.emit e).ring r' = s.ring r' := by
  simp [State.ring]
@[simp] theorem State.emit_chan (s : State) (e : HistEvent) (c' : ChanId) : (s.emit e).chan c' = s.chan c' := by
  simp [State.chan]
@[simp] theorem State.emit_word (s : State) (e : HistEvent) (a' : Nat) : (s.emit e).word a' = s.word a' := by
  simp [State.word]

/-! `State.settle`. -/

@[simp] theorem State.settle_cfg (s : State) (i : Instr) (o : OpOutcome) : (s.settle i o).cfg = s.cfg := rfl
@[simp] theorem State.settle_inbox (s : State) (i : Instr) (o : OpOutcome) : (s.settle i o).inbox = s.inbox := rfl
@[simp] theorem State.settle_busy (s : State) (i : Instr) (o : OpOutcome) : (s.settle i o).busy = s.busy := rfl
@[simp] theorem State.settle_mode (s : State) (i : Instr) (o : OpOutcome) : (s.settle i o).mode = s.mode := rfl
@[simp] theorem State.settle_rings (s : State) (i : Instr) (o : OpOutcome) : (s.settle i o).rings = s.rings := rfl
@[simp] theorem State.settle_chans (s : State) (i : Instr) (o : OpOutcome) : (s.settle i o).chans = s.chans := rfl
@[simp] theorem State.settle_pm (s : State) (i : Instr) (o : OpOutcome) : (s.settle i o).pm = s.pm := rfl
@[simp] theorem State.settle_cnt (s : State) (i : Instr) (o : OpOutcome) : (s.settle i o).cnt = s.cnt := rfl
@[simp] theorem State.settle_refused (s : State) (i : Instr) (o : OpOutcome) : (s.settle i o).refused = s.refused := rfl
@[simp] theorem State.settle_fault (s : State) (i : Instr) (o : OpOutcome) : (s.settle i o).fault = s.fault := rfl
@[simp] theorem State.settle_shm (s : State) (i : Instr) (o : OpOutcome) : (s.settle i o).shm = s.shm := rfl
@[simp] theorem State.settle_apWakeup (s : State) (i : Instr) (o : OpOutcome) : (s.settle i o).apWakeup = s.apWakeup := rfl
@[simp] theorem State.settle_cpStatus (s : State) (i : Instr) (o : OpOutcome) : (s.settle i o).cpStatus = s.cpStatus := rfl
@[simp] theorem State.settle_rxWritten (s : State) (i : Instr) (o : OpOutcome) : (s.settle i o).rxWritten = s.rxWritten := rfl
@[simp] theorem State.settle_schedule (s : State) (i : Instr) (o : OpOutcome) : (s.settle i o).schedule = s.schedule := rfl
@[simp] theorem State.settle_ring (s : State) (i : Instr) (o : OpOutcome) (r' : RingId) : (s.settle i o).ring r' = s.ring r' := by
  simp [State.ring]
@[simp] theorem State.settle_chan (s : State) (i : Instr) (o : OpOutcome) (c' : ChanId) : (s.settle i o).chan c' = s.chan c' := by
  simp [State.chan]
@[simp] theorem State.settle_word (s : State) (i : Instr) (o : OpOutcome) (a' : Nat) : (s.settle i o).word a' = s.word a' := by
  simp [State.word]

/-! `State.reply`. -/

@[simp] theorem State.reply_cfg (s : State) (i : Instr) (o : OpOutcome) : (s.reply i o).cfg = s.cfg := 
  by cases o <;> rfl
@[simp] theorem State.reply_inbox (s : State) (i : Instr) (o : OpOutcome) : (s.reply i o).inbox = s.inbox := 
  by cases o <;> rfl
@[simp] theorem State.reply_busy (s : State) (i : Instr) (o : OpOutcome) : (s.reply i o).busy = s.busy := 
  by cases o <;> rfl
@[simp] theorem State.reply_mode (s : State) (i : Instr) (o : OpOutcome) : (s.reply i o).mode = s.mode := 
  by cases o <;> rfl
@[simp] theorem State.reply_rings (s : State) (i : Instr) (o : OpOutcome) : (s.reply i o).rings = s.rings := 
  by cases o <;> rfl
@[simp] theorem State.reply_chans (s : State) (i : Instr) (o : OpOutcome) : (s.reply i o).chans = s.chans := 
  by cases o <;> rfl
@[simp] theorem State.reply_pm (s : State) (i : Instr) (o : OpOutcome) : (s.reply i o).pm = s.pm := 
  by cases o <;> rfl
@[simp] theorem State.reply_cnt (s : State) (i : Instr) (o : OpOutcome) : (s.reply i o).cnt = s.cnt := 
  by cases o <;> rfl
@[simp] theorem State.reply_refused (s : State) (i : Instr) (o : OpOutcome) : (s.reply i o).refused = s.refused := 
  by cases o <;> rfl
@[simp] theorem State.reply_fault (s : State) (i : Instr) (o : OpOutcome) : (s.reply i o).fault = s.fault := 
  by cases o <;> rfl
@[simp] theorem State.reply_shm (s : State) (i : Instr) (o : OpOutcome) : (s.reply i o).shm = s.shm := 
  by cases o <;> rfl
@[simp] theorem State.reply_apWakeup (s : State) (i : Instr) (o : OpOutcome) : (s.reply i o).apWakeup = s.apWakeup := 
  by cases o <;> rfl
@[simp] theorem State.reply_cpStatus (s : State) (i : Instr) (o : OpOutcome) : (s.reply i o).cpStatus = s.cpStatus := 
  by cases o <;> rfl
@[simp] theorem State.reply_rxWritten (s : State) (i : Instr) (o : OpOutcome) : (s.reply i o).rxWritten = s.rxWritten := 
  by cases o <;> rfl
@[simp] theorem State.reply_schedule (s : State) (i : Instr) (o : OpOutcome) : (s.reply i o).schedule = s.schedule := 
  by cases o <;> rfl
@[simp] theorem State.reply_ring (s : State) (i : Instr) (o : OpOutcome) (r' : RingId) : (s.reply i o).ring r' = s.ring r' := by
  simp [State.ring]
@[simp] theorem State.reply_chan (s : State) (i : Instr) (o : OpOutcome) (c' : ChanId) : (s.reply i o).chan c' = s.chan c' := by
  simp [State.chan]
@[simp] theorem State.reply_word (s : State) (i : Instr) (o : OpOutcome) (a' : Nat) : (s.reply i o).word a' = s.word a' := by
  simp [State.word]

/-! `State.setRing`. -/

@[simp] theorem State.setRing_cfg (s : State) (r : RingId) (v : RingState) : (s.setRing r v).cfg = s.cfg := 
  rfl
@[simp] theorem State.setRing_inbox (s : State) (r : RingId) (v : RingState) : (s.setRing r v).inbox = s.inbox := 
  rfl
@[simp] theorem State.setRing_busy (s : State) (r : RingId) (v : RingState) : (s.setRing r v).busy = s.busy := 
  rfl
@[simp] theorem State.setRing_mode (s : State) (r : RingId) (v : RingState) : (s.setRing r v).mode = s.mode := 
  rfl
@[simp] theorem State.setRing_chans (s : State) (r : RingId) (v : RingState) : (s.setRing r v).chans = s.chans := 
  rfl
@[simp] theorem State.setRing_pm (s : State) (r : RingId) (v : RingState) : (s.setRing r v).pm = s.pm := 
  rfl
@[simp] theorem State.setRing_cnt (s : State) (r : RingId) (v : RingState) : (s.setRing r v).cnt = s.cnt := 
  rfl
@[simp] theorem State.setRing_refused (s : State) (r : RingId) (v : RingState) : (s.setRing r v).refused = s.refused := 
  rfl
@[simp] theorem State.setRing_fault (s : State) (r : RingId) (v : RingState) : (s.setRing r v).fault = s.fault := 
  rfl
@[simp] theorem State.setRing_history (s : State) (r : RingId) (v : RingState) : (s.setRing r v).history = s.history := 
  rfl
@[simp] theorem State.setRing_shm (s : State) (r : RingId) (v : RingState) : (s.setRing r v).shm = s.shm := 
  rfl
@[simp] theorem State.setRing_apWakeup (s : State) (r : RingId) (v : RingState) : (s.setRing r v).apWakeup = s.apWakeup := 
  rfl
@[simp] theorem State.setRing_cpStatus (s : State) (r : RingId) (v : RingState) : (s.setRing r v).cpStatus = s.cpStatus := 
  rfl
@[simp] theorem State.setRing_rxWritten (s : State) (r : RingId) (v : RingState) : (s.setRing r v).rxWritten = s.rxWritten := 
  rfl
@[simp] theorem State.setRing_schedule (s : State) (r : RingId) (v : RingState) : (s.setRing r v).schedule = s.schedule := 
  rfl
@[simp] theorem State.setRing_chan (s : State) (r : RingId) (v : RingState) (c' : ChanId) : (s.setRing r v).chan c' = s.chan c' := by
  simp [State.chan]
@[simp] theorem State.setRing_word (s : State) (r : RingId) (v : RingState) (a' : Nat) : (s.setRing r v).word a' = s.word a' := by
  simp [State.word]

/-! `State.setChan`. -/

@[simp] theorem State.setChan_cfg (s : State) (ch : ChanId) (v : ChanState) : (s.setChan ch v).cfg = s.cfg := 
  rfl
@[simp] theorem State.setChan_inbox (s : State) (ch : ChanId) (v : ChanState) : (s.setChan ch v).inbox = s.inbox := 
  rfl
@[simp] theorem State.setChan_busy (s : State) (ch : ChanId) (v : ChanState) : (s.setChan ch v).busy = s.busy := 
  rfl
@[simp] theorem State.setChan_mode (s : State) (ch : ChanId) (v : ChanState) : (s.setChan ch v).mode = s.mode := 
  rfl
@[simp] theorem State.setChan_rings (s : State) (ch : ChanId) (v : ChanState) : (s.setChan ch v).rings = s.rings := 
  rfl
@[simp] theorem State.setChan_pm (s : State) (ch : ChanId) (v : ChanState) : (s.setChan ch v).pm = s.pm := 
  rfl
@[simp] theorem State.setChan_cnt (s : State) (ch : ChanId) (v : ChanState) : (s.setChan ch v).cnt = s.cnt := 
  rfl
@[simp] theorem State.setChan_refused (s : State) (ch : ChanId) (v : ChanState) : (s.setChan ch v).refused = s.refused := 
  rfl
@[simp] theorem State.setChan_fault (s : State) (ch : ChanId) (v : ChanState) : (s.setChan ch v).fault = s.fault := 
  rfl
@[simp] theorem State.setChan_history (s : State) (ch : ChanId) (v : ChanState) : (s.setChan ch v).history = s.history := 
  rfl
@[simp] theorem State.setChan_shm (s : State) (ch : ChanId) (v : ChanState) : (s.setChan ch v).shm = s.shm := 
  rfl
@[simp] theorem State.setChan_apWakeup (s : State) (ch : ChanId) (v : ChanState) : (s.setChan ch v).apWakeup = s.apWakeup := 
  rfl
@[simp] theorem State.setChan_cpStatus (s : State) (ch : ChanId) (v : ChanState) : (s.setChan ch v).cpStatus = s.cpStatus := 
  rfl
@[simp] theorem State.setChan_rxWritten (s : State) (ch : ChanId) (v : ChanState) : (s.setChan ch v).rxWritten = s.rxWritten := 
  rfl
@[simp] theorem State.setChan_schedule (s : State) (ch : ChanId) (v : ChanState) : (s.setChan ch v).schedule = s.schedule := 
  rfl
@[simp] theorem State.setChan_ring (s : State) (ch : ChanId) (v : ChanState) (r' : RingId) : (s.setChan ch v).ring r' = s.ring r' := by
  simp [State.ring]
@[simp] theorem State.setChan_word (s : State) (ch : ChanId) (v : ChanState) (a' : Nat) : (s.setChan ch v).word a' = s.word a' := by
  simp [State.word]

/-! `State.setWord`. -/

@[simp] theorem State.setWord_cfg (s : State) (a v : Nat) : (s.setWord a v).cfg = s.cfg := 
  rfl
@[simp] theorem State.setWord_inbox (s : State) (a v : Nat) : (s.setWord a v).inbox = s.inbox := 
  rfl
@[simp] theorem State.setWord_busy (s : State) (a v : Nat) : (s.setWord a v).busy = s.busy := 
  rfl
@[simp] theorem State.setWord_mode (s : State) (a v : Nat) : (s.setWord a v).mode = s.mode := 
  rfl
@[simp] theorem State.setWord_rings (s : State) (a v : Nat) : (s.setWord a v).rings = s.rings := 
  rfl
@[simp] theorem State.setWord_chans (s : State) (a v : Nat) : (s.setWord a v).chans = s.chans := 
  rfl
@[simp] theorem State.setWord_pm (s : State) (a v : Nat) : (s.setWord a v).pm = s.pm := 
  rfl
@[simp] theorem State.setWord_cnt (s : State) (a v : Nat) : (s.setWord a v).cnt = s.cnt := 
  rfl
@[simp] theorem State.setWord_refused (s : State) (a v : Nat) : (s.setWord a v).refused = s.refused := 
  rfl
@[simp] theorem State.setWord_fault (s : State) (a v : Nat) : (s.setWord a v).fault = s.fault := 
  rfl
@[simp] theorem State.setWord_history (s : State) (a v : Nat) : (s.setWord a v).history = s.history := 
  rfl
@[simp] theorem State.setWord_apWakeup (s : State) (a v : Nat) : (s.setWord a v).apWakeup = s.apWakeup := 
  rfl
@[simp] theorem State.setWord_cpStatus (s : State) (a v : Nat) : (s.setWord a v).cpStatus = s.cpStatus := 
  rfl
@[simp] theorem State.setWord_rxWritten (s : State) (a v : Nat) : (s.setWord a v).rxWritten = s.rxWritten := 
  rfl
@[simp] theorem State.setWord_schedule (s : State) (a v : Nat) : (s.setWord a v).schedule = s.schedule := 
  rfl
@[simp] theorem State.setWord_ring (s : State) (a v : Nat) (r' : RingId) : (s.setWord a v).ring r' = s.ring r' := by
  simp [State.ring]
@[simp] theorem State.setWord_chan (s : State) (a v : Nat) (c' : ChanId) : (s.setWord a v).chan c' = s.chan c' := by
  simp [State.chan]

/-! `State.count`. -/

@[simp] theorem State.count_cfg (s : State) (c : Counter) : (s.count c).cfg = s.cfg := rfl
@[simp] theorem State.count_inbox (s : State) (c : Counter) : (s.count c).inbox = s.inbox := rfl
@[simp] theorem State.count_busy (s : State) (c : Counter) : (s.count c).busy = s.busy := rfl
@[simp] theorem State.count_mode (s : State) (c : Counter) : (s.count c).mode = s.mode := rfl
@[simp] theorem State.count_rings (s : State) (c : Counter) : (s.count c).rings = s.rings := rfl
@[simp] theorem State.count_chans (s : State) (c : Counter) : (s.count c).chans = s.chans := rfl
@[simp] theorem State.count_pm (s : State) (c : Counter) : (s.count c).pm = s.pm := rfl
@[simp] theorem State.count_refused (s : State) (c : Counter) : (s.count c).refused = s.refused := rfl
@[simp] theorem State.count_fault (s : State) (c : Counter) : (s.count c).fault = s.fault := rfl
@[simp] theorem State.count_history (s : State) (c : Counter) : (s.count c).history = s.history := rfl
@[simp] theorem State.count_shm (s : State) (c : Counter) : (s.count c).shm = s.shm := rfl
@[simp] theorem State.count_apWakeup (s : State) (c : Counter) : (s.count c).apWakeup = s.apWakeup := rfl
@[simp] theorem State.count_cpStatus (s : State) (c : Counter) : (s.count c).cpStatus = s.cpStatus := rfl
@[simp] theorem State.count_rxWritten (s : State) (c : Counter) : (s.count c).rxWritten = s.rxWritten := rfl
@[simp] theorem State.count_schedule (s : State) (c : Counter) : (s.count c).schedule = s.schedule := rfl
@[simp] theorem State.count_ring (s : State) (c : Counter) (r' : RingId) : (s.count c).ring r' = s.ring r' := by
  simp [State.ring]
@[simp] theorem State.count_chan (s : State) (c : Counter) (c' : ChanId) : (s.count c).chan c' = s.chan c' := by
  simp [State.chan]
@[simp] theorem State.count_word (s : State) (c : Counter) (a' : Nat) : (s.count c).word a' = s.word a' := by
  simp [State.word]

/-! `State.requestRecovery`. -/

@[simp] theorem State.requestRecovery_cfg (s : State) (w : RecoveryReason) : (s.requestRecovery w).cfg = s.cfg := 
  rfl
@[simp] theorem State.requestRecovery_inbox (s : State) (w : RecoveryReason) : (s.requestRecovery w).inbox = s.inbox := 
  rfl
@[simp] theorem State.requestRecovery_busy (s : State) (w : RecoveryReason) : (s.requestRecovery w).busy = s.busy := 
  rfl
@[simp] theorem State.requestRecovery_mode (s : State) (w : RecoveryReason) : (s.requestRecovery w).mode = s.mode := 
  rfl
@[simp] theorem State.requestRecovery_rings (s : State) (w : RecoveryReason) : (s.requestRecovery w).rings = s.rings := 
  rfl
@[simp] theorem State.requestRecovery_chans (s : State) (w : RecoveryReason) : (s.requestRecovery w).chans = s.chans := 
  rfl
@[simp] theorem State.requestRecovery_pm (s : State) (w : RecoveryReason) : (s.requestRecovery w).pm = s.pm := 
  rfl
@[simp] theorem State.requestRecovery_refused (s : State) (w : RecoveryReason) : (s.requestRecovery w).refused = s.refused := 
  rfl
@[simp] theorem State.requestRecovery_fault (s : State) (w : RecoveryReason) : (s.requestRecovery w).fault = s.fault := 
  rfl
@[simp] theorem State.requestRecovery_shm (s : State) (w : RecoveryReason) : (s.requestRecovery w).shm = s.shm := 
  rfl
@[simp] theorem State.requestRecovery_apWakeup (s : State) (w : RecoveryReason) : (s.requestRecovery w).apWakeup = s.apWakeup := 
  rfl
@[simp] theorem State.requestRecovery_cpStatus (s : State) (w : RecoveryReason) : (s.requestRecovery w).cpStatus = s.cpStatus := 
  rfl
@[simp] theorem State.requestRecovery_rxWritten (s : State) (w : RecoveryReason) : (s.requestRecovery w).rxWritten = s.rxWritten := 
  rfl
@[simp] theorem State.requestRecovery_schedule (s : State) (w : RecoveryReason) : (s.requestRecovery w).schedule = s.schedule := 
  rfl
@[simp] theorem State.requestRecovery_ring (s : State) (w : RecoveryReason) (r' : RingId) : (s.requestRecovery w).ring r' = s.ring r' := by
  simp [State.ring]
@[simp] theorem State.requestRecovery_chan (s : State) (w : RecoveryReason) (c' : ChanId) : (s.requestRecovery w).chan c' = s.chan c' := by
  simp [State.chan]
@[simp] theorem State.requestRecovery_word (s : State) (w : RecoveryReason) (a' : Nat) : (s.requestRecovery w).word a' = s.word a' := by
  simp [State.word]

/-! `State.refuse`. -/

@[simp] theorem State.refuse_cfg (s : State) : (s.refuse).cfg = s.cfg := rfl
@[simp] theorem State.refuse_inbox (s : State) : (s.refuse).inbox = s.inbox := rfl
@[simp] theorem State.refuse_busy (s : State) : (s.refuse).busy = s.busy := rfl
@[simp] theorem State.refuse_mode (s : State) : (s.refuse).mode = s.mode := rfl
@[simp] theorem State.refuse_rings (s : State) : (s.refuse).rings = s.rings := rfl
@[simp] theorem State.refuse_chans (s : State) : (s.refuse).chans = s.chans := rfl
@[simp] theorem State.refuse_pm (s : State) : (s.refuse).pm = s.pm := rfl
@[simp] theorem State.refuse_cnt (s : State) : (s.refuse).cnt = s.cnt := rfl
@[simp] theorem State.refuse_fault (s : State) : (s.refuse).fault = s.fault := rfl
@[simp] theorem State.refuse_history (s : State) : (s.refuse).history = s.history := rfl
@[simp] theorem State.refuse_shm (s : State) : (s.refuse).shm = s.shm := rfl
@[simp] theorem State.refuse_apWakeup (s : State) : (s.refuse).apWakeup = s.apWakeup := rfl
@[simp] theorem State.refuse_cpStatus (s : State) : (s.refuse).cpStatus = s.cpStatus := rfl
@[simp] theorem State.refuse_rxWritten (s : State) : (s.refuse).rxWritten = s.rxWritten := rfl
@[simp] theorem State.refuse_schedule (s : State) : (s.refuse).schedule = s.schedule := rfl
@[simp] theorem State.refuse_ring (s : State)  (r' : RingId) : (s.refuse).ring r' = s.ring r' := by
  simp [State.ring]
@[simp] theorem State.refuse_chan (s : State)  (c' : ChanId) : (s.refuse).chan c' = s.chan c' := by
  simp [State.chan]
@[simp] theorem State.refuse_word (s : State)  (a' : Nat) : (s.refuse).word a' = s.word a' := by
  simp [State.word]

/-! `State.addFault`. -/

@[simp] theorem State.addFault_cfg (s : State) (d : DutyReason) : (s.addFault d).cfg = s.cfg := rfl
@[simp] theorem State.addFault_inbox (s : State) (d : DutyReason) : (s.addFault d).inbox = s.inbox := rfl
@[simp] theorem State.addFault_busy (s : State) (d : DutyReason) : (s.addFault d).busy = s.busy := rfl
@[simp] theorem State.addFault_mode (s : State) (d : DutyReason) : (s.addFault d).mode = s.mode := rfl
@[simp] theorem State.addFault_rings (s : State) (d : DutyReason) : (s.addFault d).rings = s.rings := rfl
@[simp] theorem State.addFault_chans (s : State) (d : DutyReason) : (s.addFault d).chans = s.chans := rfl
@[simp] theorem State.addFault_pm (s : State) (d : DutyReason) : (s.addFault d).pm = s.pm := rfl
@[simp] theorem State.addFault_cnt (s : State) (d : DutyReason) : (s.addFault d).cnt = s.cnt := rfl
@[simp] theorem State.addFault_refused (s : State) (d : DutyReason) : (s.addFault d).refused = s.refused := rfl
@[simp] theorem State.addFault_history (s : State) (d : DutyReason) : (s.addFault d).history = s.history := rfl
@[simp] theorem State.addFault_shm (s : State) (d : DutyReason) : (s.addFault d).shm = s.shm := rfl
@[simp] theorem State.addFault_apWakeup (s : State) (d : DutyReason) : (s.addFault d).apWakeup = s.apWakeup := rfl
@[simp] theorem State.addFault_cpStatus (s : State) (d : DutyReason) : (s.addFault d).cpStatus = s.cpStatus := rfl
@[simp] theorem State.addFault_rxWritten (s : State) (d : DutyReason) : (s.addFault d).rxWritten = s.rxWritten := rfl
@[simp] theorem State.addFault_schedule (s : State) (d : DutyReason) : (s.addFault d).schedule = s.schedule := rfl
@[simp] theorem State.addFault_ring (s : State) (d : DutyReason) (r' : RingId) : (s.addFault d).ring r' = s.ring r' := by
  simp [State.ring]
@[simp] theorem State.addFault_chan (s : State) (d : DutyReason) (c' : ChanId) : (s.addFault d).chan c' = s.chan c' := by
  simp [State.chan]
@[simp] theorem State.addFault_word (s : State) (d : DutyReason) (a' : Nat) : (s.addFault d).word a' = s.word a' := by
  simp [State.word]

/-! `State.checkOperand`. -/

@[simp] theorem State.checkOperand_cfg (s : State) (b : Bool) : (s.checkOperand b).cfg = s.cfg := 
  by cases b <;> rfl
@[simp] theorem State.checkOperand_inbox (s : State) (b : Bool) : (s.checkOperand b).inbox = s.inbox := 
  by cases b <;> rfl
@[simp] theorem State.checkOperand_busy (s : State) (b : Bool) : (s.checkOperand b).busy = s.busy := 
  by cases b <;> rfl
@[simp] theorem State.checkOperand_mode (s : State) (b : Bool) : (s.checkOperand b).mode = s.mode := 
  by cases b <;> rfl
@[simp] theorem State.checkOperand_rings (s : State) (b : Bool) : (s.checkOperand b).rings = s.rings := 
  by cases b <;> rfl
@[simp] theorem State.checkOperand_chans (s : State) (b : Bool) : (s.checkOperand b).chans = s.chans := 
  by cases b <;> rfl
@[simp] theorem State.checkOperand_pm (s : State) (b : Bool) : (s.checkOperand b).pm = s.pm := 
  by cases b <;> rfl
@[simp] theorem State.checkOperand_cnt (s : State) (b : Bool) : (s.checkOperand b).cnt = s.cnt := 
  by cases b <;> rfl
@[simp] theorem State.checkOperand_refused (s : State) (b : Bool) : (s.checkOperand b).refused = s.refused := 
  by cases b <;> rfl
@[simp] theorem State.checkOperand_history (s : State) (b : Bool) : (s.checkOperand b).history = s.history := 
  by cases b <;> rfl
@[simp] theorem State.checkOperand_shm (s : State) (b : Bool) : (s.checkOperand b).shm = s.shm := 
  by cases b <;> rfl
@[simp] theorem State.checkOperand_apWakeup (s : State) (b : Bool) : (s.checkOperand b).apWakeup = s.apWakeup := 
  by cases b <;> rfl
@[simp] theorem State.checkOperand_cpStatus (s : State) (b : Bool) : (s.checkOperand b).cpStatus = s.cpStatus := 
  by cases b <;> rfl
@[simp] theorem State.checkOperand_rxWritten (s : State) (b : Bool) : (s.checkOperand b).rxWritten = s.rxWritten := 
  by cases b <;> rfl
@[simp] theorem State.checkOperand_schedule (s : State) (b : Bool) : (s.checkOperand b).schedule = s.schedule := 
  by cases b <;> rfl
@[simp] theorem State.checkOperand_ring (s : State) (b : Bool) (r' : RingId) : (s.checkOperand b).ring r' = s.ring r' := by
  simp [State.ring]
@[simp] theorem State.checkOperand_chan (s : State) (b : Bool) (c' : ChanId) : (s.checkOperand b).chan c' = s.chan c' := by
  simp [State.chan]
@[simp] theorem State.checkOperand_word (s : State) (b : Bool) (a' : Nat) : (s.checkOperand b).word a' = s.word a' := by
  simp [State.word]

/-! `State.drive`. -/

@[simp] theorem State.drive_cfg (s : State) (l : OutLine) (v : Bool) : (s.drive l v).cfg = s.cfg := 
  by unfold State.drive; split <;> rfl
@[simp] theorem State.drive_inbox (s : State) (l : OutLine) (v : Bool) : (s.drive l v).inbox = s.inbox := 
  by unfold State.drive; split <;> rfl
@[simp] theorem State.drive_busy (s : State) (l : OutLine) (v : Bool) : (s.drive l v).busy = s.busy := 
  by unfold State.drive; split <;> rfl
@[simp] theorem State.drive_mode (s : State) (l : OutLine) (v : Bool) : (s.drive l v).mode = s.mode := 
  by unfold State.drive; split <;> rfl
@[simp] theorem State.drive_rings (s : State) (l : OutLine) (v : Bool) : (s.drive l v).rings = s.rings := 
  by unfold State.drive; split <;> rfl
@[simp] theorem State.drive_chans (s : State) (l : OutLine) (v : Bool) : (s.drive l v).chans = s.chans := 
  by unfold State.drive; split <;> rfl
@[simp] theorem State.drive_cnt (s : State) (l : OutLine) (v : Bool) : (s.drive l v).cnt = s.cnt := 
  by unfold State.drive; split <;> rfl
@[simp] theorem State.drive_refused (s : State) (l : OutLine) (v : Bool) : (s.drive l v).refused = s.refused := 
  by unfold State.drive; split <;> rfl
@[simp] theorem State.drive_fault (s : State) (l : OutLine) (v : Bool) : (s.drive l v).fault = s.fault := 
  by unfold State.drive; split <;> rfl
@[simp] theorem State.drive_shm (s : State) (l : OutLine) (v : Bool) : (s.drive l v).shm = s.shm := 
  by unfold State.drive; split <;> rfl
@[simp] theorem State.drive_apWakeup (s : State) (l : OutLine) (v : Bool) : (s.drive l v).apWakeup = s.apWakeup := 
  by unfold State.drive; split <;> rfl
@[simp] theorem State.drive_cpStatus (s : State) (l : OutLine) (v : Bool) : (s.drive l v).cpStatus = s.cpStatus := 
  by unfold State.drive; split <;> rfl
@[simp] theorem State.drive_rxWritten (s : State) (l : OutLine) (v : Bool) : (s.drive l v).rxWritten = s.rxWritten := 
  by unfold State.drive; split <;> rfl
@[simp] theorem State.drive_schedule (s : State) (l : OutLine) (v : Bool) : (s.drive l v).schedule = s.schedule := 
  by unfold State.drive; split <;> rfl
@[simp] theorem State.drive_ring (s : State) (l : OutLine) (v : Bool) (r' : RingId) : (s.drive l v).ring r' = s.ring r' := by
  simp [State.ring]
@[simp] theorem State.drive_chan (s : State) (l : OutLine) (v : Bool) (c' : ChanId) : (s.drive l v).chan c' = s.chan c' := by
  simp [State.chan]
@[simp] theorem State.drive_word (s : State) (l : OutLine) (v : Bool) (a' : Nat) : (s.drive l v).word a' = s.word a' := by
  simp [State.word]

/-! `State.append`. -/

@[simp] theorem State.append_cfg (s : State) (i : Instr) : (s.append i).cfg = s.cfg := rfl
@[simp] theorem State.append_busy (s : State) (i : Instr) : (s.append i).busy = s.busy := rfl
@[simp] theorem State.append_mode (s : State) (i : Instr) : (s.append i).mode = s.mode := rfl
@[simp] theorem State.append_rings (s : State) (i : Instr) : (s.append i).rings = s.rings := rfl
@[simp] theorem State.append_chans (s : State) (i : Instr) : (s.append i).chans = s.chans := rfl
@[simp] theorem State.append_pm (s : State) (i : Instr) : (s.append i).pm = s.pm := rfl
@[simp] theorem State.append_cnt (s : State) (i : Instr) : (s.append i).cnt = s.cnt := rfl
@[simp] theorem State.append_refused (s : State) (i : Instr) : (s.append i).refused = s.refused := rfl
@[simp] theorem State.append_fault (s : State) (i : Instr) : (s.append i).fault = s.fault := rfl
@[simp] theorem State.append_history (s : State) (i : Instr) : (s.append i).history = s.history := rfl
@[simp] theorem State.append_shm (s : State) (i : Instr) : (s.append i).shm = s.shm := rfl
@[simp] theorem State.append_apWakeup (s : State) (i : Instr) : (s.append i).apWakeup = s.apWakeup := rfl
@[simp] theorem State.append_cpStatus (s : State) (i : Instr) : (s.append i).cpStatus = s.cpStatus := rfl
@[simp] theorem State.append_rxWritten (s : State) (i : Instr) : (s.append i).rxWritten = s.rxWritten := rfl
@[simp] theorem State.append_schedule (s : State) (i : Instr) : (s.append i).schedule = s.schedule := rfl
@[simp] theorem State.append_ring (s : State) (i : Instr) (r' : RingId) : (s.append i).ring r' = s.ring r' := by
  simp [State.ring]
@[simp] theorem State.append_chan (s : State) (i : Instr) (c' : ChanId) : (s.append i).chan c' = s.chan c' := by
  simp [State.chan]
@[simp] theorem State.append_word (s : State) (i : Instr) (a' : Nat) : (s.append i).word a' = s.word a' := by
  simp [State.word]

/-! `State.markRx`. -/

@[simp] theorem State.markRx_cfg (s : State) (rc : RingCfg) (on : Bool) (h k : Nat) :
    (s.markRx rc on h k).cfg = s.cfg := rfl
@[simp] theorem State.markRx_inbox (s : State) (rc : RingCfg) (on : Bool) (h k : Nat) :
    (s.markRx rc on h k).inbox = s.inbox := rfl
@[simp] theorem State.markRx_busy (s : State) (rc : RingCfg) (on : Bool) (h k : Nat) :
    (s.markRx rc on h k).busy = s.busy := rfl
@[simp] theorem State.markRx_mode (s : State) (rc : RingCfg) (on : Bool) (h k : Nat) :
    (s.markRx rc on h k).mode = s.mode := rfl
@[simp] theorem State.markRx_rings (s : State) (rc : RingCfg) (on : Bool) (h k : Nat) :
    (s.markRx rc on h k).rings = s.rings := rfl
@[simp] theorem State.markRx_chans (s : State) (rc : RingCfg) (on : Bool) (h k : Nat) :
    (s.markRx rc on h k).chans = s.chans := rfl
@[simp] theorem State.markRx_pm (s : State) (rc : RingCfg) (on : Bool) (h k : Nat) :
    (s.markRx rc on h k).pm = s.pm := rfl
@[simp] theorem State.markRx_cnt (s : State) (rc : RingCfg) (on : Bool) (h k : Nat) :
    (s.markRx rc on h k).cnt = s.cnt := rfl
@[simp] theorem State.markRx_refused (s : State) (rc : RingCfg) (on : Bool) (h k : Nat) :
    (s.markRx rc on h k).refused = s.refused := rfl
@[simp] theorem State.markRx_fault (s : State) (rc : RingCfg) (on : Bool) (h k : Nat) :
    (s.markRx rc on h k).fault = s.fault := rfl
@[simp] theorem State.markRx_history (s : State) (rc : RingCfg) (on : Bool) (h k : Nat) :
    (s.markRx rc on h k).history = s.history := rfl
@[simp] theorem State.markRx_shm (s : State) (rc : RingCfg) (on : Bool) (h k : Nat) :
    (s.markRx rc on h k).shm = s.shm := rfl
@[simp] theorem State.markRx_apWakeup (s : State) (rc : RingCfg) (on : Bool) (h k : Nat) :
    (s.markRx rc on h k).apWakeup = s.apWakeup := rfl
@[simp] theorem State.markRx_cpStatus (s : State) (rc : RingCfg) (on : Bool) (h k : Nat) :
    (s.markRx rc on h k).cpStatus = s.cpStatus := rfl
@[simp] theorem State.markRx_schedule (s : State) (rc : RingCfg) (on : Bool) (h k : Nat) :
    (s.markRx rc on h k).schedule = s.schedule := rfl
@[simp] theorem State.markRx_ring (s : State) (rc : RingCfg) (on : Bool) (h k : Nat) (r' : RingId) :
    (s.markRx rc on h k).ring r' = s.ring r' := rfl
@[simp] theorem State.markRx_chan (s : State) (rc : RingCfg) (on : Bool) (h k : Nat) (c' : ChanId) :
    (s.markRx rc on h k).chan c' = s.chan c' := rfl
@[simp] theorem State.markRx_word (s : State) (rc : RingCfg) (on : Bool) (h k a' : Nat) :
    (s.markRx rc on h k).word a' = s.word a' := rfl

/-! The changed fields. -/

@[simp] theorem State.emit_history (s : State) (e : HistEvent) :
    (s.emit e).history = s.history ++ [e] := rfl

@[simp] theorem State.settle_history (s : State) (i : Instr) (o : OpOutcome) :
    (s.settle i o).history = s.history ++ [.outcome i o] := rfl

theorem State.reply_history (s : State) (i : Instr) (o : OpOutcome) :
    (s.reply i o).history =
      s.history ++ [if o = .refused then .outcome i .refused else .result i o] := by
  cases o <;> rfl

theorem State.reply_of_ne (s : State) (i : Instr) (o : OpOutcome) (h : o ≠ .refused) :
    s.reply i o = s.emit (.result i o) := by
  cases o <;> first | rfl | exact absurd rfl h

@[simp] theorem State.count_cnt (s : State) (c : Counter) : (s.count c).cnt = s.cnt.bump c := rfl

@[simp] theorem State.requestRecovery_cnt (s : State) (w : RecoveryReason) :
    (s.requestRecovery w).cnt = s.cnt.bump .recovery := rfl

@[simp] theorem State.requestRecovery_history (s : State) (w : RecoveryReason) :
    (s.requestRecovery w).history = s.history ++ [.recovery w] := rfl

@[simp] theorem State.setWord_shm (s : State) (a v : Nat) :
    (s.setWord a v).shm = s.shm.writeLe a 4 v := rfl

@[simp] theorem State.addFault_fault (s : State) (d : DutyReason) :
    (s.addFault d).fault = s.fault.add d := rfl

@[simp] theorem State.refuse_refused (s : State) : s.refuse.refused = true := rfl

@[simp] theorem State.append_inbox (s : State) (i : Instr) : (s.append i).inbox = s.inbox ++ [i] := rfl

/-! Per-ring and per-channel state. -/

@[simp] theorem State.ring_setRing_self (s : State) (r : RingId) (v : RingState) :
    (s.setRing r v).ring r = v := by
  simp [State.ring, State.setRing]

theorem State.ring_setRing_ne (s : State) {r r' : RingId} (v : RingState) (h : r' ≠ r) :
    (s.setRing r v).ring r' = s.ring r' :=
  SMap.get_put_ne _ _ _ (Ne.symm h)

theorem State.ring_setRing (s : State) (r r' : RingId) (v : RingState) :
    (s.setRing r v).ring r' = if r = r' then v else s.ring r' :=
  SMap.get_put _ _ _ _ _

@[simp] theorem State.chan_setChan_self (s : State) (ch : ChanId) (v : ChanState) :
    (s.setChan ch v).chan ch = v := by
  simp [State.chan, State.setChan]

theorem State.chan_setChan_ne (s : State) {ch c' : ChanId} (v : ChanState) (h : c' ≠ ch) :
    (s.setChan ch v).chan c' = s.chan c' :=
  SMap.get_put_ne _ _ _ fun e => h (BitVec.eq_of_toNat_eq e.symm)

theorem ChanState.session_setSession (c : ChanState) (i j : BitVec 7) (b : Option Bytes) :
    (c.setSession i b).session j = if i = j then b else c.session j := by
  unfold ChanState.session ChanState.setSession
  rw [SMap.get_put]
  by_cases h : i = j
  · simp [h]
  · rw [if_neg h, if_neg fun e => h (BitVec.eq_of_toNat_eq e)]

@[simp] theorem ChanState.setSession_rxq (c : ChanState) (i : BitVec 7) (b : Option Bytes) :
    (c.setSession i b).rxq = c.rxq := rfl

/-! Words of shared memory. -/

theorem State.word_setWord_self (s : State) (a v : Nat) (h : v < 2 ^ 32) :
    (s.setWord a v).word a = v := by
  have := Memory.readLe_writeLe_self s.shm a 4 v
  rw [State.word, State.setWord_shm, this, Nat.mod_eq_of_lt (by simpa using h)]

theorem State.word_setWord_apart (s : State) (a v b : Nat) (h : b + 4 ≤ a ∨ a + 4 ≤ b) :
    (s.setWord a v).word b = s.word b :=
  Memory.readLe_writeLe_apart _ _ _ _ _ _ h

/-! Driving a line. -/

theorem State.drive_same (s : State) (l : OutLine) (v : Bool) (h : s.pm.line l = v) : s.drive l v = s := by
  simp [State.drive, h]

theorem Pm.setLine_same (p : Pm) (l : OutLine) : p.setLine l (p.line l) = p := by
  cases l <;> rfl

theorem Pm.line_setLine (p : Pm) (l l' : OutLine) (v : Bool) :
    (p.setLine l v).line l' = if l = l' then v else p.line l' := by
  cases l <;> cases l' <;> rfl

theorem State.drive_pm (s : State) (l : OutLine) (v : Bool) : (s.drive l v).pm = s.pm.setLine l v := by
  unfold State.drive
  split
  · next h => rw [← h, Pm.setLine_same]
  · rfl

theorem State.drive_history (s : State) (l : OutLine) (v : Bool) :
    (s.drive l v).history = if s.pm.line l = v then s.history else s.history ++ [.gpio l v] := by
  unfold State.drive
  split <;> rfl

end Sys2Proof.Machine
end

