-- ==== Sys2Proof/Laws/Ops.lean ====
section
/-! SUPPORT. What each shared operation of the block does, said once: lookups, occupancy, the timers' flags, the wake and the
release of the link, the demultiplexer's delivery, the loop of XMIT_BODY and the drain. -/

namespace Sys2Proof.Machine

/-! Lookups. -/

theorem id_of_ring? {c : Config} {r : RingId} {rc : RingCfg} (h : c.ring? r = some rc) : rc.id = r := by
  have := List.find?_some h
  simpa using this

theorem mem_of_ring? {c : Config} {r : RingId} {rc : RingCfg} (h : c.ring? r = some rc) : rc ∈ c.rings :=
  List.mem_of_find?_eq_some h

theorem ringOnly_setRing (s t : State) (r : RingId) (v : RingState) (h : t.rings = (s.setRing r v).rings) :
    ringOnly s t r v := by
  have e : ∀ c, t.ring c = (s.setRing r v).ring c := fun c => by rw [State.ring, h]; rfl
  exact ⟨by rw [e, State.ring_setRing_self], fun c hc => by rw [e, State.ring_setRing_ne _ _ hc]⟩

theorem chanOnly_setChan (s t : State) (ch : ChanId) (v : ChanState) (h : t.chans = (s.setChan ch v).chans) :
    chanOnly s t ch v := by
  have e : ∀ c, t.chan c = (s.setChan ch v).chan c := fun c => by rw [State.chan, h]; rfl
  exact ⟨by rw [e, State.chan_setChan_self], fun c hc => by rw [e, State.chan_setChan_ne _ _ hc]⟩

/-! The well-formed configuration, part by part. -/

theorem Config.wf_fits {c : Config} (h : c.wf = true) : c.fits = true := by
  simp only [Config.wf, Bool.and_eq_true] at h
  exact h.1.1.1.1.1.1.1.1.1.1

theorem Config.wf_apart {c : Config} (h : c.wf = true) :
    c.regions.Pairwise fun a b => regionsApart a b = true := by
  simp only [Config.wf, Bool.and_eq_true, decide_eq_true_eq] at h
  exact h.1.1.1.1.1.1.1.1.1.2

theorem Config.wf_nodup {c : Config} (h : c.wf = true) : (c.rings.map (·.id)).Nodup := by
  simp only [Config.wf, Bool.and_eq_true, decide_eq_true_eq] at h
  exact h.1.1.1.1.1.1.1.2

theorem Config.wf_ring {c : Config} (h : c.wf = true) {rc : RingCfg} (hr : rc ∈ c.rings) :
    2 ≤ rc.txSize ∧ rc.txSize < 2 ^ 32 ∧ 2 ≤ rc.rxSize ∧ rc.rxSize < 2 ^ 32 := by
  simp only [Config.wf, Bool.and_eq_true, List.all_eq_true, RingCfg.wf, decide_eq_true_eq] at h
  have := h.1.1.1.1.1.2 rc hr
  omega

theorem Config.wf_chan {c : Config} (h : c.wf = true) {cc : ChanCfg} (hc : cc ∈ c.chans) : c.chanOk cc = true := by
  simp only [Config.wf, Bool.and_eq_true, List.all_eq_true] at h
  exact h.1.1.1.1.2 cc hc

theorem Config.wf_pollMax {c : Config} (h : c.wf = true) : 1 ≤ c.pollMax := by
  simp only [Config.wf, Bool.and_eq_true, decide_eq_true_eq] at h
  exact h.1.2

/-- The ring of a well-formed channel that carries data is in `P_RINGS`. -/
theorem Config.wf_ringFor {c : Config} (h : c.wf = true) {ch : ChanId} {cc : ChanCfg}
    (hc : c.chan? ch = some cc) (hk : cc.kind ≠ .cmd) : ∃ rc, c.ringFor cc = some rc := by
  have ho := Config.wf_chan h (List.mem_of_find?_eq_some hc)
  unfold Config.chanOk at ho
  unfold Config.ringFor
  cases hr : cc.ring with
  | none => rw [hr] at ho; exact absurd (by simpa using ho) hk
  | some r =>
    rw [hr] at ho
    simp only [Bool.and_eq_true, List.any_eq_true, beq_iff_eq] at ho
    obtain ⟨-, rc, hm, hid, -⟩ := ho
    cases hf : c.rings.find? fun rc => rc.id == r with
    | some rc' => exact ⟨rc', hf⟩
    | none => exact absurd (List.find?_eq_none.mp hf rc hm) (by simp [hid])

/-- With ids that differ, each ring of the list is the one its id names. -/
theorem Config.ring?_of_mem {c : Config} (h : c.wf = true) {rc : RingCfg} (hr : rc ∈ c.rings) :
    c.ring? rc.id = some rc := by
  have hn := Config.wf_nodup h
  unfold Config.ring?
  revert hr hn
  generalize c.rings = l
  intro hr hn
  induction l with
  | nil => simp at hr
  | cons a l ih =>
    rw [List.map_cons, List.nodup_cons] at hn
    rcases List.mem_cons.mp hr with rfl | hr
    · simp
    · have hne : a.id ≠ rc.id := fun e => hn.1 (List.mem_map.mpr ⟨rc, hr, e.symm⟩)
      rw [List.find?_cons_of_neg (by simpa using hne)]
      exact ih hr hn.2

/-- The ring of an FMT or RFS channel is an ack ring (00_scope.md R6, `P_ACK_RING`). -/
theorem Config.wf_ackRing {c : Config} (h : c.wf = true) {cc : ChanCfg} (hc : cc ∈ c.chans)
    (hk : cc.kind = .fmt ∨ cc.kind = .rfs) : ∃ rc ∈ c.rings, cc.ring = some rc.id ∧ rc.ackRing = true := by
  have ho := Config.wf_chan h hc
  unfold Config.chanOk at ho
  cases hr : cc.ring with
  | none => rw [hr] at ho; rcases hk with hk | hk <;> simp [hk] at ho
  | some r =>
    rw [hr] at ho
    simp only [Bool.and_eq_true, List.any_eq_true, beq_iff_eq, Bool.or_eq_true] at ho
    obtain ⟨-, rc, hm, hid, ha⟩ := ho
    refine ⟨rc, hm, by rw [hid], ha.resolve_left ?_⟩
    rcases hk with hk | hk <;> simp [ChanCfg.needsAck, hk]

/-! Occupancy (42_ring.md R170). -/

theorem State.magicOk_iff (s : State) :
    s.magicOk = true ↔ s.shm.readLe s.cfg.magicAddr 4 = s.cfg.magic.toNat := by
  simp only [State.magicOk, State.word, beq_iff_eq]

theorem Snapshot.inRange_iff (p : Snapshot) : p.inRange = true ↔ p.head < p.size ∧ p.tail < p.size := by
  simp only [Snapshot.inRange, Bool.and_eq_true, decide_eq_true_eq]

theorem Snapshot.used_lt (p : Snapshot) (h : p.head < p.size) : p.used < p.size :=
  Nat.mod_lt _ (by omega)

theorem Snapshot.used_add_free (p : Snapshot) (h : p.head < p.size) : p.used + p.free = p.size - 1 := by
  have := p.used_lt h
  unfold Snapshot.free
  omega

theorem Snapshot.used_emod (p : Snapshot) (h : p.tail < p.size) :
    (p.used : Int) = ((p.head : Int) - (p.tail : Int)) % (p.size : Int) := by
  have e : ((p.head + (p.size - p.tail) : Nat) : Int) = ((p.head : Int) - p.tail) + p.size := by omega
  rw [Snapshot.used, Int.natCast_mod, e, Int.add_emod_right]

theorem getTxSpace_ok (rc : RingCfg) (s : State) (hm : s.magicOk = true) (hr : (s.txSnap rc).inRange = true) :
    getTxSpace rc s = (s, .ok (s.txSnap rc)) := by
  rw [getTxSpace, if_pos ⟨hm, hr⟩]

theorem getTxSpace_corrupt (rc : RingCfg) (s : State) (h : ¬ (s.magicOk = true ∧ (s.txSnap rc).inRange = true)) :
    getTxSpace rc s = (s.requestRecovery (.ringCorrupt rc.id), .error (.eio rc.id)) := by
  rw [getTxSpace, if_neg h]

theorem getRxUsed_ok (rc : RingCfg) (s : State) (hr : (s.rxSnap rc).inRange = true) :
    getRxUsed rc s = (s, .ok (s.rxSnap rc)) := by
  rw [getRxUsed, if_pos hr]

theorem getRxUsed_desync (rc : RingCfg) (s : State) (hr : ¬ (s.rxSnap rc).inRange = true) :
    getRxUsed rc s = (s.requestRecovery (.ringDesync rc.id), .error (.desync rc.id)) := by
  rw [getRxUsed, if_neg hr]

/-! Timers, wake and release. -/

theorem Timer.isArmed_iff (t : Timer) : t.isArmed = true ↔ t ≠ .off := by
  cases t <;> simp [Timer.isArmed]

theorem Timer.isArmed_off : Timer.isArmed .off = false := rfl

theorem RingState.armRetryIfQueued_eq (v : RingState) :
    v.armRetryIfQueued = { v with retry := if v.txq = [] then v.retry else .armed } := by
  unfold RingState.armRetryIfQueued
  split <;> rfl

/-- FORBID_SLEEP's first step (43_pm.md R221). -/
theorem forbid_eq (o : Origin) (who : Requester) (s : State) : forbid o who s = { s with
    pm := { s.pm with refCnt := s.pm.refCnt + 1, apStatus := true, cpWakeup := true, sleep := .off, linkoff := .off }
    busy := some ⟨s.cfg.pollMax, o, who⟩
    history := s.history ++ (if s.pm.apStatus then [] else [.gpio .apStatus true]) ++
      (if s.pm.cpWakeup then [] else [.gpio .cpWakeup true]) } := by
  unfold forbid
  cases ha : s.pm.apStatus <;> cases hc : s.pm.cpWakeup <;>
    simp [State.drive, Pm.line, Pm.setLine, Pm.cancelTimers, ha, hc, State.emit]

/-- PERMIT_SLEEP on the power-management state (43_pm.md R224). -/
theorem Pm.permit_eq (p : Pm) : p.permit =
    if p.refCnt ≤ 1 then { p with refCnt := 0, sleep := .armed, sleepGen := p.wakeGen }
    else { p with refCnt := p.refCnt - 1 } := rfl

theorem permitWithin_eq (s : State) : permitWithin s =
    { s with pm := s.pm.permit, history := s.history ++ [.outcome .permitSleep .ok] } := rfl

theorem requestRecovery_eq (s : State) (w : RecoveryReason) : s.requestRecovery w =
    { s with cnt := { s.cnt with recovery := s.cnt.recovery + 1 }, history := s.history ++ [.recovery w] } := rfl

/-! Delivery (41_demux.md). -/

theorem route_unknown (ch : ChanId) (p : Bytes) (ctl : Option Ctl) (s : State) (h : s.cfg.chan? ch = none) :
    route ch p ctl s = (s.count .noChannel, .error (.noSuchChannel ch)) := by
  simp only [route, h]

theorem route_cmd (ch : ChanId) (p : Bytes) (ctl : Option Ctl) (s : State) (cc : ChanCfg)
    (h : s.cfg.chan? ch = some cc) (hk : cc.kind = .cmd) :
    route ch p ctl s = (s.emit (.cmdFrame ch p), .forwarded) := by
  simp only [route, h, if_pos hk]

theorem route_plain (ch : ChanId) (p : Bytes) (ctl : Option Ctl) (s : State) (cc : ChanCfg)
    (h : s.cfg.chan? ch = some cc) (hk : cc.kind ≠ .cmd) (hf : cc.kind = .fmt → ctl = none) :
    route ch p ctl s = deliver cc ch p s := by
  simp only [route, h, if_neg hk]
  cases ctl with
  | none => rfl
  | some c =>
    simp only
    rw [if_neg fun e => by simpa using hf e]

theorem route_fragment (ch : ChanId) (p : Bytes) (c : Ctl) (s : State) (cc : ChanCfg)
    (h : s.cfg.chan? ch = some cc) (hk : cc.kind = .fmt) : route ch p (some c) s = reassemble cc ch c p s := by
  simp [route, h, hk]

theorem joined_eq (o : Option Bytes) (p : Bytes) : joined o p = o.getD [] ++ p := by
  cases o <;> rfl

theorem ipVersionOk_iff (p : Bytes) : ipVersionOk p = true ↔
    ∃ b q, p = b :: q ∧ (b.extractLsb' 4 4 = 4 ∨ b.extractLsb' 4 4 = 6) := by
  cases p with
  | nil => simp [ipVersionOk]
  | cons b q =>
    have hb := b.isLt
    have e : ∀ n : Nat, n < 16 → (b.extractLsb' 4 4 = BitVec.ofNat 4 n ↔ b.toNat / 16 = n) := by
      intro n hn
      rw [← BitVec.toNat_inj, BitVec.extractLsb'_toNat, BitVec.toNat_ofNat, Nat.shiftRight_eq_div_pow]
      omega
    simp [ipVersionOk, e 4 (by omega), e 6 (by omega)]

/-- ROUTE writes the channels, the counters and the history, and nothing else. -/
theorem deliver_frame (cc : ChanCfg) (ch : ChanId) (d : Bytes) (s : State) : (deliver cc ch d s).1 =
    { s with chans := (deliver cc ch d s).1.chans, cnt := (deliver cc ch d s).1.cnt,
             history := (deliver cc ch d s).1.history } := by
  unfold deliver deliverNet deliverMisc
  repeat' split
  all_goals rfl

theorem route_frame (ch : ChanId) (p : Bytes) (ctl : Option Ctl) (s : State) : (route ch p ctl s).1 =
    { s with chans := (route ch p ctl s).1.chans, cnt := (route ch p ctl s).1.cnt,
             history := (route ch p ctl s).1.history } := by
  unfold route
  split
  · rfl
  · next cc h =>
    split
    · rfl
    · split
      · split
        · unfold reassemble
          split
          · rfl
          · exact deliver_frame cc ch _ (s.setChan ch _)
        · exact deliver_frame cc ch p s
      · exact deliver_frame cc ch p s

theorem routeAll_frame (fs : List (Hdr × Bytes)) (s : State) : routeAll fs s =
    { s with chans := (routeAll fs s).chans, cnt := (routeAll fs s).cnt, history := (routeAll fs s).history } := by
  induction fs generalizing s with
  | nil => rfl
  | cons f fs ih =>
    obtain ⟨h, p⟩ := f
    rw [routeAll, ih, State.settle, State.emit, route_frame h.channelId p h.ctl s]

/-- Performing the ROUTEs one after another is what a drain does with its frames. -/
theorem runAll_routes (fs : List (Hdr × Bytes)) (s : State) :
    runAll (fs.map fun x => .route x.1.channelId x.2 x.1.ctl) s = .next (routeAll fs s) := by
  induction fs generalizing s with
  | nil => rfl
  | cons f fs ih =>
    obtain ⟨h, p⟩ := f
    exact ih _

theorem runAll_append (is js : List Instr) (s : State) :
    runAll (is ++ js) s = match runAll is s with
      | .next t => runAll js t
      | .fault f => .fault f
      | .refused r => .refused r := by
  induction is generalizing s with
  | nil => rfl
  | cons i is ih =>
    rw [List.cons_append, runAll, runAll]
    cases exec i s with
    | next t => exact ih t
    | fault f => rfl
    | refused r => rfl

end Sys2Proof.Machine
end

