-- ==== Sys2Proof/Laws/Ring.lean ====
section
/-! SUPPORT. The layout's regions keep apart, a copy into a ring byte by byte, and the loop of XMIT_BODY as a whole. -/

namespace Sys2Proof.Machine

/-! Regions. -/

theorem regionsApart_iff (a b : Nat × Nat) : regionsApart a b = true ↔ a.1 + a.2 ≤ b.1 ∨ b.1 + b.2 ≤ a.1 := by
  simp only [regionsApart, Bool.or_eq_true, decide_eq_true_eq]

theorem regionsApart_symm {a b : Nat × Nat} (h : regionsApart a b = true) : regionsApart b a = true := by
  rw [regionsApart_iff] at *
  omega

/-- Regions of two different rings keep apart. -/
theorem Config.wf_rings_apart {c : Config} (h : c.wf = true) {rc rc' : RingCfg} (hr : rc ∈ c.rings)
    (hr' : rc' ∈ c.rings) (hne : rc ≠ rc') {g g' : Nat × Nat} (hg : g ∈ rc.regions) (hg' : g' ∈ rc'.regions) :
    g.1 + g.2 ≤ g'.1 ∨ g'.1 + g'.2 ≤ g.1 := by
  have hp := (List.pairwise_cons.mp (Config.wf_apart h)).2
  rw [List.pairwise_flatMap] at hp
  have hsymm : Std.Symm fun a b : RingCfg => ∀ x ∈ a.regions, ∀ y ∈ b.regions, regionsApart x y = true :=
    ⟨fun a b hab x hx y hy => regionsApart_symm (hab y hy x hx)⟩
  have := hp.2.forall hr hr' hne
  exact (regionsApart_iff _ _).mp (this g hg g' hg')

/-- The magic word keeps apart from every ring's regions. -/
theorem Config.wf_magic_apart {c : Config} (h : c.wf = true) {rc : RingCfg} (hr : rc ∈ c.rings)
    {g : Nat × Nat} (hg : g ∈ rc.regions) : c.magicAddr + 4 ≤ g.1 ∨ g.1 + g.2 ≤ c.magicAddr := by
  have hp := (List.pairwise_cons.mp (Config.wf_apart h)).1 g (List.mem_flatMap.mpr ⟨rc, hr, hg⟩)
  exact (regionsApart_iff _ _).mp hp

/-- The six regions of one ring keep apart, pair by pair. -/
theorem Config.wf_ring_apart {c : Config} (h : c.wf = true) {rc : RingCfg} (hr : rc ∈ c.rings) :
    rc.regions.Pairwise fun a b => regionsApart a b = true := by
  have hp := (List.pairwise_cons.mp (Config.wf_apart h)).2
  rw [List.pairwise_flatMap] at hp
  exact hp.1 rc hr

/-- Every region of a layout that fits ends within shared memory. -/
theorem Config.fits_region {c : Config} (h : c.fits = true) {rc : RingCfg} (hr : rc ∈ c.rings)
    {g : Nat × Nat} (hg : g ∈ rc.regions) : g.1 + g.2 ≤ c.shmSize := by
  simp only [Config.fits, List.all_eq_true, decide_eq_true_eq] at h
  exact h g (List.mem_cons_of_mem _ (List.mem_flatMap.mpr ⟨rc, hr, hg⟩))

theorem Config.fits_magic {c : Config} (h : c.fits = true) : c.magicAddr + 4 ≤ c.shmSize := by
  simp only [Config.fits, List.all_eq_true, decide_eq_true_eq] at h
  exact h (c.magicAddr, 4) (List.mem_cons_self ..)

/-- Every region of a ring of a well-formed configuration ends within shared memory (20_memory.md R61). -/
theorem Config.wf_inside {c : Config} (h : c.wf = true) {rc : RingCfg} (hr : rc ∈ c.rings) :
    rc.txHead + 4 ≤ c.shmSize ∧ rc.txBase + rc.txSize ≤ c.shmSize ∧ rc.rxTail + 4 ≤ c.shmSize ∧
    rc.txTail + 4 ≤ c.shmSize ∧ rc.rxHead + 4 ≤ c.shmSize ∧ rc.rxBase + rc.rxSize ≤ c.shmSize := by
  have := fun g hg => Config.fits_region (Config.wf_fits h) hr (g := g) hg
  simp only [RingCfg.regions, List.mem_cons, List.not_mem_nil, or_false, forall_eq_or_imp, forall_eq] at this
  tauto

/-- The four index words of a ring, each with the size its value stays below (20_memory.md R63). -/
def indexWords (rc : RingCfg) : List (Nat × Nat) :=
  [(rc.txHead, rc.txSize), (rc.txTail, rc.txSize), (rc.rxHead, rc.rxSize), (rc.rxTail, rc.rxSize)]

theorem indexWords_region (rc : RingCfg) (w : Nat × Nat) (hw : w ∈ indexWords rc) :
    (w.1, 4) ∈ rc.regions := by
  simp only [indexWords, List.mem_cons, List.not_mem_nil, or_false] at hw
  rcases hw with rfl | rfl | rfl | rfl <;> simp [RingCfg.regions]

/-- Two index words are the same word or keep apart. -/
theorem Config.wf_words_apart {c : Config} (h : c.wf = true) {rc rc' : RingCfg} (hr : rc ∈ c.rings)
    (hr' : rc' ∈ c.rings) {w w' : Nat × Nat} (hw : w ∈ indexWords rc) (hw' : w' ∈ indexWords rc') :
    (w.1 = w'.1 ∧ w.2 = w'.2) ∨ w.1 + 4 ≤ w'.1 ∨ w'.1 + 4 ≤ w.1 := by
  by_cases e : rc = rc'
  · subst e
    have hs := Config.wf_ring_apart h hr
    simp only [RingCfg.regions, List.pairwise_cons, List.mem_cons, List.not_mem_nil, or_false, forall_eq_or_imp,
      forall_eq, regionsApart_iff] at hs
    simp only [indexWords, List.mem_cons, List.not_mem_nil, or_false] at hw hw'
    obtain ⟨⟨_, _, _, _, _⟩, ⟨_, _, _, _⟩, ⟨_, _, _⟩, ⟨_, _⟩, _, -⟩ := hs
    rcases hw with rfl | rfl | rfl | rfl <;> rcases hw' with rfl | rfl | rfl | rfl <;> simp only
    all_goals first
      | exact .inl ⟨trivial, trivial⟩
      | exact .inl trivial
      | exact .inr (by assumption)
      | exact .inr (Or.symm (by assumption))
  · exact .inr (Config.wf_rings_apart h hr hr' e (indexWords_region rc w hw) (indexWords_region rc' w' hw'))

/-- An index word keeps apart from every data area. -/
theorem Config.wf_data_apart {c : Config} (h : c.wf = true) {rc rc' : RingCfg} (hr : rc ∈ c.rings)
    (hr' : rc' ∈ c.rings) {w g : Nat × Nat} (hw : w ∈ indexWords rc)
    (hg : g = (rc'.txBase, rc'.txSize) ∨ g = (rc'.rxBase, rc'.rxSize)) : w.1 + 4 ≤ g.1 ∨ g.1 + g.2 ≤ w.1 := by
  by_cases e : rc = rc'
  · subst e
    have hs := Config.wf_ring_apart h hr
    simp only [RingCfg.regions, List.pairwise_cons, List.mem_cons, List.not_mem_nil, or_false, forall_eq_or_imp,
      forall_eq, regionsApart_iff] at hs
    simp only [indexWords, List.mem_cons, List.not_mem_nil, or_false] at hw
    obtain ⟨⟨_, _, _, _, _⟩, ⟨_, _, _, _⟩, ⟨_, _, _⟩, ⟨_, _⟩, _, -⟩ := hs
    rcases hw with rfl | rfl | rfl | rfl <;> rcases hg with rfl | rfl <;> simp only
    all_goals first | assumption | exact Or.symm (by assumption)
  · exact Config.wf_rings_apart h hr hr' e (indexWords_region rc w hw)
      (by rcases hg with rfl | rfl <;> simp [RingCfg.regions])

/-! A copy into a ring. -/

/-- A byte that no index of the copy falls on reads as before. -/
theorem Memory.read_ringPut_other (base size : Nat) (bs : Bytes) (m : Memory) (h x : Nat)
    (hx : ∀ i, i < bs.length → x ≠ base + (h + i) % size) :
    (Memory.ringPut base size m h bs).read x = m.read x := by
  induction bs generalizing m h with
  | nil => rfl
  | cons b bs ih =>
    have h0 := hx 0 (by simp)
    rw [Nat.add_zero] at h0
    rw [Memory.ringPut, ih, Memory.read_write, if_neg (Ne.symm h0)]
    intro i hi
    have := hx (i + 1) (by simpa using hi)
    rwa [show h + (i + 1) = h + 1 + i by omega] at this

/-- Byte `i` of the copy stands at index `h + i`, with wraparound (20_memory.md R64). -/
theorem Memory.read_ringPut_inside (base size : Nat) (bs : Bytes) (m : Memory) (h i : Nat)
    (hi : i < bs.length) (hs : bs.length ≤ size) :
    (Memory.ringPut base size m h bs).read (base + (h + i) % size) = bs[i] := by
  induction bs generalizing m h i with
  | nil => simp at hi
  | cons b bs ih =>
    simp only [List.length_cons] at hi hs
    cases i with
    | zero =>
      rw [Memory.ringPut, Memory.read_ringPut_other, Memory.read_write, Nat.add_zero, if_pos rfl]
      · rfl
      · intro j hj e
        have e' : (h + 0) % size = (h + (j + 1)) % size := by
          rw [show h + (j + 1) = h + 1 + j by omega]
          omega
        have := ring_index_inj size h 0 (j + 1) (by omega) (by omega) e'
        omega
    | succ i =>
      have := ih (m.write (base + h % size) b) (h + 1) i (by omega) (by omega)
      rw [show h + 1 + i = h + (i + 1) by omega] at this
      rw [Memory.ringPut, this]
      rfl

/-- With a copy longer than the ring, the last byte on a slot is the one that stays. -/
theorem Memory.read_ringPut_last (base size : Nat) (bs : Bytes) (m : Memory) (h i : Nat)
    (hi : i < bs.length) (hs : bs.length ≤ i + size) :
    (Memory.ringPut base size m h bs).read (base + (h + i) % size) = bs[i] := by
  induction bs generalizing m h i with
  | nil => simp at hi
  | cons b bs ih =>
    simp only [List.length_cons] at hi hs
    cases i with
    | zero => exact Memory.read_ringPut_inside base size (b :: bs) m h 0 (by simp) (by simpa using hs)
    | succ i =>
      have := ih (m.write (base + h % size) b) (h + 1) i (by omega) (by omega)
      rw [show h + 1 + i = h + (i + 1) by omega] at this
      rw [Memory.ringPut, this]
      rfl

/-! The `written` marks of RX data (20_memory.md R66). -/

theorem markRing_wf (base size : Nat) (on : Bool) (m : SMap Bool) (h k : Nat) (hm : SMap.wf false m) :
    SMap.wf false (markRing base size on m h k) := by
  induction k generalizing m h with
  | zero => exact hm
  | succ k ih => exact ih _ _ (SMap.put_wf _ _ _ _ hm)

/-- Marking `k` bytes from index `h` on sets exactly their marks; every other mark stays. -/
theorem get_markRing (base size : Nat) (on : Bool) (m : SMap Bool) (h k a : Nat) :
    ((∃ j, j < k ∧ a = base + (h + j) % size) → SMap.get false (markRing base size on m h k) a = on) ∧
    ((∀ j, j < k → a ≠ base + (h + j) % size) →
      SMap.get false (markRing base size on m h k) a = SMap.get false m a) := by
  induction k generalizing m h with
  | zero => exact ⟨fun ⟨j, hj, _⟩ => absurd hj (Nat.not_lt_zero j), fun _ => rfl⟩
  | succ k ih =>
    obtain ⟨h1, h2⟩ := ih (SMap.put false m (base + h % size) on) (h + 1)
    have shift : ∀ j, h + (j + 1) = h + 1 + j := by omega
    refine ⟨fun ⟨j, hj, e⟩ => ?_, fun hne => ?_⟩
    · rw [markRing]
      by_cases hin : ∃ j, j < k ∧ a = base + (h + 1 + j) % size
      · exact h1 hin
      · rw [h2 fun j hj e => hin ⟨j, hj, e⟩]
        cases j with
        | zero => rw [e, Nat.add_zero, SMap.get_put_self]
        | succ j => exact absurd ⟨j, by omega, by rw [e, shift]⟩ hin
    · rw [markRing, h2 fun j hj => by rw [← shift]; exact hne (j + 1) (by omega)]
      exact SMap.get_put_ne _ _ _ (Ne.symm (by simpa using hne 0 (by omega)))

theorem markedRing_iff (base size : Nat) (m : SMap Bool) (h k : Nat) :
    markedRing base size m h k = true ↔ ∀ j, j < k → SMap.get false m (base + (h + j) % size) = true := by
  induction k generalizing h with
  | zero => simp [markedRing]
  | succ k ih =>
    rw [markedRing, Bool.and_eq_true, ih]
    refine ⟨fun ⟨h0, hs⟩ j hj => ?_, fun hs => ⟨by simpa using hs 0 (by omega), fun j hj => ?_⟩⟩
    · cases j with
      | zero => simpa using h0
      | succ j => have := hs j (by omega); rwa [show h + 1 + j = h + (j + 1) by omega] at this
    · have := hs (j + 1) (by omega); rwa [show h + (j + 1) = h + 1 + j by omega] at this

/-! The CP's writes and the duties they are judged by (R66). -/

theorem cpWrite_eq (duty : Bool) (m : Memory) (s : State) :
    cpWrite duty m s = { s with shm := m, fault := if duty then s.fault else s.fault.add .remote } := by
  cases duty <;> rfl

theorem txTailDuty_iff (p : Snapshot) (v : Nat) : txTailDuty p v = true ↔
    p.head < p.size ∧ p.tail < p.size ∧ v < p.size ∧ ahead p.size p.tail v ≤ p.used := by
  simp only [txTailDuty, Bool.and_eq_true, Snapshot.inRange_iff, decide_eq_true_eq, and_assoc]

theorem rxHeadDuty_iff (rc : RingCfg) (s : State) (v : Nat) : rxHeadDuty rc s v = true ↔
    s.word rc.rxHead < rc.rxSize ∧ s.word rc.rxTail < rc.rxSize ∧ v < rc.rxSize ∧
    ahead rc.rxSize (s.word rc.rxHead) v ≤ (s.rxSnap rc).free ∧
    ∀ j, j < ahead rc.rxSize (s.word rc.rxHead) v →
      SMap.get false s.rxWritten (rc.rxBase + (s.word rc.rxHead + j) % rc.rxSize) = true := by
  simp only [rxHeadDuty, Bool.and_eq_true, Snapshot.inRange_iff, decide_eq_true_eq, and_assoc, markedRing_iff]
  rfl

theorem rxDataDuty_iff (p : Snapshot) (index len : Nat) : rxDataDuty p index len = true ↔
    p.head < p.size ∧ p.tail < p.size ∧ index < p.size ∧ ahead p.size p.head index + len ≤ p.size - p.used := by
  simp only [rxDataDuty, Bool.and_eq_true, Snapshot.inRange_iff, decide_eq_true_eq, and_assoc]

/-! RING_WRITE (42_ring.md R175). -/

theorem read_ringWrite_other (rc : RingCfg) (h : Nat) (f : Bytes) (m : Memory) (x : Nat)
    (hx : ∀ i, i < f.length → x ≠ rc.txBase + (h + i) % rc.txSize) (hh : x < rc.txHead ∨ rc.txHead + 4 ≤ x) :
    (ringWrite rc h f m).read x = m.read x := by
  rw [ringWrite, Memory.read_writeLe_outside _ _ _ _ _ hh, Memory.read_ringPut_other _ _ _ _ _ _ hx]

theorem readLe_ringWrite_head (rc : RingCfg) (h : Nat) (f : Bytes) (m : Memory) (hs : 0 < rc.txSize)
    (hw : rc.txSize < 2 ^ 32) : (ringWrite rc h f m).readLe rc.txHead 4 = (h + f.length) % rc.txSize := by
  have := Nat.mod_lt (h + f.length) hs
  rw [ringWrite, Memory.readLe_writeLe_self, Nat.mod_eq_of_lt (by omega)]

/-! The loop of XMIT_BODY (42_ring.md R177). -/

/-- What the loop does to the queue: it sends the longest prefix whose bytes fit. -/
theorem sendFrames_queue (rc : RingCfg) (q : List Bytes) (space h : Nat) (m : Memory) :
    ∃ sent, q = sent ++ (sendFrames rc q space h m).rest ∧
      (sendFrames rc q space h m).written = sent.flatten.length ∧
      sent.flatten.length ≤ space ∧
      (∀ f r, (sendFrames rc q space h m).rest = f :: r → space < sent.flatten.length + f.length) ∧
      ((sendFrames rc q space h m).nospc = true ↔ (sendFrames rc q space h m).rest ≠ []) := by
  induction q generalizing space h m with
  | nil => exact ⟨[], rfl, rfl, by simp, by simp [sendFrames], by simp [sendFrames]⟩
  | cons f q ih =>
    unfold sendFrames
    split
    · next hlt => exact ⟨[], rfl, rfl, by simp, by simpa using hlt, by simp⟩
    · next hge =>
      obtain ⟨sent, h1, h2, h3, h4, h5⟩ :=
        ih (space - f.length) ((h + f.length) % rc.txSize) (ringWrite rc h f m)
      refine ⟨f :: sent, ?_, ?_, ?_, ?_, ?_⟩
      · simpa using h1
      · simp [h2]
      · simp only [List.flatten_cons, List.length_append]
        omega
      · intro g r e
        have := h4 g r e
        simp only [List.flatten_cons, List.length_append]
        omega
      · exact h5

/-- What the loop does to shared memory: the sent bytes from the head on, with wraparound, and the head word; no other
byte. -/
theorem sendFrames_memory (rc : RingCfg) (q sent : List Bytes) (space h : Nat) (m : Memory)
    (hs : 0 < rc.txSize) (hw : rc.txSize < 2 ^ 32) (hsp : space < rc.txSize) (hh : h < rc.txSize)
    (hm : m.readLe rc.txHead 4 = h)
    (hap : rc.txHead + 4 ≤ rc.txBase ∨ rc.txBase + rc.txSize ≤ rc.txHead)
    (hq : q = sent ++ (sendFrames rc q space h m).rest) :
    (sendFrames rc q space h m).mem.readLe rc.txHead 4 = (h + sent.flatten.length) % rc.txSize ∧
    (∀ i, i < sent.flatten.length →
      (sendFrames rc q space h m).mem.read (rc.txBase + (h + i) % rc.txSize) = sent.flatten.getD i 0) ∧
    ∀ a, (∀ i, i < sent.flatten.length → a ≠ rc.txBase + (h + i) % rc.txSize) →
      a < rc.txHead ∨ rc.txHead + 4 ≤ a → (sendFrames rc q space h m).mem.read a = m.read a := by
  induction q generalizing sent space h m with
  | nil =>
    have h0 : sent = [] := by
      cases sent with
      | nil => rfl
      | cons a l => simp at hq
    subst h0
    refine ⟨?_, fun i hi => by simp at hi, fun a _ _ => rfl⟩
    simpa [sendFrames, Nat.mod_eq_of_lt hh] using hm
  | cons f q ih =>
    by_cases hlt : space < f.length
    · have e : sendFrames rc (f :: q) space h m = ⟨m, f :: q, 0, true⟩ := by rw [sendFrames, if_pos hlt]
      rw [e] at hq ⊢
      have h0 : sent = [] := by simpa using hq
      subst h0
      refine ⟨?_, fun i hi => by simp at hi, fun a _ _ => rfl⟩
      simpa [Nat.mod_eq_of_lt hh] using hm
    · have e1 : (sendFrames rc (f :: q) space h m).mem = (sendFrames rc q (space - f.length)
          ((h + f.length) % rc.txSize) (ringWrite rc h f m)).mem := by rw [sendFrames, if_neg hlt]
      have e2 : (sendFrames rc (f :: q) space h m).rest = (sendFrames rc q (space - f.length)
          ((h + f.length) % rc.txSize) (ringWrite rc h f m)).rest := by rw [sendFrames, if_neg hlt]
      rw [e2] at hq
      rw [e1]
      obtain ⟨sent', p1, p2, p3, p4, p5⟩ := sendFrames_queue rc q (space - f.length)
        ((h + f.length) % rc.txSize) (ringWrite rc h f m)
      have hsent : sent = f :: sent' := by
        have : sent ++ (sendFrames rc q (space - f.length) ((h + f.length) % rc.txSize) (ringWrite rc h f m)).rest =
            f :: sent' ++ (sendFrames rc q (space - f.length) ((h + f.length) % rc.txSize)
              (ringWrite rc h f m)).rest := by
          rw [← hq, List.cons_append, ← p1]
        exact List.append_cancel_right this
      subst hsent
      have hh' := Nat.mod_lt (h + f.length) hs
      obtain ⟨i1, i2, i3⟩ := ih sent' (space - f.length) ((h + f.length) % rc.txSize) (ringWrite rc h f m)
        (by omega) hh' (readLe_ringWrite_head rc h f m hs hw) p1
      have hmod : ∀ j, ((h + f.length) % rc.txSize + j) % rc.txSize = (h + (f.length + j)) % rc.txSize := by
        intro j
        rw [Nat.mod_add_mod, Nat.add_assoc]
      have hlen : (f :: sent').flatten.length = f.length + sent'.flatten.length := by simp
      rw [hlen]
      refine ⟨?_, ?_, ?_⟩
      · rw [i1, hmod]
      · intro i hi
        have hb := Nat.mod_lt (h + i) hs
        by_cases hif : i < f.length
        · rw [i3 _ ?_ (by omega), ringWrite, Memory.read_writeLe_outside _ _ _ _ _ (by omega),
            Memory.read_ringPut_inside _ _ _ _ _ _ hif (by omega)]
          · simp [List.getD_eq_getElem?_getD, List.getElem?_append_left hif, hif]
          · intro j hj e
            rw [hmod] at e
            have := ring_index_inj rc.txSize h i (f.length + j) (by omega) (by omega) (by omega)
            omega
        · have := i2 (i - f.length) (by omega)
          rw [hmod, show f.length + (i - f.length) = i by omega] at this
          rw [this, List.flatten_cons]
          simp [List.getD_eq_getElem?_getD, List.getElem?_append_right (show f.length ≤ i by omega)]
      · intro a ha hah
        rw [i3 a ?_ hah, read_ringWrite_other rc h f m a (fun i hi => ha i (by omega)) hah]
        intro j hj e
        rw [hmod] at e
        exact ha (f.length + j) (by omega) e

@[simp] theorem State.ring_withShm (s : State) (m : Memory) (r : RingId) : State.ring { s with shm := m } r = s.ring r := rfl

/-- What XMIT_BODY leaves before PERMIT_SLEEP, beside shared memory (42_ring.md R177 to R179). -/
theorem afterSend_spec (rc : RingCfg) (run : SendRun) (s : State) (hn : run.nospc = true ↔ run.rest ≠ []) :
    let asks := run.rest ≠ [] ∧ rc.ackRing = true ∧ (s.ring rc.id).ackWait = .off
   ringOnly s (afterSend rc run s) rc.id
        { txq := run.rest
          resRequired := decide (run.rest ≠ [])
          retry := if run.rest ≠ [] ∧ rc.ackRing = false then .armed else (s.ring rc.id).retry
          rxAckOwed := (s.ring rc.id).rxAckOwed
          ackWait := if asks then .armed else (s.ring rc.id).ackWait } ∧
   afterSend rc run s = { s with shm := run.mem, rings := (afterSend rc run s).rings, history := s.history ++ 
        (if 0 < run.written then [.mbxOut rc.encData] else []) ++
        (if asks then [.mbxOut rc.encReqAck] else []) } := by
  intro asks
  obtain ⟨mem, rest, written, nospc⟩ := run
  simp only at hn
  have hno : nospc = decide (rest ≠ []) := by
    cases nospc <;> simp_all
  subst hno
  by_cases hr : rest = []
  · subst hr
    simp only [afterSend, asks]
    by_cases hw : 0 < written
    · simp [hw]
      refine ⟨⟨by simp, fun r' h => ?_⟩, ?_⟩
      · simp [State.ring_setRing_ne _ _ h]
      · simp [State.setRing, State.emit]
    · simp [hw]
      refine ⟨⟨by simp, fun r' h => ?_⟩, ?_⟩
      · simp [State.ring_setRing_ne _ _ h]
      · simp [State.setRing]
  · simp only [afterSend, asks, noSpace]
    cases ha : rc.ackRing
    · by_cases hw : 0 < written
      · simp [hw, hr]
        refine ⟨⟨by simp, fun r' h => ?_⟩, ?_⟩
        · simp [State.ring_setRing_ne _ _ h]
        · simp [State.setRing, State.emit]
      · simp [hw, hr]
        refine ⟨⟨by simp, fun r' h => ?_⟩, ?_⟩
        · simp [State.ring_setRing_ne _ _ h]
        · simp [State.setRing]
    · by_cases hw : 0 < written <;> by_cases hk : (s.ring rc.id).ackWait = .off
      all_goals simp [hw, hr, hk]
      all_goals refine ⟨⟨by simp, fun r' h => ?_⟩, ?_⟩
      all_goals first | (simp [State.ring_setRing_ne _ _ h]) | (simp [State.setRing, State.emit])

/-- XMIT_BODY on a live link and a ring in range (42_ring.md R177). -/
theorem xmitBody_ok (rc : RingCfg) (s : State) (hm : s.magicOk = true) (hi : (s.txSnap rc).inRange = true) :
    xmitBody rc s =
      let run := sendFrames rc (s.ring rc.id).txq (s.txSnap rc).free (s.txSnap rc).head s.shm
      (permitWithin (afterSend rc run
        (s.settle (.getTxSpace rc.id) (.space (s.txSnap rc).free (s.txSnap rc)))),
       if run.nospc then .noSpc run.written else .sent run.written) := by
  rw [xmitBody, getTxSpace_ok rc s hm hi]
  simp only [spaceOutcome, State.settle_ring, State.settle_shm]

/-- The poll step that completes an XMIT, on a live link and a ring in range (43_pm.md R223, 42_ring.md R177). -/
theorem pollStep_sends (r : RingId) (rc : RingCfg) (s : State) (k : Nat) (who : Requester)
    (hr : s.cfg.ring? r = some rc) (hm : s.magicOk = true) (hi : (s.txSnap rc).inRange = true) :
    pollStep ⟨k, .xmit r, who⟩ s =
      let run := sendFrames rc (s.ring rc.id).txq (s.txSnap rc).free (s.txSnap rc).head s.shm
      finishXmit r who (if run.nospc then .noSpc run.written else .sent run.written)
        (permitWithin (afterSend rc run
          (({ s with busy := none }.settle (.forbidSleep (.xmit r)) .ok).settle (.getTxSpace rc.id)
            (.space (s.txSnap rc).free (s.txSnap rc))))) := by
  have e1 : ({ s with busy := none }.settle (.forbidSleep (.xmit r)) .ok).magicOk = s.magicOk := by
    simp only [State.magicOk, State.settle_word, State.settle_cfg]
    rfl
  have e2 : ({ s with busy := none }.settle (.forbidSleep (.xmit r)) .ok).txSnap rc = s.txSnap rc := by
    simp only [State.txSnap, State.settle_word]
    rfl
  have e3 : ({ s with busy := none }.settle (.forbidSleep (.xmit r)) .ok).ring rc.id = s.ring rc.id := by
    simp only [State.settle_ring]
    rfl
  rw [pollStep, if_pos hm, completeOk]
  simp only
  rw [show State.cfg { s with busy := none } = s.cfg from rfl, hr]
  simp only
  rw [xmitBody_ok rc _ (by rw [e1, hm]) (by rw [e2, hi]), e2, e3]
  rfl

end Sys2Proof.Machine
end

