-- ==== Sys2Proof/Laws/Acts.lean ====
section
/-! SUPPORT. What an operation of BLK can do, said once: every operation is a sequence of the acts listed here, each with the guard
it is done under. An invariant of BLK needs one case per act. -/

namespace Sys2Proof.Machine

/-- Events that are neither a recovery request nor a change of a line. -/
def HistEvent.plain : HistEvent → Bool
  | .input _ => true
  | .outcome _ _ => true
  | .result _ _ => true
  | .mbxOut _ => true
  | .gpio _ _ => false
  | .wake _ => true
  | .netDeliver _ _ => true
  | .cmdFrame _ _ => true
  | .cmdOut _ => true
  | .recovery _ => false

/-- The queue of a ring within its bound, every frame of it within the ring. -/
def txBounded (c : Config) (rc : RingCfg) (v : RingState) : Prop :=
  v.txq.length ≤ c.txqDepth ∧ ∀ f ∈ v.txq, f.length ≤ rc.txSize - 1

/-- A ring update that keeps a bounded queue bounded. -/
def QueueKept (s : State) (r : RingId) (v : RingState) : Prop :=
  s.cfg.wf = true → ∀ rc ∈ s.cfg.rings, rc.id = r → txBounded s.cfg rc (s.ring r) → txBounded s.cfg rc v

/-- A channel update that keeps a bounded queue bounded and the sessions canonical. -/
def ChanKept (s : State) (ch : ChanId) (v : ChanState) : Prop :=
  ((s.chan ch).rxq.length ≤ s.cfg.rxqDepth → v.rxq.length ≤ s.cfg.rxqDepth) ∧
  (SMap.wf none (s.chan ch).reasm → SMap.wf none v.reasm)

/-- One act of operation `i`, started in state `s0`. -/
inductive Act (i : Instr) (s0 : State) : State → State → Prop where
  | note (s : State) (e : HistEvent) (h : e.plain = true) : Act i s0 s (s.emit e)
  | tally (s : State) (c : Counter) (h : c ≠ .recovery) : Act i s0 s (s.count c)
  | recover (s : State) (w : RecoveryReason) : Act i s0 s (s.requestRecovery w)
  | refuse (s : State) : Act i s0 s s.refuse
  | breach (s : State) (d : DutyReason) : Act i s0 s (s.addFault d)
  | mode (s : State) (m : LinkMode) (h : i = .setMode m) : Act i s0 s { s with mode := m }
  | ring (s : State) (r : RingId) (v : RingState) (h : QueueKept s r v) : Act i s0 s (s.setRing r v)
  | chan (s : State) (ch : ChanId) (v : ChanState) (h : ChanKept s ch v) : Act i s0 s (s.setChan ch v)
  | rxTail (s : State) (rc : RingCfg) (v : Nat) (hr : rc ∈ s.cfg.rings) (hv : v < rc.rxSize) :
      Act i s0 s (s.setWord rc.rxTail v)
  | txWrite (s : State) (rc : RingCfg) (h : Nat) (f : Bytes) (hr : rc ∈ s.cfg.rings)
      (hp : s0.magicOk = true ∧ ∃ k who, s0.busy = some ⟨k, .xmit rc.id, who⟩) :
      Act i s0 s { s with shm := ringWrite rc h f s.shm }
  | pollOn (s : State) (p : Poll) (h : s.busy ≠ none) : Act i s0 s { s with busy := some p }
  | pollEnd (s : State) : Act i s0 s { s with busy := none }
  | hold (s : State) (o : Origin) (who : Requester) : Act i s0 s (forbid o who s)
  | permit (s : State) (h : s.busy = none) : Act i s0 s (permit s)
  | sleep (s : State) (h : i = .sleepTimerFire) (hb : s.busy = none) : Act i s0 s (sleepTimerFire s).1
  | linkoff (s : State) : Act i s0 s (linkoffTimerFire s).1
  | wake (s : State) (level : Bool) : Act i s0 s (apWakeupEdge level s).1
  | status (s : State) (level : Bool) : Act i s0 s (cpStatusEdge level s).1

/-- Acts one after another. -/
inductive Acts (i : Instr) (s0 : State) : State → State → Prop where
  | nil (s : State) : Acts i s0 s s
  | cons {s t u : State} (h : Act i s0 s t) (hs : Acts i s0 t u) : Acts i s0 s u

variable {i : Instr} {s0 : State}

theorem Act.acts {s t : State} (h : Act i s0 s t) : Acts i s0 s t := .cons h (.nil t)

theorem Acts.trans {s t u : State} (h : Acts i s0 s t) (g : Acts i s0 t u) : Acts i s0 s u := by
  induction h with
  | nil s => exact g
  | cons a _ ih => exact .cons a (ih g)

/-- A relation that holds across each act, and is closed under composition, holds across the acts. -/
theorem Acts.lift {R : State → State → Prop} (hr : ∀ s, R s s) (ht : ∀ {s t u}, R s t → R t u → R s u)
    (ha : ∀ {s t}, Act i s0 s t → R s t) {s t : State} (h : Acts i s0 s t) : R s t := by
  induction h with
  | nil s => exact hr s
  | cons a _ ih => exact ht (ha a) ih

/-! Every field an act does not write. -/

theorem State.drive_frame (s : State) (l : OutLine) (v : Bool) : s.drive l v =
    { s with pm := (s.drive l v).pm, history := (s.drive l v).history } := by
  unfold State.drive
  split <;> rfl

theorem sleepTimerFire_frame (s : State) : (sleepTimerFire s).1 =
    { s with pm := (sleepTimerFire s).1.pm, history := (sleepTimerFire s).1.history } := by
  unfold sleepTimerFire
  split
  · split
    · rfl
    · simp only
      rw [State.drive_frame]
  · rfl

theorem linkoffTimerFire_frame (s : State) : (linkoffTimerFire s).1 =
    { s with pm := (linkoffTimerFire s).1.pm, history := (linkoffTimerFire s).1.history } := by
  unfold linkoffTimerFire
  split
  · split
    · rfl
    · split
      · rfl
      · simp only
        rw [State.drive_frame]
  · rfl

theorem apWakeupEdge_frame (l : Bool) (s : State) : (apWakeupEdge l s).1 =
    { s with pm := (apWakeupEdge l s).1.pm, history := (apWakeupEdge l s).1.history } := by
  unfold apWakeupEdge
  cases l
  · rfl
  · simp only [if_true]
    split <;> rw [State.drive_frame]

theorem cpStatusEdge_frame (l : Bool) (s : State) : (cpStatusEdge l s).1 =
    { s with pm := (cpStatusEdge l s).1.pm, history := (cpStatusEdge l s).1.history } := by
  unfold cpStatusEdge
  split <;> rfl

/-- No act writes the configuration, the inbox, the input lines, the marks of the CP's writes or the schedule. -/
theorem Act.env {s t : State} (h : Act i s0 s t) : t.cfg = s.cfg ∧ t.inbox = s.inbox ∧
    t.apWakeup = s.apWakeup ∧ t.cpStatus = s.cpStatus ∧ t.rxWritten = s.rxWritten ∧
    t.schedule = s.schedule := by
  cases h with
  | hold o who => rw [forbid_eq]; exact ⟨rfl, rfl, rfl, rfl, rfl, rfl⟩
  | sleep h hb => rw [sleepTimerFire_frame]; exact ⟨rfl, rfl, rfl, rfl, rfl, rfl⟩
  | linkoff => rw [linkoffTimerFire_frame]; exact ⟨rfl, rfl, rfl, rfl, rfl, rfl⟩
  | wake level => rw [apWakeupEdge_frame]; exact ⟨rfl, rfl, rfl, rfl, rfl, rfl⟩
  | status level => rw [cpStatusEdge_frame]; exact ⟨rfl, rfl, rfl, rfl, rfl, rfl⟩
  | _ => exact ⟨rfl, rfl, rfl, rfl, rfl, rfl⟩

theorem Acts.env {s t : State} (h : Acts i s0 s t) : t.cfg = s.cfg ∧ t.inbox = s.inbox ∧
    t.apWakeup = s.apWakeup ∧ t.cpStatus = s.cpStatus ∧ t.rxWritten = s.rxWritten ∧
    t.schedule = s.schedule := by
  induction h with
  | nil s => exact ⟨rfl, rfl, rfl, rfl, rfl, rfl⟩
  | cons a _ ih =>
    obtain ⟨a1, a2, a3, a4, a5, a6⟩ := a.env
    obtain ⟨b1, b2, b3, b4, b5, b6⟩ := ih
    exact ⟨b1.trans a1, b2.trans a2, b3.trans a3, b4.trans a4, b5.trans a5, b6.trans a6⟩

theorem Acts.cfg {s t : State} (h : Acts i s0 s t) : t.cfg = s.cfg := h.env.1

/-! Each shared operation as acts. -/

theorem acts_settle (s : State) (j : Instr) (o : OpOutcome) : Acts i s0 s (s.settle j o) :=
  (Act.note s _ rfl).acts

theorem acts_reply (s : State) (j : Instr) (o : OpOutcome) : Acts i s0 s (s.reply j o) := by
  by_cases h : o = .refused
  · subst h
    exact (Act.note s (.outcome j .refused) rfl).acts
  · have e : s.reply j o = s.emit (.result j o) := by cases o <;> first | rfl | exact absurd rfl h
    rw [e]
    exact (Act.note s (.result j o) rfl).acts

theorem acts_checkOperand (s : State) (b : Bool) : Acts i s0 s (s.checkOperand b) := by
  unfold State.checkOperand
  split
  · exact .nil s
  · exact (Act.breach s _).acts

theorem acts_permitWithin (s : State) (h : s.busy = none) : Acts i s0 s (permitWithin s) :=
  .cons (.permit s h) (acts_settle _ _ _)

theorem queueKept_same (s : State) (r : RingId) (v : RingState) (h : v.txq = (s.ring r).txq) : QueueKept s r v :=
  fun _ _ _ _ hb => by unfold txBounded at *; rwa [h]

theorem queueKept_suffix (s : State) (r : RingId) (v : RingState) (pre : List Bytes)
    (h : (s.ring r).txq = pre ++ v.txq) : QueueKept s r v := fun _ _ _ _ hb => by
  unfold txBounded at *
  rw [h, List.length_append] at hb
  exact ⟨by omega, fun f hf => hb.2 f (List.mem_append_right _ hf)⟩

theorem acts_ring {s : State} {r : RingId} {v : RingState} (h : v.txq = (s.ring r).txq) :
    Acts i s0 s (s.setRing r v) := (Act.ring s r v (queueKept_same s r v h)).acts

theorem chanKept_queue (s : State) (ch : ChanId) (q : List Bytes)
    (h : (s.chan ch).rxq.length ≤ s.cfg.rxqDepth → q.length ≤ s.cfg.rxqDepth) :
    ChanKept s ch { s.chan ch with rxq := q } := ⟨h, id⟩

theorem chanKept_session (s : State) (ch : ChanId) (sid : BitVec 7) (b : Option Bytes) :
    ChanKept s ch ((s.chan ch).setSession sid b) := ⟨id, fun h => SMap.put_wf _ _ _ _ h⟩

theorem acts_deliver (cc : ChanCfg) (ch : ChanId) (d : Bytes) (s : State) :
    Acts i s0 s (deliver cc ch d s).1 := by
  unfold deliver deliverNet deliverMisc
  split
  · split
    · exact (Act.note s _ rfl).acts
    · exact (Act.tally s _ (by simp)).acts
  · split
    · exact (Act.tally s _ (by simp)).acts
    · next hne =>
      refine .cons (.chan s ch _ (chanKept_queue s ch _ fun h => ?_)) (Act.note _ _ rfl).acts
      rw [List.length_append, List.length_singleton]
      omega

theorem acts_route (ch : ChanId) (p : Bytes) (ctl : Option Ctl) (s : State) :
    Acts i s0 s (route ch p ctl s).1 := by
  unfold route
  split
  · exact (Act.tally s _ (by simp)).acts
  · split
    · exact (Act.note s _ rfl).acts
    · split
      · split
        · unfold reassemble
          split
          · exact (Act.chan s ch _ (chanKept_session s ch _ _)).acts
          · exact .cons (.chan s ch _ (chanKept_session s ch _ _)) (acts_deliver _ _ _ _)
        · exact acts_deliver _ _ _ _
      · exact acts_deliver _ _ _ _

theorem acts_routeAll (fs : List (Hdr × Bytes)) (s : State) : Acts i s0 s (routeAll fs s) := by
  induction fs generalizing s with
  | nil => exact .nil s
  | cons f fs ih => exact ((acts_route _ _ _ _).trans (acts_settle _ _ _)).trans (ih _)

theorem acts_payAck (rc : RingCfg) (s : State) : Acts i s0 s (payAck rc s) := by
  unfold payAck
  split
  · exact .cons (.note s (.mbxOut rc.encResAck) rfl) (acts_ring (by simp))
  · exact .nil s

theorem acts_drainRun (rc : RingCfg) (s : State) (hr : rc ∈ s.cfg.rings) (hi : (s.rxSnap rc).inRange = true) :
    Acts i s0 s (drainRun rc s).1 := by
  rw [Snapshot.inRange_iff] at hi
  have ha := acts_routeAll (i := i) (s0 := s0) (split (rxBytes rc s)).frames s
  have hr' : rc ∈ (routeAll (split (rxBytes rc s)).frames s).cfg.rings := by rw [ha.cfg]; exact hr
  unfold drainRun
  simp only
  generalize routeAll (split (rxBytes rc s)).frames s = u at *
  split
  · have a1 : Act i s0 u (u.count .badHeader) := .tally u .badHeader (by simp)
    have a2 : Act i s0 (u.count .badHeader) ((u.count .badHeader).setWord rc.rxTail (s.rxSnap rc).head) :=
      .rxTail (u.count .badHeader) rc (s.rxSnap rc).head hr' hi.1
    exact ha.trans (.cons a1 (.cons a2 (Act.recover _ _).acts))
  · have a1 : Act i s0 u (u.setWord rc.rxTail (((s.rxSnap rc).tail + (split (rxBytes rc s)).off) % rc.rxSize)) :=
      .rxTail u rc _ hr' (Nat.mod_lt _ (Nat.zero_lt_of_lt hi.1))
    exact ha.trans (.cons a1 (acts_payAck rc _))

theorem acts_rxDrain (rc : RingCfg) (s : State) (hr : rc ∈ s.cfg.rings) : Acts i s0 s (rxDrain rc s).1 := by
  unfold rxDrain
  split
  · exact (Act.refuse s).acts
  · exact .nil s
  · split
    · exact (Act.refuse s).acts
    · split
      · next hi => exact acts_drainRun rc s hr hi
      · exact (Act.recover s _).acts

theorem acts_mbxReqAck (rc : RingCfg) (s : State) (hr : rc ∈ s.cfg.rings) : Acts i s0 s (mbxReqAck rc s).1 := by
  unfold mbxReqAck
  split
  · exact (Act.refuse s).acts
  · exact .nil s
  · have h1 : Acts i s0 s (s.setRing rc.id { s.ring rc.id with rxAckOwed := true }) := acts_ring rfl
    have h2 := acts_rxDrain (i := i) (s0 := s0) rc (s.setRing rc.id { s.ring rc.id with rxAckOwed := true }) hr
    exact h1.trans (h2.trans (acts_settle _ _ _))

theorem acts_mbxResAck (r : RingId) (s : State) : Acts i s0 s (mbxResAck r s).1 := by
  unfold mbxResAck
  split
  · exact (Act.refuse s).acts
  · exact .nil s
  · exact acts_ring (by rw [RingState.armRetryIfQueued_eq])

theorem acts_dispatchRing (v : U16) (rc : RingCfg) (s : State) (hr : rc ∈ s.cfg.rings) :
    Acts i s0 s (dispatchRing v rc s) := by
  unfold dispatchRing
  have h1 : Acts i s0 s (if s.cfg.mbxHas v rc.id .data then rxDrainWithin rc s else s) := by
    split
    · exact (acts_rxDrain rc s hr).trans (acts_settle _ _ _)
    · exact .nil s
  simp only
  generalize (if s.cfg.mbxHas v rc.id .data then rxDrainWithin rc s else s) = s1 at *
  have h2 : Acts i s0 s (if s.cfg.mbxHas v rc.id .reqAck then mbxReqAckWithin rc s1 else s1) := by
    split
    · exact h1.trans ((acts_mbxReqAck rc s1 (by rw [h1.cfg]; exact hr)).trans (acts_settle _ _ _))
    · exact h1
  generalize (if s.cfg.mbxHas v rc.id .reqAck then mbxReqAckWithin rc s1 else s1) = s2 at *
  split
  · exact h2.trans ((acts_mbxResAck rc.id s2).trans (acts_settle _ _ _))
  · exact h2

theorem acts_dispatchRings (v : U16) (rcs : List RingCfg) (s : State) (hr : ∀ rc ∈ rcs, rc ∈ s.cfg.rings) :
    Acts i s0 s (dispatchRings v rcs s) := by
  induction rcs generalizing s with
  | nil => exact .nil s
  | cons rc rcs ih =>
    have h1 := acts_dispatchRing (i := i) (s0 := s0) v rc s (hr rc (List.mem_cons_self ..))
    exact h1.trans (ih _ fun x hx => by rw [h1.cfg]; exact hr x (List.mem_cons_of_mem _ hx))

theorem acts_checkPairs (v : U16) (s : State) : Acts i s0 s (checkPairs v s) := by
  unfold checkPairs
  split
  · exact (Act.breach s _).acts
  · exact .nil s

theorem acts_dispatch (v : U16) (s : State) : Acts i s0 s (dispatch v s) :=
  acts_dispatchRings v _ _ fun _ h => h

theorem acts_flushRings (rcs : List RingCfg) (s : State) : Acts i s0 s (flushRings rcs s) := by
  induction rcs generalizing s with
  | nil => exact .nil s
  | cons rc rcs ih =>
    exact .cons (.ring s _ _ (queueKept_suffix _ _ _ (s.ring rc.id).txq (by simp [RingState.flushed]))) (ih _)

theorem acts_getTxSpace (rc : RingCfg) (s : State) : Acts i s0 s (getTxSpace rc s).1 := by
  unfold getTxSpace
  split
  · exact .nil s
  · exact (Act.recover s _).acts

theorem acts_getRxUsed (rc : RingCfg) (s : State) : Acts i s0 s (getRxUsed rc s).1 := by
  unfold getRxUsed
  split
  · exact .nil s
  · exact (Act.recover s _).acts

theorem acts_finishXmit (r : RingId) (who : Requester) (o : OpOutcome) (s : State) :
    Acts i s0 s (finishXmit r who o s) := by
  unfold finishXmit
  split
  · exact acts_reply _ _ _
  · exact (acts_settle _ _ _).trans (acts_settle _ _ _)

theorem acts_performXmit (r : RingId) (who : Requester) (s : State) : Acts i s0 s (performXmit r who s) := by
  unfold performXmit xmitStart
  split
  · exact .cons (.refuse s) (acts_finishXmit _ _ _ _)
  · exact acts_finishXmit _ _ _ _
  · split
    · have h1 : Acts i s0 s (s.setRing r { s.ring r with resRequired := false }) := acts_ring rfl
      exact h1.trans (acts_finishXmit _ _ _ _)
    · exact (Act.hold s _ _).acts

theorem acts_retryTimerFire (r : RingId) (s : State) : Acts i s0 s (retryTimerFire r s) := by
  unfold retryTimerFire
  split
  · split
    · exact .cons (.refuse s) (acts_settle _ _ _)
    · have h1 : Acts i s0 s (s.setRing r { s.ring r with retry := .off }) := acts_ring rfl
      exact h1.trans (acts_performXmit _ _ _)
  · exact acts_settle _ _ _

theorem acts_resAckTimeout (rc : RingCfg) (s : State) : Acts i s0 s (resAckTimeout rc s).1 := by
  unfold resAckTimeout ackTimeoutRun
  split
  · split
    · exact (Act.refuse s).acts
    · exact acts_ring rfl
    · split
      · exact acts_ring (by rw [RingState.armRetryIfQueued_eq])
      · exact acts_ring rfl
  · exact .nil s

theorem acts_txEnqueueOn (rc : RingCfg) (ch : ChanId) (p : Bytes) (ctl : Option Ctl) (s : State)
    (hr : rc ∈ s.cfg.rings) : Acts i s0 s (txEnqueueOn rc ch p ctl s).1 := by
  unfold txEnqueueOn
  split
  · exact .nil s
  · next f hf =>
    split
    · exact .nil s
    · next hlen =>
      split
      · exact (Act.tally s _ (by simp)).acts
      · next hne =>
        refine (Act.ring s _ _ fun hw rc' hr' hid hb => ?_).acts
        have he : rc' = rc := by
          have h1 := Config.ring?_of_mem hw hr'
          have h2 := Config.ring?_of_mem hw hr
          rw [hid, h2] at h1
          exact (Option.some.inj h1).symm
        subst he
        unfold txBounded at *
        simp only [List.length_append, List.length_singleton, List.mem_append, List.mem_singleton]
        refine ⟨by omega, fun g hg => ?_⟩
        rcases hg with hg | rfl
        · exact hb.2 g hg
        · omega

theorem acts_sendFrames (rc : RingCfg) (q : List Bytes) (space h : Nat) (s : State) (hr : rc ∈ s.cfg.rings)
    (hp : s0.magicOk = true ∧ ∃ k who, s0.busy = some ⟨k, .xmit rc.id, who⟩) :
    Acts i s0 s { s with shm := (sendFrames rc q space h s.shm).mem } := by
  induction q generalizing space h s with
  | nil => exact .nil s
  | cons f q ih =>
    unfold sendFrames
    split
    · exact .nil s
    · exact .cons (.txWrite s rc h f hr hp)
        (ih (space - f.length) ((h + f.length) % rc.txSize) { s with shm := ringWrite rc h f s.shm } hr)

theorem acts_noSpace (rc : RingCfg) (s : State) : Acts i s0 s (noSpace rc s) := by
  unfold noSpace
  split
  · split
    · exact .cons (.note s (.mbxOut rc.encReqAck) rfl) (acts_ring (by simp))
    · exact .nil s
  · exact acts_ring rfl

theorem acts_afterSend (rc : RingCfg) (space h : Nat) (s : State) (hr : rc ∈ s.cfg.rings)
    (hp : s0.magicOk = true ∧ ∃ k who, s0.busy = some ⟨k, .xmit rc.id, who⟩) :
    Acts i s0 s (afterSend rc (sendFrames rc (s.ring rc.id).txq space h s.shm) s) := by
  obtain ⟨sent, hq, -⟩ := sendFrames_queue rc (s.ring rc.id).txq space h s.shm
  have h1 := acts_sendFrames (i := i) rc (s.ring rc.id).txq space h s hr hp
  unfold afterSend
  simp only
  generalize sendFrames rc (s.ring rc.id).txq space h s.shm = run at *
  have h2 : Acts i s0 { s with shm := run.mem }
      (State.setRing { s with shm := run.mem } rc.id { s.ring rc.id with txq := run.rest }) :=
    (Act.ring { s with shm := run.mem } rc.id { s.ring rc.id with txq := run.rest }
      (queueKept_suffix _ _ _ sent hq)).acts
  have h3 : ∀ u : State, Acts i s0 u (if run.nospc = true then noSpace rc u else u) := by
    intro u
    split
    · exact acts_noSpace rc u
    · exact .nil u
  refine (h1.trans h2).trans ?_
  generalize State.setRing { s with shm := run.mem } rc.id { s.ring rc.id with txq := run.rest } = u
  have h4 : Acts i s0 u (if 0 < run.written then u.emit (.mbxOut rc.encData) else u) := by
    split
    · exact (Act.note u (.mbxOut rc.encData) rfl).acts
    · exact .nil u
  refine h4.trans ?_
  generalize (if 0 < run.written then u.emit (.mbxOut rc.encData) else u) = w
  have h5 : Acts i s0 w (w.setRing rc.id { w.ring rc.id with resRequired := run.nospc }) := acts_ring rfl
  exact h5.trans (h3 _)

theorem afterSend_busy (rc : RingCfg) (run : SendRun) (s : State) : (afterSend rc run s).busy = s.busy := by
  have h1 : ∀ u : State, (noSpace rc u).busy = u.busy := by
    intro u
    unfold noSpace
    split
    · split
      · rfl
      · rfl
    · rfl
  unfold afterSend
  simp only
  split
  · rw [h1, State.setRing_busy]
    split <;> rfl
  · rw [State.setRing_busy]
    split <;> rfl

theorem acts_xmitBody (rc : RingCfg) (s : State) (hr : rc ∈ s.cfg.rings) (hb : s.busy = none)
    (hp : s0.magicOk = true ∧ ∃ k who, s0.busy = some ⟨k, .xmit rc.id, who⟩) :
    Acts i s0 s (xmitBody rc s).1 := by
  have h1 : Acts i s0 s ((getTxSpace rc s).1.settle (.getTxSpace rc.id) (spaceOutcome (getTxSpace rc s).2)) :=
    (acts_getTxSpace rc s).trans (acts_settle _ _ _)
  have hb1 : ((getTxSpace rc s).1.settle (.getTxSpace rc.id) (spaceOutcome (getTxSpace rc s).2)).busy = none := by
    rw [State.settle_busy]
    unfold getTxSpace
    split <;> exact hb
  unfold xmitBody
  simp only
  split
  · exact h1.trans (acts_permitWithin _ hb1)
  · next p hp' =>
    have h2 := acts_afterSend (i := i) rc p.free p.head
      ((getTxSpace rc s).1.settle (.getTxSpace rc.id) (spaceOutcome (getTxSpace rc s).2)) (by rw [h1.cfg]; exact hr) hp
    refine (h1.trans h2).trans (acts_permitWithin _ ?_)
    rw [afterSend_busy, hb1]

theorem acts_pollStep (p : Poll) (s : State) (hb : s.busy = some p) : Acts i s s (pollStep p s) := by
  unfold pollStep
  split
  · next hm =>
    refine .cons (.pollEnd s) ?_
    unfold completeOk
    split
    · exact acts_reply _ _ _
    · next r ho =>
      split
      · exact (Act.breach _ _).acts
      · next rc hr =>
        have hid := id_of_ring? hr
        have hp : s.magicOk = true ∧ ∃ k who, s.busy = some ⟨k, .xmit rc.id, who⟩ :=
          ⟨hm, p.remaining, p.requester, by rw [hb, hid, ← ho]⟩
        have h2 := acts_xmitBody (i := i) (s0 := s) rc
          ({ s with busy := none }.settle (.forbidSleep (.xmit r)) .ok) (mem_of_ring? hr) rfl hp
        exact ((acts_settle _ _ _).trans h2).trans (acts_finishXmit _ _ _ _)
  · split
    · refine .cons (.pollEnd s) ?_
      unfold completeFail
      simp only
      have h1 : Acts i s { s with busy := none } ((permitWithin { s with busy := none }).requestRecovery .linkNotReady) :=
        (acts_permitWithin _ rfl).trans (Act.recover _ _).acts
      split
      · exact h1.trans (acts_reply _ _ _)
      · exact h1.trans ((acts_settle _ _ _).trans (acts_finishXmit _ _ _ _))
    · exact (Act.pollOn s _ (by simp [hb])).acts

/-- An operation of BLK, performed as BLK performs it, is a sequence of acts. -/
theorem exec_acts (i : Instr) (s t : State) (hb : i = .pollStep ∨ s.busy = none) (h : exec i s = .next t) :
    Acts i s s t := by
  have done : ∀ u : State, Host.Outcome.next u = (.next t : Answer) → Acts i s s u → Acts i s s t := by
    intro u e hu
    cases e
    exact hu
  cases i <;> simp only [exec] at h
  case calcPadding n => exact done _ h (acts_reply _ _ _)
  case headerLen cfg => exact done _ h ((acts_checkOperand _ _).trans (acts_reply _ _ _))
  case buildHeader => exact done _ h (acts_reply _ _ _)
  case parseHeader => exact done _ h (acts_reply _ _ _)
  case totalFrameLen => exact done _ h ((acts_checkOperand _ _).trans (acts_reply _ _ _))
  case route => exact done _ h ((acts_route _ _ _ _).trans (acts_settle _ _ _))
  case rxRead ch =>
    refine done _ h (Acts.trans ?_ (acts_reply _ _ _))
    unfold rxRead
    split
    · exact .nil s
    · split
      · split
        · exact .nil s
        · next d q hq =>
          exact (Act.chan s ch _ (chanKept_queue s ch q fun hl => by
            rw [hq, List.length_cons] at hl; omega)).acts
      · exact .nil s
  case channelReset ch =>
    refine done _ h (Acts.trans ?_ (acts_reply _ _ _))
    unfold channelReset
    split
    · exact .nil s
    · refine (Act.chan s ch _ ⟨fun hl => ?_, fun hw => ?_⟩).acts
      · show (if _ then _ else _ : List Bytes).length ≤ _
        split
        · exact Nat.zero_le _
        · exact hl
      · show SMap.wf none (if _ then _ else _)
        split
        · exact SMap.nil_wf _
        · exact hw
  case txEnqueue ch p ctl =>
    unfold execTxEnqueue at h
    split at h
    · exact done _ h (.cons (.refuse s) (acts_reply _ _ _))
    · exact done _ h (acts_reply _ _ _)
    · split at h
      · exact done _ h (acts_reply _ _ _)
      · split at h
        · exact done _ h (acts_reply _ _ _)
        · split at h
          · exact done _ h (.cons (.refuse s) (acts_reply _ _ _))
          · split at h
            · cases h
            · next cc _ _ _ rc hr =>
              refine done _ h ((acts_txEnqueueOn rc _ _ _ _ ?_).trans (acts_reply _ _ _))
              unfold Config.ringFor at hr
              split at hr
              · exact mem_of_ring? hr
              · cases hr
  case getTxSpace r =>
    unfold execGetTxSpace withRing withShm at h
    split at h
    · exact done _ h (Act.breach s _).acts
    · split at h
      · exact done _ h ((acts_getTxSpace _ _).trans (acts_reply _ _ _))
      · cases h
  case getRxUsed r =>
    unfold execGetRxUsed withRing withShm at h
    split at h
    · exact done _ h (Act.breach s _).acts
    · split at h
      · exact done _ h ((acts_getRxUsed _ _).trans (acts_reply _ _ _))
      · cases h
  case xmit r =>
    unfold execXmit withRing at h
    split at h
    · exact done _ h (Act.breach s _).acts
    · exact done _ h (acts_performXmit _ _ _)
  case retryTimerFire r =>
    unfold execRetryTimerFire at h
    split at h
    · exact done _ h (acts_settle _ _ _)
    · exact done _ h (acts_retryTimerFire _ _)
  case resAckTimeout r =>
    unfold execResAckTimeout withShm at h
    split at h
    · exact done _ h (acts_settle _ _ _)
    · split at h
      · exact done _ h ((acts_resAckTimeout _ _).trans (acts_settle _ _ _))
      · cases h
  case rxDrain r =>
    unfold execRxDrain withRing withShm at h
    split at h
    · exact done _ h (Act.breach s _).acts
    · next rc hr =>
      split at h
      · exact done _ h ((acts_rxDrain _ _ (mem_of_ring? hr)).trans (acts_settle _ _ _))
      · cases h
  case mbxReqAck r =>
    unfold execMbxReqAck withRing withShm at h
    split at h
    · exact done _ h (Act.breach s _).acts
    · next rc hr =>
      split at h
      · exact done _ h ((acts_mbxReqAck _ _ (mem_of_ring? hr)).trans (acts_settle _ _ _))
      · cases h
  case mbxResAck r =>
    unfold execMbxResAck withRing at h
    split at h
    · exact done _ h (Act.breach s _).acts
    · exact done _ h ((acts_mbxResAck _ _).trans (acts_settle _ _ _))
  case forbidSleep o =>
    unfold execForbidSleep withRing at h
    split at h
    · exact done _ h (Act.hold s _ _).acts
    · split at h
      · exact done _ h (Act.breach s _).acts
      · exact done _ h (Act.hold s _ _).acts
  case pollStep =>
    unfold execPollStep withShm at h
    split at h
    · exact done _ h (.nil s)
    · next p hp =>
      split at h
      · exact done _ h (acts_pollStep p s hp)
      · cases h
  case permitSleep =>
    exact done _ h (.cons (.permit s (by simpa using hb)) (acts_reply _ _ _))
  case sleepTimerFire =>
    exact done _ h (.cons (.sleep s rfl (by simpa using hb)) (acts_settle _ _ _))
  case linkoffTimerFire => exact done _ h (.cons (.linkoff s) (acts_settle _ _ _))
  case apWakeupEdge l => exact done _ h (.cons (.wake s l) (acts_settle _ _ _))
  case cpStatusEdge l => exact done _ h (.cons (.status s l) (acts_settle _ _ _))
  case mbxIrq v =>
    unfold execMbxIrq withShm at h
    split at h
    · exact done _ h (.cons (.note s _ rfl) (acts_settle _ _ _))
    · split at h
      · split at h
        · exact done _ h ((acts_checkPairs _ _).trans ((acts_dispatch _ _).trans (acts_settle _ _ _)))
        · cases h
      · exact done _ h ((acts_checkPairs _ _).trans (.cons (.tally _ _ (by simp)) (acts_settle _ _ _)))
      · exact done _ h ((acts_checkPairs _ _).trans (.cons (.refuse _) (acts_settle _ _ _)))
  case setMode m => exact done _ h (.cons (.mode s m rfl) (acts_reply _ _ _))
  case flushTx => exact done _ h ((acts_flushRings _ _).trans (acts_reply _ _ _))
  case frameBuild => exact done _ h (acts_reply _ _ _)
  case sipc5Hdr4 => exact done _ h ((acts_checkOperand _ _).trans (acts_reply _ _ _))
  case sipc5Hdr5Ctl => exact done _ h ((acts_checkOperand _ _).trans (acts_reply _ _ _))
  case sipc5Hdr6Ext => exact done _ h ((acts_checkOperand _ _).trans (acts_reply _ _ _))
  case sipc5BadConfig => exact done _ h ((acts_checkOperand _ _).trans (acts_reply _ _ _))

end Sys2Proof.Machine
end

