-- ==== Sys2Proof/Laws/Agents.lean ====
section
/-! SUPPORT. What a turn of HOST, CP or TIMERS can do, said once: each outcome of the CP's turn with the duty its write was
judged by, and the fields each agent leaves. -/

namespace Sys2Proof.Machine

/-! The turns of the CP (20_memory.md R66, R67). -/

/-- A write of the CP: what shared memory becomes, and whether the write keeps its duty. -/
inductive CpWrite (s : State) : Bool → Memory → Prop where
  | magic (v : U32) (hf : s.cfg.fits = true) : CpWrite s true (s.shm.writeLe s.cfg.magicAddr 4 v.toNat)
  | txTail (r : RingId) (rc : RingCfg) (v : U32) (hr : s.cfg.ring? r = some rc) (hf : s.cfg.fits = true) :
      CpWrite s (txTailDuty (s.txSnap rc) v.toNat) (s.shm.writeLe rc.txTail 4 v.toNat)
  | rxHead (r : RingId) (rc : RingCfg) (v : U32) (hr : s.cfg.ring? r = some rc) (hf : s.cfg.fits = true) :
      CpWrite s (rxHeadDuty rc s v.toNat) (s.shm.writeLe rc.rxHead 4 v.toNat)
  | rxData (r : RingId) (rc : RingCfg) (i : Nat) (b : Bytes) (hr : s.cfg.ring? r = some rc)
      (hf : s.cfg.fits = true) :
      CpWrite s (rxDataDuty (s.rxSnap rc) i b.length) (Memory.ringPut rc.rxBase rc.rxSize s.shm i b)
  | elsewhere (a : Nat) (b : Bytes) (h : a + b.length ≤ s.cfg.shmSize) : CpWrite s false (s.shm.writeBytes a b)

/-- A turn of the CP records a breach and nothing else, changes nothing, moves a line or rings the mailbox, or is a
write. -/
theorem cpTurn_cases (m : CpMove) (s : State) :
    cpTurn m s = s.addFault .remote ∨ cpTurn m s = s ∨
    (∃ a c e, cpTurn m s = { s with apWakeup := a, cpStatus := c, inbox := s.inbox ++ [e] }) ∨
    (∃ d mem w, cpTurn m s =
        { s with shm := mem, fault := if d then s.fault else s.fault.add .remote, rxWritten := w } ∧
      CpWrite s d mem ∧ (SMap.wf false s.rxWritten → SMap.wf false w)) := by
  have ring : ∀ r (k : RingCfg → State), cpRing r s k = s.addFault .remote ∨
      ∃ rc, s.cfg.ring? r = some rc ∧ s.cfg.fits = true ∧ cpRing r s k = k rc := by
    intro r k
    unfold cpRing
    cases hr : s.cfg.ring? r with
    | none => exact .inl rfl
    | some rc =>
      by_cases hf : s.cfg.fits = true
      · exact .inr ⟨rc, rfl, hf, if_pos hf⟩
      · exact .inl (if_neg hf)
  cases m with
  | txTail r v =>
    refine (ring r _).imp id fun ⟨rc, hr, hf, h⟩ => .inr (.inr ?_)
    exact ⟨_, _, _, h.trans (cpWrite_eq _ _ _), .txTail r rc v hr hf, id⟩
  | rxHead r v =>
    refine (ring r _).imp id fun ⟨rc, hr, hf, h⟩ => .inr (.inr ?_)
    exact ⟨_, _, _, h.trans (cpWrite_eq _ _ _), .rxHead r rc v hr hf, fun hm => markRing_wf _ _ _ _ _ _ hm⟩
  | rxData r i b =>
    refine (ring r _).imp id fun ⟨rc, hr, hf, h⟩ => .inr (.inr ?_)
    exact ⟨_, _, _, h.trans (cpWrite_eq _ _ _), .rxData r rc i b hr hf, fun hm => markRing_wf _ _ _ _ _ _ hm⟩
  | magic v =>
    by_cases hf : s.cfg.fits = true
    · exact .inr (.inr (.inr ⟨true, _, s.rxWritten, if_pos hf, .magic v hf, id⟩))
    · exact .inl (if_neg hf)
  | elsewhere a b =>
    by_cases hle : a + b.length ≤ s.cfg.shmSize
    · exact .inr (.inr (.inr ⟨false, _, s.rxWritten, if_pos hle, .elsewhere a b hle, id⟩))
    · exact .inl (if_neg hle)
  | apWakeup l =>
    by_cases e : s.apWakeup = l
    · exact .inr (.inl (if_pos e))
    · exact .inr (.inr (.inl ⟨l, s.cpStatus, .apWakeupEdge l, if_neg e⟩))
  | cpStatus l =>
    by_cases e : s.cpStatus = l
    · exact .inr (.inl (if_pos e))
    · exact .inr (.inr (.inl ⟨s.apWakeup, l, .cpStatusEdge l, if_neg e⟩))
  | mailbox v => exact .inr (.inr (.inl ⟨s.apWakeup, s.cpStatus, .mbxIrq v, rfl⟩))

/-! The turns of HOST and TIMERS. -/

/-- A turn of HOST appends its request or changes nothing. -/
theorem hostTurn_eq (i : Instr) (s : State) :
    hostTurn i s = { s with inbox := s.inbox ++ if i.hostMayStart then [i] else [] } := by
  unfold hostTurn
  cases i.hostMayStart
  · simp
  · rfl

/-- The fields a turn of TIMERS can write. -/
theorem timerTurn_frame (t : TimerId) (s : State) : timerTurn t s =
    { s with inbox := (timerTurn t s).inbox, pm := (timerTurn t s).pm, rings := (timerTurn t s).rings } := by
  cases t <;> simp only [timerTurn] <;> split <;> rfl

/-- The fields no agent but BLK writes. -/
theorem agentTurn_env (m : Move) (s : State) : (agentTurn m s).cfg = s.cfg ∧ (agentTurn m s).busy = s.busy ∧
    (agentTurn m s).mode = s.mode ∧ (agentTurn m s).chans = s.chans ∧ (agentTurn m s).cnt = s.cnt ∧
    (agentTurn m s).refused = s.refused ∧ (agentTurn m s).history = s.history ∧
    (agentTurn m s).schedule = s.schedule := by
  cases m with
  | blk => exact ⟨rfl, rfl, rfl, rfl, rfl, rfl, rfl, rfl⟩
  | host i => simp only [agentTurn, hostTurn_eq, and_self]
  | cp c =>
    simp only [agentTurn]
    rcases cpTurn_cases c s with h | h | ⟨a, b, e, h⟩ | ⟨d, mem, w, h, -, -⟩ <;> rw [h] <;>
      exact ⟨rfl, rfl, rfl, rfl, rfl, rfl, rfl, rfl⟩
  | timer t => simp only [agentTurn]; rw [timerTurn_frame]; exact ⟨rfl, rfl, rfl, rfl, rfl, rfl, rfl, rfl⟩

/-- No agent but BLK moves an output line, a hold, an armed flag or a wake generation. -/
theorem agentTurn_pm (m : Move) (s : State) : (agentTurn m s).pm.refCnt = s.pm.refCnt ∧
    (agentTurn m s).pm.apStatus = s.pm.apStatus ∧ (agentTurn m s).pm.cpWakeup = s.pm.cpWakeup ∧
    (agentTurn m s).pm.sleep.isArmed = s.pm.sleep.isArmed ∧
    (agentTurn m s).pm.linkoff.isArmed = s.pm.linkoff.isArmed ∧
    (agentTurn m s).pm.wakeGen = s.pm.wakeGen ∧ (agentTurn m s).pm.sleepGen = s.pm.sleepGen := by
  cases m with
  | blk => exact ⟨rfl, rfl, rfl, rfl, rfl, rfl, rfl⟩
  | host i => simp only [agentTurn, hostTurn_eq, and_self]
  | cp c =>
    simp only [agentTurn]
    rcases cpTurn_cases c s with h | h | ⟨a, b, e, h⟩ | ⟨d, mem, w, h, -, -⟩ <;> rw [h] <;>
      exact ⟨rfl, rfl, rfl, rfl, rfl, rfl, rfl⟩
  | timer t =>
    cases t <;> simp only [agentTurn, timerTurn] <;> split
    · next h => rw [h]; exact ⟨rfl, rfl, rfl, rfl, rfl, rfl, rfl⟩
    · exact ⟨rfl, rfl, rfl, rfl, rfl, rfl, rfl⟩
    · next h => rw [h]; exact ⟨rfl, rfl, rfl, rfl, rfl, rfl, rfl⟩
    all_goals exact ⟨rfl, rfl, rfl, rfl, rfl, rfl, rfl⟩

/-- No agent but BLK changes a ring's queue, its flags or its debt. -/
theorem agentTurn_ring (m : Move) (s : State) (r : RingId) : ((agentTurn m s).ring r).txq = (s.ring r).txq ∧
    ((agentTurn m s).ring r).resRequired = (s.ring r).resRequired ∧
    ((agentTurn m s).ring r).rxAckOwed = (s.ring r).rxAckOwed := by
  have put : ∀ q v, v.txq = (s.ring q).txq → v.resRequired = (s.ring q).resRequired →
      v.rxAckOwed = (s.ring q).rxAckOwed → ((s.setRing q v).ring r).txq = (s.ring r).txq ∧
      ((s.setRing q v).ring r).resRequired = (s.ring r).resRequired ∧
      ((s.setRing q v).ring r).rxAckOwed = (s.ring r).rxAckOwed := by
    intro q v h1 h2 h3
    rw [State.ring_setRing]
    split
    · next e => exact e ▸ ⟨h1, h2, h3⟩
    · exact ⟨rfl, rfl, rfl⟩
  cases m with
  | blk => exact ⟨rfl, rfl, rfl⟩
  | host i => simp only [agentTurn, hostTurn_eq]; exact ⟨rfl, rfl, rfl⟩
  | cp c =>
    simp only [agentTurn]
    rcases cpTurn_cases c s with h | h | ⟨a, b, e, h⟩ | ⟨d, mem, w, h, -, -⟩ <;> rw [h] <;>
      exact ⟨rfl, rfl, rfl⟩
  | timer t =>
    cases t <;> simp only [agentTurn, timerTurn] <;> split
    all_goals first
      | exact ⟨rfl, rfl, rfl⟩
      | exact put _ _ rfl rfl rfl

/-- A fault reason stays across a turn of another agent. -/
theorem agentTurn_fault (m : Move) (s : State) :
    (s.fault.remoteDutyBroken = true → (agentTurn m s).fault.remoteDutyBroken = true) ∧
    (agentTurn m s).fault.hostDutyBroken = s.fault.hostDutyBroken := by
  cases m with
  | blk => exact ⟨id, rfl⟩
  | host i => simp only [agentTurn]; rw [hostTurn_eq]; exact ⟨id, rfl⟩
  | cp c =>
    simp only [agentTurn]
    rcases cpTurn_cases c s with h | h | ⟨a, b, e, h⟩ | ⟨d, mem, w, h, -, -⟩ <;> rw [h]
    · exact ⟨fun _ => rfl, rfl⟩
    · exact ⟨id, rfl⟩
    · exact ⟨id, rfl⟩
    · cases d
      · exact ⟨fun _ => rfl, rfl⟩
      · exact ⟨id, rfl⟩
  | timer t => simp only [agentTurn]; rw [timerTurn_frame]; exact ⟨id, rfl⟩

/-- Shared memory after a turn of another agent: as before, or written by the CP, with the breach recorded when the write
broke its duty. -/
theorem agentTurn_shm (m : Move) (s : State) : (agentTurn m s).shm = s.shm ∨
    ∃ d, CpWrite s d (agentTurn m s).shm ∧ (d = false → (agentTurn m s).fault.remoteDutyBroken = true) := by
  cases m with
  | blk => exact .inl rfl
  | host i => simp only [agentTurn]; rw [hostTurn_eq]; exact .inl rfl
  | cp c =>
    simp only [agentTurn]
    rcases cpTurn_cases c s with h | h | ⟨a, b, e, h⟩ | ⟨d, mem, w, h, hw, -⟩ <;> rw [h]
    · exact .inl rfl
    · exact .inl rfl
    · exact .inl rfl
    · exact .inr ⟨d, hw, fun e => by subst e; rfl⟩
  | timer t => simp only [agentTurn]; rw [timerTurn_frame]; exact .inl rfl

/-- The marks of the CP's RX writes and the ring table stay in canonical form across a turn of another agent. -/
theorem agentTurn_tables_wf (m : Move) (s : State) :
    (SMap.wf false s.rxWritten → SMap.wf false (agentTurn m s).rxWritten) ∧
    (SMap.wf RingState.init s.rings → SMap.wf RingState.init (agentTurn m s).rings) := by
  cases m with
  | blk => exact ⟨id, id⟩
  | host i => simp only [agentTurn, hostTurn_eq]; exact ⟨id, id⟩
  | cp c =>
    simp only [agentTurn]
    rcases cpTurn_cases c s with h | h | ⟨a, b, e, h⟩ | ⟨d, mem, w, h, -, hw⟩ <;> rw [h]
    · exact ⟨id, id⟩
    · exact ⟨id, id⟩
    · exact ⟨id, id⟩
    · exact ⟨hw, id⟩
  | timer t =>
    cases t <;> simp only [agentTurn, timerTurn] <;> split
    all_goals first
      | exact ⟨id, id⟩
      | exact ⟨id, fun h => SMap.put_wf _ _ _ _ h⟩

end Sys2Proof.Machine
end

