-- ==== Sys2Proof/Laws/Decode.lean ====
section
/-! SUPPORT. Each operand reader against its writer: the reader takes the writer's bytes back, and bytes a reader takes are the
writer's. -/

namespace Sys2Proof

/-- The reader takes `w` back as `a`, whatever follows. -/
def Reader.Takes {α : Type} (p : Reader α) (w : Bytes) (a : α) : Prop :=
  ∀ rest, p (w ++ rest) = .ok (a, rest)

/-- What the reader takes are the bytes `w a` of its answer. -/
def Reader.Only {α : Type} (p : Reader α) (w : α → Bytes) : Prop :=
  ∀ bs a rest, p bs = .ok (a, rest) → bs = w a ++ rest

theorem Reader.Takes.next {α γ : Type} {p : Reader α} {f : α → Reader γ} {w v : Bytes} {a : α} {g : γ}
    (hp : p.Takes w a) (hf : (f a).Takes v g) : (p.next f).Takes (w ++ v) g := fun rest => by
  rw [List.append_assoc, Reader.next, hp]
  exact hf rest

theorem Reader.done_takes {α : Type} (a : α) : (Reader.done a).Takes [] a := fun _ => rfl

theorem Reader.Takes.last {α γ : Type} {p : Reader α} {f : α → γ} {w : Bytes} {a : α} (hp : p.Takes w a) :
    (p.next fun x => .done (f x)).Takes w (f a) := by
  have := hp.next (f := fun x => Reader.done (f x)) (Reader.done_takes (f a))
  rwa [List.append_nil] at this

/-- Peel one operand off a reading. -/
theorem Reader.next_ok {α γ : Type} {p : Reader α} {f : α → Reader γ} {bs rest : Bytes} {g : γ}
    (h : (p.next f) bs = .ok (g, rest)) : ∃ a mid, p bs = .ok (a, mid) ∧ f a mid = .ok (g, rest) := by
  unfold Reader.next at h
  split at h
  · simp at h
  · next a mid hp => exact ⟨a, mid, hp, h⟩

theorem Reader.done_ok {α : Type} {a b : α} {bs rest : Bytes} (h : Reader.done a bs = .ok (b, rest)) :
    a = b ∧ bs = rest := by
  simpa [Reader.done] using h

/-! Bytes. -/

theorem getByte_takes (b : Byte) : Reader.Takes getByte [b] b := fun _ => rfl

theorem getByte_only : Reader.Only getByte fun b => [b] := by
  intro bs a rest h
  cases bs with
  | nil => simp [getByte] at h
  | cons b bs =>
    simp only [getByte, Except.ok.injEq, Prod.mk.injEq] at h
    obtain ⟨rfl, rfl⟩ := h
    rfl

theorem getRaw_takes (n : Nat) (b : Bytes) (h : b.length = n) : Reader.Takes (getRaw n) b b := by
  intro rest
  subst h
  simp [getRaw]

theorem getRaw_ok {n : Nat} {bs a rest : Bytes} (h : getRaw n bs = .ok (a, rest)) :
    bs = a ++ rest ∧ a.length = n := by
  unfold getRaw at h
  split at h
  · simp at h
  · next hn =>
    simp only [Except.ok.injEq, Prod.mk.injEq] at h
    obtain ⟨rfl, rfl⟩ := h
    refine ⟨(List.take_append_drop n bs).symm, ?_⟩
    rw [List.length_take]
    omega

theorem getLe_takes (n v : Nat) (h : v < 256 ^ n) : Reader.Takes (getLe n) (Machine.leBytes n v) v := by
  have := (getRaw_takes n (Machine.leBytes n v) (by simp)).last (f := Machine.leNat)
  rwa [Machine.leNat_leBytes, Nat.mod_eq_of_lt h] at this

theorem getLe_ok {n : Nat} {bs rest : Bytes} {v : Nat} (h : getLe n bs = .ok (v, rest)) :
    bs = Machine.leBytes n v ++ rest ∧ v < 256 ^ n := by
  obtain ⟨a, mid, h1, h2⟩ := Reader.next_ok h
  obtain ⟨h3, h4⟩ := getRaw_ok h1
  obtain ⟨rfl, rfl⟩ := Reader.done_ok h2
  rw [← h4, Machine.leBytes_leNat]
  exact ⟨h3, Machine.leNat_lt a⟩

/-! Naturals. -/

theorem putNatFuel_ge (f g n : Nat) (hf : n ≤ f) (hg : n ≤ g) : putNatFuel f n = putNatFuel g n := by
  induction f generalizing g n with
  | zero =>
    have h0 : n = 0 := by omega
    subst h0
    cases g <;> simp [putNatFuel]
  | succ f ih =>
    cases g with
    | zero =>
      have h0 : n = 0 := by omega
      subst h0
      simp [putNatFuel]
    | succ g =>
      unfold putNatFuel
      split
      · rfl
      · rw [ih g (n / 128) (by omega) (by omega)]

theorem putNat_small (n : Nat) (h : n < 128) : putNat n = [BitVec.ofNat 8 n] := by
  unfold putNat
  cases n with
  | zero => rfl
  | succ n => rw [putNatFuel, if_pos h]

theorem putNat_large (n : Nat) (h : 128 ≤ n) :
    putNat n = BitVec.ofNat 8 (128 + n % 128) :: putNat (n / 128) := by
  unfold putNat
  cases n with
  | zero => omega
  | succ n =>
    rw [putNatFuel, if_neg (by omega), putNatFuel_ge n ((n + 1) / 128) ((n + 1) / 128) (by omega) (by omega)]

theorem getNat_takes (n : Nat) : Reader.Takes getNat (putNat n) n := by
  induction n using Nat.strongRecOn with
  | _ n ih =>
    intro rest
    by_cases h : n < 128
    · have hb : (BitVec.ofNat 8 n : Byte).toNat = n := by
        rw [BitVec.toNat_ofNat, Nat.mod_eq_of_lt (by omega)]
      rw [putNat_small n h]
      simp only [List.cons_append, List.nil_append, getNat, hb, if_pos h]
    · have hb : (BitVec.ofNat 8 (128 + n % 128) : Byte).toNat = 128 + n % 128 := by
        rw [BitVec.toNat_ofNat, Nat.mod_eq_of_lt (by omega)]
      rw [putNat_large n (by omega)]
      simp only [List.cons_append, getNat, hb, ih (n / 128) (by omega) rest]
      rw [if_neg (by omega), if_neg (by omega), show 128 + n % 128 - 128 + 128 * (n / 128) = n by omega]

theorem getNat_only : Reader.Only getNat putNat := by
  intro bs
  induction bs with
  | nil =>
    intro a rest h
    simp [getNat] at h
  | cons b bs ih =>
    intro a rest h
    have hb := b.isLt
    unfold getNat at h
    split at h
    · next hlt =>
      simp only [Except.ok.injEq, Prod.mk.injEq] at h
      obtain ⟨rfl, rfl⟩ := h
      rw [putNat_small _ hlt]
      simp
    · next hge =>
      split at h
      · simp at h
      · next n mid hn =>
        split at h
        · simp at h
        · next h0 =>
          simp only [Except.ok.injEq, Prod.mk.injEq] at h
          obtain ⟨rfl, rfl⟩ := h
          have e1 : (b.toNat - 128 + 128 * n) % 128 = b.toNat - 128 := by omega
          have e2 : (b.toNat - 128 + 128 * n) / 128 = n := by omega
          have e3 : BitVec.ofNat 8 (128 + (b.toNat - 128)) = b := by
            apply BitVec.eq_of_toNat_eq
            rw [BitVec.toNat_ofNat]
            omega
          rw [putNat_large _ (by omega), e1, e2, e3, ih n _ hn]
          rfl

/-! The other operands. -/

theorem getBytes_takes (b : Bytes) : Reader.Takes getBytes (putBytes b) b :=
  (getNat_takes b.length).next (getRaw_takes _ b rfl)

theorem getBytes_only : Reader.Only getBytes putBytes := by
  intro bs a rest h
  obtain ⟨n, mid, h1, h2⟩ := Reader.next_ok h
  obtain ⟨h3, h4⟩ := getRaw_ok h2
  rw [getNat_only _ _ _ h1, h3, putBytes, h4, List.append_assoc]

theorem getBit_takes (b : Bool) : Reader.Takes getBit (putBit b) b := by
  cases b <;> exact fun _ => rfl

theorem getBit_only : Reader.Only getBit putBit := by
  intro bs a rest h
  obtain ⟨b, mid, h1, h2⟩ := Reader.next_ok h
  have e := getByte_only _ _ _ h1
  split at h2
  · next hb => obtain ⟨rfl, rfl⟩ := Reader.done_ok h2; rw [e, hb]; rfl
  · split at h2
    · next hb => obtain ⟨rfl, rfl⟩ := Reader.done_ok h2; rw [e, hb]; rfl
    · simp at h2

theorem getCtl_takes (c : Option Ctl) : Reader.Takes getCtl (putCtl c) c := by
  cases c with
  | none => exact fun _ => rfl
  | some c =>
    intro rest
    have : getCtl (putCtl (some c) ++ rest) = .ok (some (Machine.ctlOfByte (Machine.ctlByte c)), rest) := rfl
    rw [this, Machine.ctlOfByte_ctlByte]

theorem getCtl_only : Reader.Only getCtl putCtl := by
  intro bs a rest h
  obtain ⟨b, mid, h1, h2⟩ := Reader.next_ok h
  have e := getByte_only _ _ _ h1
  split at h2
  · next hb => obtain ⟨rfl, rfl⟩ := Reader.done_ok h2; rw [e, hb]; rfl
  · split at h2
    · next hb =>
      obtain ⟨c, mid', h3, h4⟩ := Reader.next_ok h2
      obtain ⟨rfl, rfl⟩ := Reader.done_ok h4
      rw [e, hb, getByte_only _ _ _ h3, putCtl, Machine.ctlByte_ctlOfByte]
      rfl
    · simp at h2

theorem getMode_takes (m : LinkMode) : Reader.Takes getMode (putMode m) m := by
  cases m <;> exact fun _ => rfl

theorem getMode_only : Reader.Only getMode putMode := by
  intro bs a rest h
  obtain ⟨b, mid, h1, h2⟩ := Reader.next_ok h
  have e := getByte_only _ _ _ h1
  split at h2
  · next hb => obtain ⟨rfl, rfl⟩ := Reader.done_ok h2; rw [e, hb]; rfl
  · split at h2
    · next hb => obtain ⟨rfl, rfl⟩ := Reader.done_ok h2; rw [e, hb]; rfl
    · split at h2
      · next hb => obtain ⟨rfl, rfl⟩ := Reader.done_ok h2; rw [e, hb]; rfl
      · split at h2
        · next hb => obtain ⟨rfl, rfl⟩ := Reader.done_ok h2; rw [e, hb]; rfl
        · split at h2
          · next hb => obtain ⟨rfl, rfl⟩ := Reader.done_ok h2; rw [e, hb]; rfl
          · simp at h2

theorem getOrigin_takes (o : Origin) : Reader.Takes getOrigin (putOrigin o) o := by
  cases o with
  | host => exact fun _ => rfl
  | xmit r =>
    have := (getByte_takes 1).next (f := fun b =>
      if b = 0 then Reader.done Origin.host
      else if b = 1 then getNat.next fun r => .done (.xmit r)
      else fun _ => .error (.badOrigin b)) ((getNat_takes r).last (f := Origin.xmit))
    exact this

theorem getOrigin_only : Reader.Only getOrigin putOrigin := by
  intro bs a rest h
  obtain ⟨b, mid, h1, h2⟩ := Reader.next_ok h
  have e := getByte_only _ _ _ h1
  split at h2
  · next hb => obtain ⟨rfl, rfl⟩ := Reader.done_ok h2; rw [e, hb]; rfl
  · split at h2
    · next hb =>
      obtain ⟨r, mid', h3, h4⟩ := Reader.next_ok h2
      obtain ⟨rfl, rfl⟩ := Reader.done_ok h4
      rw [e, hb, getNat_only _ _ _ h3]
      rfl
    · simp at h2

theorem doneHdr_takes (h : Hdr) (hl : h.frameLen < variantLimit h.headerLen) :
    Reader.Takes (doneHdr h) [] h := fun rest => by
  rw [doneHdr, if_pos hl]
  rfl

theorem doneHdr_ok {h h' : Hdr} {bs rest : Bytes} (e : doneHdr h bs = .ok (h', rest)) :
    h = h' ∧ bs = rest := by
  unfold doneHdr at e
  split at e
  · simpa using e
  · simp at e

theorem getHdr_takes (h : Hdr) (hw : h.wf = true) : Reader.Takes getHdr (putHdr h) h := by
  obtain ⟨ch, fl, hl, ext, isc, pad, ctl⟩ := h
  simp only [Hdr.wf, Bool.and_eq_true, Bool.or_eq_true, decide_eq_true_eq, beq_iff_eq, Bool.not_eq_true'] at hw
  obtain ⟨⟨⟨hle, hisc⟩, hctl⟩, hv⟩ := hw
  intro rest
  have key : ∀ v tail, putHdr ⟨ch, fl, hl, ext, isc, pad, ctl⟩ ++ rest =
      [ch] ++ ([v] ++ (putBit pad ++ (putNat (fl - hl) ++ (tail ++ rest)))) →
      getHdr (putHdr ⟨ch, fl, hl, ext, isc, pad, ctl⟩ ++ rest) =
        (if v = 0 then doneHdr (hdrOf ch 4 pad (fl - hl) none)
         else if v = 1 then
          getByte.next fun c => doneHdr (hdrOf ch 5 pad (fl - hl) (some (Machine.ctlOfByte c)))
         else if v = 2 then doneHdr (hdrOf ch 6 pad (fl - hl) none)
         else fun _ => .error (.badVariant v)) (tail ++ rest) := by
    intro v tail e
    rw [e, getHdr, Reader.next, getByte_takes]
    simp only
    rw [Reader.next, getByte_takes]
    simp only
    rw [Reader.next, getBit_takes]
    simp only
    rw [Reader.next, getNat_takes]
  rcases hv with (⟨⟨rfl, rfl⟩, hlim⟩ | ⟨⟨rfl, rfl⟩, hlim⟩) | ⟨⟨rfl, rfl⟩, hlim⟩
  · have hi : isc = false := by simpa using hisc
    subst hi
    have hc : ctl = none := by simpa using hctl
    subst hc
    rw [key 0 [] (by simp [putHdr]), if_pos rfl, doneHdr_takes]
    · simp [hdrOf, Nat.add_sub_cancel' hle]
    · simp [hdrOf, variantLimit]
      omega
  · have hi : isc = true := by simpa using hisc
    subst hi
    obtain ⟨c, rfl⟩ := Option.isSome_iff_exists.mp hctl
    rw [key 1 [Machine.ctlByte c] (by simp [putHdr]), if_neg (by decide), if_pos rfl, Reader.next, getByte_takes]
    simp only
    have := doneHdr_takes (hdrOf ch 5 pad (fl - 5) (some (Machine.ctlOfByte (Machine.ctlByte c))))
      (by simp [hdrOf, variantLimit]; omega) rest
    rw [List.nil_append] at this
    rw [this, Machine.ctlOfByte_ctlByte]
    simp [hdrOf, Nat.add_sub_cancel' hle]
  · have hi : isc = false := by simpa using hisc
    subst hi
    have hc : ctl = none := by simpa using hctl
    subst hc
    rw [key 2 [] (by simp [putHdr]), if_neg (by decide), if_neg (by decide), if_pos rfl, doneHdr_takes]
    · simp [hdrOf, Nat.add_sub_cancel' hle]
    · simp [hdrOf, variantLimit]
      omega

theorem getHdr_only : Reader.Only getHdr putHdr := by
  intro bs a rest h
  obtain ⟨ch, m1, h1, h⟩ := Reader.next_ok h
  obtain ⟨v, m2, h2, h⟩ := Reader.next_ok h
  obtain ⟨pad, m3, h3, h⟩ := Reader.next_ok h
  obtain ⟨plen, m4, h4, h⟩ := Reader.next_ok h
  have e : bs = [ch, v] ++ putBit pad ++ putNat plen ++ m4 := by
    rw [getByte_only _ _ _ h1, getByte_only _ _ _ h2, getBit_only _ _ _ h3, getNat_only _ _ _ h4]
    simp
  split at h
  · next hv =>
    obtain ⟨rfl, rfl⟩ := doneHdr_ok h
    rw [e, hv]
    simp [putHdr, hdrOf]
  · split at h
    · next hv =>
      obtain ⟨c, m5, h5, h⟩ := Reader.next_ok h
      obtain ⟨rfl, rfl⟩ := doneHdr_ok h
      rw [e, hv, getByte_only _ _ _ h5]
      simp [putHdr, hdrOf, Machine.ctlByte_ctlOfByte]
    · split at h
      · next hv =>
        obtain ⟨rfl, rfl⟩ := doneHdr_ok h
        rw [e, hv]
        simp [putHdr, hdrOf]
      · simp at h

/-! The first byte. -/

theorem opOfByte_opNumber (op : Op) : opOfByte (opNumber op) = some op := by
  cases op <;> decide

theorem opNumber_of_opOfByte {b : Byte} {op : Op} (h : opOfByte b = some op) : opNumber op = b := by
  unfold opOfByte at h
  have := List.find?_some h
  simpa using this

/-- An operation number has bit 7 clear, so a config byte with START is none. -/
theorem opOfByte_start (b : Byte) (h : b.getLsbD 7 = true) : opOfByte b = none := by
  cases hb : opOfByte b with
  | none => rfl
  | some op =>
    have e := opNumber_of_opOfByte hb
    subst e
    cases op <;> simp [opNumber] at h

end Sys2Proof
end

