-- ==== Sys2Proof/Laws/Step.lean ====
section
/-! SUPPORT. What one step can do, said once: a turn of another agent, an idle turn of BLK, one read of the poll in progress, or the
operation at the head of the inbox. -/

namespace Sys2Proof.Machine

/-- The turn is BLK's, with `ms` the turns after it. -/
def blkNext (s : State) (ms : List Move) : Prop :=
  (s.schedule = [] ∧ ms = []) ∨ s.schedule = .blk :: ms

/-- The state BLK performs the inbox head in. -/
def taken (s : State) (ms : List Move) (i : Instr) (q : List Instr) : State :=
  { s with schedule := ms, inbox := q, history := s.history ++ [.input i] }

theorem step_cases {s t : State} (h : step s = .next t) :
    (∃ m ms, s.schedule = m :: ms ∧ m ≠ .blk ∧ t = agentTurn m { s with schedule := ms }) ∨
    (∃ ms, blkNext s ms ∧ s.busy = none ∧ s.inbox = [] ∧ t = { s with schedule := ms }) ∨
    (∃ ms p, blkNext s ms ∧ s.busy = some p ∧ exec .pollStep { s with schedule := ms } = .next t) ∨
    (∃ ms i q, blkNext s ms ∧ s.busy = none ∧ s.inbox = i :: q ∧ exec i (taken s ms i q) = .next t) := by
  have blk : ∀ ms, blkNext s ms → blkTurn { s with schedule := ms } = .next t →
      (∃ ms, blkNext s ms ∧ s.busy = none ∧ s.inbox = [] ∧ t = { s with schedule := ms }) ∨
      (∃ ms p, blkNext s ms ∧ s.busy = some p ∧ exec .pollStep { s with schedule := ms } = .next t) ∨
      (∃ ms i q, blkNext s ms ∧ s.busy = none ∧ s.inbox = i :: q ∧ exec i (taken s ms i q) = .next t) := by
    intro ms hms hb
    unfold blkTurn fetch at hb
    cases hp : s.busy with
    | some p =>
      simp only [hp] at hb
      exact .inr (.inl ⟨ms, p, hms, rfl, hb⟩)
    | none =>
      simp only [hp] at hb
      cases hq : s.inbox with
      | nil =>
        simp only [hq] at hb
        cases hb
        exact .inl ⟨ms, hms, rfl, rfl, rfl⟩
      | cons i q =>
        simp only [hq] at hb
        exact .inr (.inr ⟨ms, i, q, hms, rfl, rfl, by unfold taken; rw [hp]; exact hb⟩)
  unfold step nextTurn at h
  cases hs : s.schedule with
  | nil =>
    simp only [hs] at h
    have e : s = { s with schedule := [] } := by rw [← hs]
    rw [e] at h
    exact .inr (blk [] (.inl ⟨hs, rfl⟩) h)
  | cons m ms =>
    simp only [hs] at h
    cases m with
    | blk => exact .inr (blk ms (.inr hs) h)
    | host i => cases h; exact .inl ⟨_, ms, rfl, by simp, rfl⟩
    | cp c => cases h; exact .inl ⟨_, ms, rfl, by simp, rfl⟩
    | timer x => cases h; exact .inl ⟨_, ms, rfl, by simp, rfl⟩

/-- What holds across an agent's turn, across taking the inbox head and across each act holds across a step. -/
theorem step_lift {s t : State} {P : State → Prop} (h : step s = .next t) (hs : P s)
    (agent : ∀ m ms, P s → P (agentTurn m { s with schedule := ms }))
    (turn : ∀ ms, P s → P { s with schedule := ms })
    (take : ∀ ms i q, P s → P (taken s ms i q))
    (act : ∀ i s0 u v, Act i s0 u v → P u → P v) : P t := by
  have acts : ∀ i s0 u v, Acts i s0 u v → P u → P v := fun i s0 u v ha =>
    ha.lift (R := fun a b => P a → P b) (fun _ => id) (fun f g => g ∘ f) (fun a => act i s0 _ _ a)
  rcases step_cases h with ⟨m, ms, -, -, rfl⟩ | ⟨ms, -, -, -, rfl⟩ | ⟨ms, p, -, -, he⟩ | ⟨ms, i, q, -, hb, -, he⟩
  · exact agent m ms hs
  · exact turn ms hs
  · exact acts _ _ _ _ (exec_acts _ { s with schedule := ms } t (.inl rfl) he) (turn ms hs)
  · exact acts _ _ _ _ (exec_acts i (taken s ms i q) t (.inr hb) he) (take ms i q hs)

end Sys2Proof.Machine
end

