-- ==== Sys2Proof/Tests/Slice0.lean ====
section
/-! SUPPORT. Tests. Every expected result comes from 95_test_vectors.md, from the tables of 30_encoding.md, or, for the layout of
operands (log entry 10), from that layout written out by hand. The witness theorems at the end show, for each statement with hypotheses, a
state and operands that meet them. -/

open Sys2Proof Sys2Proof.Machine

namespace Sys2Proof.Tests

-- One theorem at a time: checking a hundred small evaluations side by side needs more memory than the check allows.
set_option Elab.async false

/-! Helpers. -/

/-- Shared memory holding these u32 words. -/
def words (l : List (Nat × Nat)) : Memory :=
  l.foldl (fun m w => m.writeLe w.1 4 w.2) []

/-- The magic word of configuration K, present. -/
def live : Memory := words [(0, 0xAA55AA55)]

/-- A machine right after reset, but for its mode and shared memory. -/
def machine (c : Config) (mode : LinkMode) (m : Memory) : State :=
  { State.resetWith c m false false with mode := mode }

/-- Configuration K, in IPC mode. -/
def ipcK (m : Memory) : State := machine Config.testK .ipc m

/-- K with rings of 16 bytes, and a CMD channel 2 (95_test_vectors.md sections 2.2, 2.3). -/
def config16 : Config :=
  { Config.testK with
    rings := [{ Config.ringK with txSize := 16, rxSize := 16 }]
    chans := ⟨2, .cmd, .misc, none⟩ :: Config.testK.chans }

/-- K with a second ring that is no ack ring and a second mailbox row for it. -/
def config2 : Config :=
  { Config.testK with
    rings := [Config.ringK, { Config.ringK with
      id := 7, txHead := 0x100, txTail := 0x104, rxHead := 0x108, rxTail := 0x10C, txBase := 0x120, rxBase := 0x140
      ackRing := false, pad := true, encData := 0x0008, encReqAck := 0x0010, encResAck := 0x0020 }]
    shmSize := 0x160
    mbxRows := Config.testK.mbxRows ++ [⟨0x8008, 0x0008, 7, .data⟩, ⟨0x8010, 0x0010, 7, .reqAck⟩,
      ⟨0x8020, 0x0020, 7, .resAck⟩] }

/-- The state an operation leaves; `none` when it stops. -/
def after (i : Instr) (s : State) : Option State :=
  match exec i s with
  | .next t => some t
  | _ => none

/-- The last entry of the history an operation leaves. -/
def last (i : Instr) (s : State) : Option HistEvent :=
  (after i s).bind fun t => t.history.getLast?

/-- The bytes of "hello". -/
def hello : Bytes := [0x68, 0x65, 0x6C, 0x6C, 0x6F]

/-- The 9-byte frame of scenario S1. -/
def helloFrame : Bytes := [0x80, 0x05, 0x09, 0x00] ++ hello

/-! Decoding: for each constructor, its bytes written out. -/

theorem test_decode_codec :
    decode [0x01, 0x09] = .ok (.calcPadding 9, []) ∧
    decode [0x01, 0xF0, 0xA2, 0x04] = .ok (.calcPadding 70000, []) ∧
    decode [0x02, 0xB0] = .ok (.headerLen 0xB0, []) ∧
    decode [0x03, 0x05, 0x02, 0x01, 0x01, 0x83] = .ok (.buildHeader 5 2 true (some ⟨true, 3⟩), []) ∧
    decode [0x04, 0x02, 0x80, 0x05] = .ok (.parseHeader [0x80, 0x05], []) ∧
    decode [0x05, 0x05, 0x00, 0x01, 0x05] = .ok (.totalFrameLen ⟨5, 9, 4, false, false, true, none⟩, []) := by
  decide +kernel

theorem test_decode_demux_and_ring : ∀ x ∈ ([
      ([0x10, 0x01, 0x02, 0x61, 0x62, 0x01, 0x83], .route 1 [0x61, 0x62] (some ⟨true, 3⟩)),
      ([0x11, 0x05], .rxRead 5),
      ([0x12, 0x01], .channelReset 1),
      ([0x20, 0x05, 0x01, 0x78, 0x00], .txEnqueue 5 [0x78] none),
      ([0x21, 0x07], .getTxSpace 7),
      ([0x22, 0x07], .getRxUsed 7),
      ([0x23, 0x07], .xmit 7),
      ([0x24, 0x07], .retryTimerFire 7),
      ([0x25, 0x07], .resAckTimeout 7),
      ([0x26, 0x07], .rxDrain 7),
      ([0x27, 0x07], .mbxReqAck 7),
      ([0x28, 0x07], .mbxResAck 7)] : List (Bytes × Instr)), decode x.1 = .ok (x.2, []) := by
  decide +kernel

theorem test_decode_pm_and_link : ∀ x ∈ ([
      ([0x30, 0x00], .forbidSleep .host),
      ([0x30, 0x01, 0x07], .forbidSleep (.xmit 7)),
      ([0x31], .pollStep),
      ([0x32], .permitSleep),
      ([0x33], .sleepTimerFire),
      ([0x34], .linkoffTimerFire),
      ([0x35, 0x01], .apWakeupEdge true),
      ([0x36, 0x00], .cpStatusEdge false),
      ([0x40, 0x34, 0x12], .mbxIrq 0x1234),
      ([0x41, 0x02], .setMode .ipc),
      ([0x42], .flushTx)] : List (Bytes × Instr)), decode x.1 = .ok (x.2, []) := by
  decide +kernel

theorem test_decode_frames :
    decode (helloFrame ++ [0x80]) = .ok (.sipc5Hdr4 0x80 5 9 hello, [0x80]) ∧
    decode [0xF0, 0x01, 0x07, 0x00, 0x83, 0x61, 0x62, 0x00] =
      .ok (.sipc5Hdr5Ctl 0xF0 1 7 0x83 [0x61, 0x62, 0x00], []) ∧
    decode [0xA0, 0x05, 0x08, 0x00, 0x00, 0x00, 0x61, 0x62] = .ok (.sipc5Hdr6Ext 0xA0 5 8 [0x61, 0x62], []) ∧
    decode [0x7F, 0x05] = .ok (.sipc5BadConfig 0x7F, [0x05]) ∧
    encode (.frameBuild 5 hello false none) = none := by
  decide +kernel

theorem test_decode_refuses :
    decode [] = .error .noBytes ∧ decode [0x23] = .error .truncated ∧ decode [0x01, 0x80, 0x00] = .error .notMinimal ∧
    decode [0x35, 0x02] = .error (.badBit 2) ∧ decode [0x41, 0x05] = .error (.badMode 5) ∧
    decode [0x30, 0x02] = .error (.badOrigin 2) ∧ decode [0x10, 0x01, 0x00, 0x02] = .error (.badOption 2) ∧
    decode [0x05, 0x05, 0x03, 0x00, 0x00] = .error (.badVariant 3) ∧
    decode [0x05, 0x05, 0x00, 0x00, 0xFC, 0xFF, 0x03] = .error (.badHeaderRecord 0x10000) ∧
    decode [0x80, 0x05, 0x09, 0x00, 0x68] = .error .truncated := by
  decide +kernel

/-! WellFormed: each check refuses a term that breaks it, and accepts its neighbour. -/

theorem test_wf_accepts :
    Config.testK.wf = true ∧ config16.wf = true ∧ config2.wf = true ∧
    (Instr.xmit 0).wf Config.testK = true ∧ (Instr.mbxIrq 0x0007).wf Config.testK = true := by
  decide +kernel

theorem test_wf_refuses_operands :
    let c := Config.testK
    (Instr.headerLen 0x7F).wf c = false ∧
    (∀ i ∈ [Instr.getTxSpace 1, .getRxUsed 1, .xmit 1, .retryTimerFire 1, .resAckTimeout 1, .rxDrain 1, .mbxReqAck 1,
      .mbxResAck 1, .forbidSleep (.xmit 1)], i.wf c = false) ∧
    (Instr.mbxIrq 0x0008).wf { c with mbxRows := ⟨0x8008, 0x0008, 9, .data⟩ :: c.mbxRows } = false := by
  decide +kernel

theorem test_wf_refuses_header_records :
    let h : Hdr := ⟨5, 9, 4, false, false, false, none⟩
    h.wf = true ∧ Hdr.wf { h with frameLen := 3 } = false ∧ Hdr.wf { h with frameLen := 2 ^ 16 } = false ∧
    Hdr.wf { h with isExtended := true } = false ∧ Hdr.wf { h with isControl := true } = false ∧
    Hdr.wf { h with ctl := some ⟨false, 0⟩ } = false ∧ Hdr.wf { h with headerLen := 7 } = false ∧
    Hdr.wf ⟨5, 9, 5, true, true, false, none⟩ = false ∧
    Hdr.wf ⟨5, 2 ^ 16, 5, true, true, false, some ⟨false, 0⟩⟩ = false ∧
    Hdr.wf ⟨5, 2 ^ 32, 6, true, false, false, none⟩ = false := by
  decide +kernel

theorem test_wf_refuses_frames :
    let c := Config.testK
    (Instr.sipc5Hdr4 0x00 5 9 hello).wf c = false ∧ (Instr.sipc5Hdr4 0xA0 5 9 hello).wf c = false ∧
    (Instr.sipc5Hdr4 0x80 5 8 hello).wf c = false ∧ (Instr.sipc5Hdr5Ctl 0xA0 5 10 0 hello).wf c = false ∧
    (Instr.sipc5Hdr5Ctl 0x90 5 10 0 hello).wf c = false ∧ (Instr.sipc5Hdr5Ctl 0xB0 5 9 0 hello).wf c = false ∧
    (Instr.sipc5Hdr5Ctl 0x30 5 10 0 hello).wf c = false ∧ (Instr.sipc5Hdr6Ext 0x20 5 11 hello).wf c = false ∧
    (Instr.sipc5Hdr6Ext 0xB0 5 11 hello).wf c = false ∧ (Instr.sipc5Hdr6Ext 0x80 5 11 hello).wf c = false ∧
    (Instr.sipc5Hdr6Ext 0xA0 5 12 hello).wf c = false ∧ (Instr.sipc5BadConfig 0x80).wf c = false := by
  decide +kernel

theorem test_wf_refuses_layouts :
    let k := Config.testK
    let one : RingCfg → Config := fun r => { k with rings := [r] }
    ({ k with shmSize := 0x05F } : Config).wf = false ∧ ({ k with magicAddr := 2 } : Config).wf = false ∧
    ({ k with magicAddr := 0x004 } : Config).wf = false ∧ (one { Config.ringK with txBase := 0x041 }).wf = false ∧
    (one { Config.ringK with txHead := 0x012 }).wf = false ∧ (one { Config.ringK with txSize := 1 }).wf = false ∧
    (one { Config.ringK with rxSize := 1 }).wf = false ∧
    ({ k with rings := [Config.ringK, { config16.rings.headD Config.ringK with txBase := 0x200 }] } : Config).wf = false := by
  decide +kernel

theorem test_wf_refuses_parameters :
    let k := Config.testK
    let plain : List ChanCfg → Config := fun cs => { k with rings := [{ Config.ringK with ackRing := false }], chans := cs }
    (plain [⟨1, .fmt, .misc, some 0⟩]).wf = false ∧ (plain [⟨6, .rfs, .misc, some 0⟩]).wf = false ∧
    (plain [⟨5, .raw, .misc, some 0⟩]).wf = true ∧
    ({ k with chans := ⟨5, .raw, .misc, some 0⟩ :: k.chans } : Config).wf = false ∧
    ({ k with chans := [⟨5, .raw, .misc, some 1⟩] } : Config).wf = false ∧
    ({ k with chans := [⟨5, .raw, .misc, none⟩] } : Config).wf = false ∧
    ({ k with chans := [⟨5, .cmd, .misc, some 0⟩] } : Config).wf = false ∧
    ({ k with txqDepth := 0 } : Config).wf = false ∧ ({ k with rxqDepth := 0 } : Config).wf = false ∧
    ({ k with pollMax := 0 } : Config).wf = false ∧
    ({ k with rings := [{ Config.ringK with encData := 0x8001 }] } : Config).wf = false ∧
    ({ k with rings := [{ Config.ringK with encData := 0x0003 }] } : Config).wf = false ∧
    ({ k with rings := [{ Config.ringK with encResAck := 0 }] } : Config).wf = false := by
  decide +kernel

/-! Codec (95_test_vectors.md section 2.1). -/

theorem test_calc_padding :
    last (.calcPadding 9) State.reset = some (.result (.calcPadding 9) (.number 3)) ∧
    last (.calcPadding 0x10002) State.reset = some (.result (.calcPadding 0x10002) (.number 2)) := by decide +kernel

theorem test_header_len :
    last (.headerLen 0x90) State.reset = some (.result (.headerLen 0x90) (.number 4)) ∧
    last (.headerLen 0xF0) State.reset = some (.result (.headerLen 0xF0) (.number 5)) ∧
    last (.headerLen 0xE0) State.reset = some (.result (.headerLen 0xE0) (.number 6)) := by decide +kernel

theorem test_build_header :
    last (.buildHeader 5 0xFFFB false none) State.reset =
      some (.result (.buildHeader 5 0xFFFB false none) (.bytes [0x80, 0x05, 0xFF, 0xFF])) ∧
    last (.buildHeader 5 70000 false none) State.reset =
      some (.result (.buildHeader 5 70000 false none) (.bytes [0xA0, 0x05, 0x76, 0x11, 0x01, 0x00])) ∧
    last (.buildHeader 1 2 true (some ⟨true, 3⟩)) State.reset =
      some (.result (.buildHeader 1 2 true (some ⟨true, 3⟩)) (.bytes [0xF0, 0x01, 0x07, 0x00, 0x83])) := by
  decide +kernel

/-- V-C10. -/
theorem test_build_header_too_long : last (.buildHeader 1 0xFFFB false (some ⟨false, 1⟩)) State.reset =
    some (.result (.buildHeader 1 0xFFFB false (some ⟨false, 1⟩)) (.error (.tooLong 0x10000))) := by decide +kernel

/-- V-C22, V-C24, V-C26, V-C28, V-C29. -/
theorem test_parse_header_errors :
    parseHeader [0x7F, 0x05, 0x09, 0x00] = .bad (.badConfig 0x7F) ∧
    parseHeader [0xA0, 0x01, 0x00, 0x00] = .incomplete 6 ∧
    parseHeader [0xB0, 0x01, 0x04, 0x00, 0x00] = .bad (.badLength 4) ∧
    parseHeader [0x80, 0x05, 0x09, 0x00, 0x68] = .incomplete 9 ∧
    parseHeader ([0xC0, 0x05, 0x09, 0x00] ++ hello) = .incomplete 12 := by decide +kernel

/-- V-C33, V-C34. -/
theorem test_parse_header_ok :
    last (.parseHeader [0xA0, 0x05, 0x0A, 0x00, 0x00, 0x00, 0x61, 0x62, 0x63, 0x64]) State.reset =
      some (.result (.parseHeader [0xA0, 0x05, 0x0A, 0x00, 0x00, 0x00, 0x61, 0x62, 0x63, 0x64])
        (.parsed ⟨5, 10, 6, true, false, false, none⟩)) ∧
    parseHeader [0xB0, 0x01, 0x05, 0x00, 0x7F] = .ok ⟨1, 5, 5, true, true, false, some ⟨false, 127⟩⟩ := by
  decide +kernel

/-- S2. -/
theorem test_total_frame_len : last (.totalFrameLen ⟨5, 9, 4, false, false, true, none⟩) State.reset =
    some (.result (.totalFrameLen ⟨5, 9, 4, false, false, true, none⟩) (.number 12)) := by decide +kernel

/-- S2. -/
theorem test_frame_build : last (.frameBuild 5 hello true none) State.reset =
    some (.result (.frameBuild 5 hello true none)
      (.bytes [0xC0, 0x05, 0x09, 0x00, 0x68, 0x65, 0x6C, 0x6C, 0x6F, 0x00, 0x00, 0x00])) := by decide +kernel

/-- V-C41, V-C42. -/
theorem test_split :
    split (helloFrame ++ [0x00, 0x01, 0x02, 0x03]) =
      ⟨[(⟨5, 9, 4, false, false, false, none⟩, hello)], 9, .malformed (.badConfig 0x00)⟩ ∧
    split ([0xB0, 0x01, 0x07, 0x00, 0x83, 0x61, 0x62] ++ [0xB0, 0x01, 0x07, 0x00, 0x03, 0x63, 0x64] ++
        [0x80, 0x09, 0x05, 0x00, 0x7A]) =
      ⟨[(⟨1, 7, 5, true, true, false, some ⟨true, 3⟩⟩, [0x61, 0x62]),
        (⟨1, 7, 5, true, true, false, some ⟨false, 3⟩⟩, [0x63, 0x64]),
        (⟨9, 5, 4, false, false, false, none⟩, [0x7A])], 19, .clean⟩ := by decide +kernel

/-- V-C31, V-C27, V-C34, V-C21 as frame forms. -/
theorem test_frame_forms :
    last (.sipc5Hdr4 0x90 5 4 []) State.reset =
      some (.result (.sipc5Hdr4 0x90 5 4 []) (.parsed ⟨5, 4, 4, false, false, false, none⟩)) ∧
    last (.sipc5Hdr6Ext 0xA0 5 5 []) State.reset =
      some (.result (.sipc5Hdr6Ext 0xA0 5 5 []) (.error (.parse (.badLength 5)))) ∧
    last (.sipc5Hdr5Ctl 0xB0 1 5 0x7F []) State.reset =
      some (.result (.sipc5Hdr5Ctl 0xB0 1 5 0x7F []) (.parsed ⟨1, 5, 5, true, true, false, some ⟨false, 127⟩⟩)) ∧
    last (.sipc5BadConfig 0x00) State.reset =
      some (.result (.sipc5BadConfig 0x00) (.error (.parse (.badConfig 0x00)))) := by decide +kernel

/-- A body too short for the length field: HOST's ill-typed operand (R290); the bytes parse as V-C28's do. -/
theorem test_frame_forms_ill_typed :
    (after (.sipc5Hdr4 0x80 5 9 [0x68]) State.reset).map (fun t => (t.fault, t.history)) =
      some (⟨false, true⟩, [.result (.sipc5Hdr4 0x80 5 9 [0x68]) (.incomplete 9)]) := by decide +kernel

/-! Demultiplexer (section 2.2). -/

/-- V-D2's state. -/
def afterD2 : State := (ipcK []).setChan 1 ⟨[], [(3, some [0x61, 0x62])]⟩

/-- V-D2, V-D3. -/
theorem test_route_fragments :
    (after (.route 1 [0x61, 0x62] (some ⟨true, 3⟩)) (ipcK [])).map (·.chan 1) =
      some ⟨[], [(3, some [0x61, 0x62])]⟩ ∧
    (after (.route 1 [0x63, 0x64] (some ⟨false, 3⟩)) afterD2).map (·.chan 1) =
      some ⟨[[0x61, 0x62, 0x63, 0x64]], []⟩ := by decide +kernel

/-- V-D5, V-D7, V-D9, V-D11, V-D16. -/
theorem test_route_deliveries :
    (after (.route 5 [0x71] (some ⟨true, 2⟩)) (ipcK [])).map (·.history) =
      some [.wake 5, .outcome (.route 5 [0x71] (some ⟨true, 2⟩)) .delivered] ∧
    (after (.route 10 [0x45, 0x00, 0x00, 0x14] none) (ipcK [])).map (·.history) =
      some [.netDeliver 10 [0x45, 0x00, 0x00, 0x14],
        .outcome (.route 10 [0x45, 0x00, 0x00, 0x14] none) .delivered] ∧
    (after (.route 10 [0x00] none) (ipcK [])).map (·.cnt.netInvalid) = some 1 ∧
    (after (.route 9 [0x7A] none) (ipcK [])).map (·.cnt.noChannel) = some 1 ∧
    (after (.route 2 [0x63] none) (machine config16 .ipc [])).map (·.history.head?) =
      some (some (.cmdFrame 2 [0x63])) := by decide +kernel

/-- V-D12, V-D13, V-D14. -/
theorem test_rx_read :
    let s := (ipcK []).setChan 5 ⟨[hello], []⟩
    last (.rxRead 5) s = some (.result (.rxRead 5) (.data hello)) ∧
    (after (.rxRead 5) s).map (·.chans) = some [] ∧
    last (.rxRead 5) (ipcK []) = some (.result (.rxRead 5) .empty) ∧
    last (.rxRead 10) s = some (.result (.rxRead 10) (.error (.noSuchChannel 10))) := by decide +kernel

/-- V-D15. -/
theorem test_channel_reset : (after (.channelReset 1) afterD2).map (·.chans) = some [] ∧
    last (.channelReset 1) afterD2 = some (.result (.channelReset 1) .ok) := by decide +kernel

/-! Ring transport (section 2.3). -/

/-- V-R9, V-R10, V-R11. -/
theorem test_tx_enqueue_errors :
    let p := List.replicate 12 (0x78 : Byte)
    let full := (ipcK []).setRing 0 ⟨[helloFrame, helloFrame, helloFrame, helloFrame], false, .off, false, .off⟩
    last (.txEnqueue 5 [0x78] none) (machine Config.testK .offline []) =
      some (.result (.txEnqueue 5 [0x78] none) (.error .linkDown)) ∧
    last (.txEnqueue 5 p none) (machine config16 .ipc []) =
      some (.result (.txEnqueue 5 p none) (.error (.tooLong 16))) ∧
    last (.txEnqueue 5 [0x78] none) full = some (.result (.txEnqueue 5 [0x78] none) (.error (.txQueueFull 5))) ∧
    (after (.txEnqueue 5 [0x78] none) full).map (·.cnt.txqDrop) = some 1 := by decide +kernel

/-- Program 1, step 2. -/
theorem test_tx_enqueue : (after (.txEnqueue 5 hello none) (ipcK [])).map (·.ring 0) =
    some ⟨[helloFrame], false, .off, false, .off⟩ := by decide +kernel

/-- V-R1, V-R3, V-R5, V-R6. -/
theorem test_get_tx_space :
    let s : List (Nat × Nat) → State := fun l => machine config16 .ipc (words l)
    last (.getTxSpace 0) (s [(0, 0xAA55AA55), (4, 3), (8, 10)]) =
      some (.result (.getTxSpace 0) (.space 6 ⟨3, 10, 16⟩)) ∧
    last (.getTxSpace 0) (s [(0, 0xAA55AA55), (4, 15)]) = some (.result (.getTxSpace 0) (.space 0 ⟨15, 0, 16⟩)) ∧
    (after (.getTxSpace 0) (s [])).map (fun t => (t.cnt.recovery, t.history)) =
      some (1, [.recovery (.ringCorrupt 0), .result (.getTxSpace 0) (.error (.eio 0))]) ∧
    last (.getTxSpace 0) (s [(0, 0xAA55AA55), (4, 16)]) = some (.result (.getTxSpace 0) (.error (.eio 0))) := by
  decide +kernel

/-- V-R4. -/
theorem test_get_rx_used : last (.getRxUsed 0) (machine config16 .ipc (words [(12, 2), (16, 14)])) =
    some (.result (.getRxUsed 0) (.used 4 ⟨2, 14, 16⟩)) := by decide +kernel

/-- V-R12. -/
theorem test_xmit_empty :
    let s := (ipcK live).setRing 0 ⟨[], true, .off, false, .off⟩
    (after (.xmit 0) s).map (fun t => (t.pm, t.rings, t.history)) =
      some (Pm.init, [], [.result (.xmit 0) (.sent 0)]) := by decide +kernel

/-- Program 1, step 3. -/
theorem test_xmit_wakes :
    let s := (ipcK live).setRing 0 ⟨[helloFrame], false, .off, false, .off⟩
    (after (.xmit 0) s).map (fun t => (t.busy, t.history)) =
      some (some ⟨3, .xmit 0, .host⟩, [.gpio .apStatus true, .gpio .cpWakeup true]) := by decide +kernel

/-- V-R21; Program 3, step 8. -/
theorem test_retry_timer_fire :
    let s := (ipcK live).setRing 0 ⟨[helloFrame], false, .posted, false, .off⟩
    last (.retryTimerFire 0) (ipcK live) = some (.outcome (.retryTimerFire 0) .stale) ∧
    (after (.retryTimerFire 0) s).map (fun t => (t.busy, (t.ring 0).retry, t.pm.refCnt)) =
      some (some ⟨3, .xmit 0, .retryTimer⟩, .off, 1) := by decide +kernel

/-- V-R18, V-R19. -/
theorem test_res_ack_timeout :
    let s : Nat → State := fun h =>
      (machine config16 .ipc (words [(4, h), (8, 7)])).setRing 0 ⟨[helloFrame], true, .off, false, .armed⟩
    (after (.resAckTimeout 0) (s 7)).map (·.ring 0) = some ⟨[helloFrame], false, .armed, false, .off⟩ ∧
    (after (.resAckTimeout 0) (s 9)).map (·.ring 0) = some ⟨[helloFrame], true, .off, false, .off⟩ ∧
    last (.resAckTimeout 0) (s 9) = some (.outcome (.resAckTimeout 0) (.error (.ackTimeout 0))) := by decide +kernel

/-- V-R13: the frame crosses the wrap. -/
theorem test_rx_drain :
    let s := machine config16 .ipc (Memory.ringPut 0x040 16 (words [(16, 14), (12, 7)]) 14 helloFrame)
    (after (.rxDrain 0) s).map (fun t => ((t.chan 5).rxq, t.word 16, t.history.getLast?)) =
      some ([hello], 7, some (.outcome (.rxDrain 0) (.drained 1))) := by decide +kernel

/-- V-R15, V-R16, V-R17. -/
theorem test_rx_drain_errors :
    let s := ipcK (Memory.ringPut 0x040 32 (words [(12, 13)]) 0 (helloFrame ++ [0x00, 0x01, 0x02, 0x03]))
    let u := machine config16 .ipc (Memory.ringPut 0x040 16 (words [(12, 4)]) 0 [0x80, 0x05, 0x20, 0x00])
    (after (.rxDrain 0) s).map (fun t => ((t.chan 5).rxq, t.word 16, t.cnt.badHeader, t.cnt.recovery)) =
      some ([hello], 13, 1, 1) ∧
    last (.rxDrain 0) s = some (.outcome (.rxDrain 0) (.error (.malformed (.badConfig 0)))) ∧
    last (.rxDrain 0) u = some (.outcome (.rxDrain 0) (.error (.malformed (.badLength 32)))) ∧
    (after (.rxDrain 0) (machine config16 .ipc (words [(12, 20)]))).map (fun t => (t.word 16, t.history)) =
      some (0, [.recovery (.ringDesync 0), .outcome (.rxDrain 0) (.error (.desync 0))]) := by decide +kernel

/-- V-R24. -/
theorem test_mbx_req_ack : (after (.mbxReqAck 0) (ipcK [])).map (fun t => (t.rings, t.history)) =
    some ([], [.mbxOut 0x0004, .outcome (.rxDrain 0) (.drained 0), .outcome (.mbxReqAck 0) (.drained 0)]) := by
  decide +kernel

/-- Program 3, step 7. -/
theorem test_mbx_res_ack :
    let s := (ipcK live).setRing 0 ⟨[helloFrame], true, .off, false, .armed⟩
    (after (.mbxResAck 0) s).map (·.ring 0) = some ⟨[helloFrame], false, .armed, false, .off⟩ := by decide +kernel

/-! Power management (section 2.4). -/

/-- V-P1's first event. -/
theorem test_forbid_sleep : (after (.forbidSleep .host) (ipcK live)).map (fun t => (t.pm, t.busy, t.history)) =
    some (⟨1, true, true, .off, .off, 0, 0⟩, some ⟨3, .host, .host⟩,
      [.gpio .apStatus true, .gpio .cpWakeup true]) := by decide +kernel

/-- Program 1, step 4, and Program 3, step 4. -/
theorem test_poll_step_xmit :
    let s : State := { (ipcK live).setRing 0 ⟨[helloFrame], false, .off, false, .off⟩ with
      busy := some ⟨3, .xmit 0, .host⟩, pm := ⟨1, true, true, .off, .off, 0, 0⟩ }
    let f : Bytes := [0x80, 0x01, 0x14, 0x00] ++ List.replicate 16 0
    let u : State := { (ipcK (words [(0, 0xAA55AA55), (4, 21)])).setRing 0 ⟨[f], false, .off, false, .off⟩ with
      busy := some ⟨3, .xmit 0, .host⟩, pm := ⟨1, true, true, .off, .off, 0, 0⟩ }
    (after .pollStep s).map (fun t => (t.shm.readBytes 0x020 9, t.word 4, t.rings, t.pm)) =
      some (helloFrame, 9, [], ⟨0, true, true, .armed, .off, 0, 0⟩) ∧
    last .pollStep s = some (.result (.xmit 0) (.sent 9)) ∧
    (after .pollStep u).map (fun t => (t.ring 0, t.history.getLast?)) =
      some (⟨[f], true, .off, false, .armed⟩, some (.result (.xmit 0) (.noSpc 0))) := by decide +kernel

/-- V-P2's last poll and V-P1's. -/
theorem test_poll_step_host :
    let s : Memory → State := fun m =>
      { ipcK m with busy := some ⟨1, .host, .host⟩, pm := ⟨1, true, true, .off, .off, 0, 0⟩ }
    last .pollStep (s live) = some (.result (.forbidSleep .host) .ok) ∧
    (after .pollStep (s [])).map (fun t => (t.pm, t.cnt.recovery, t.history)) =
      some (⟨0, true, true, .armed, .off, 0, 0⟩, 1, [.outcome .permitSleep .ok, .recovery .linkNotReady,
        .result (.forbidSleep .host) (.error .linkNotReady)]) := by decide +kernel

/-- V-P4, V-P5, V-P6. -/
theorem test_permit_sleep :
    let s : Nat → State := fun n => { ipcK [] with pm := { Pm.init with refCnt := n, wakeGen := 5 } }
    (after .permitSleep (s 2)).map (·.pm) = some ⟨1, false, false, .off, .off, 5, 0⟩ ∧
    (after .permitSleep (s 1)).map (·.pm) = some ⟨0, false, false, .armed, .off, 5, 5⟩ ∧
    (after .permitSleep (s 0)).map (·.pm) = some ⟨0, false, false, .armed, .off, 5, 5⟩ := by decide +kernel

/-- V-P7, V-P8, V-P10. -/
theorem test_sleep_timer_fire :
    let s : State := { ipcK [] with pm := ⟨0, true, true, .posted, .off, 2, 2⟩ }
    (after .sleepTimerFire s).map (fun t => (t.pm, t.history)) =
      some (⟨0, true, false, .off, .armed, 2, 2⟩, [.gpio .cpWakeup false, .outcome .sleepTimerFire .released]) ∧
    (after .sleepTimerFire (s.setRing 0 ⟨[], true, .off, false, .off⟩)).map (·.pm) =
      some ⟨0, true, true, .armed, .off, 2, 2⟩ ∧
    last .sleepTimerFire (ipcK []) = some (.outcome .sleepTimerFire .stale) := by decide +kernel

/-- V-P11, V-P12. -/
theorem test_linkoff_timer_fire :
    let s : State := { ipcK [] with pm := ⟨0, true, false, .off, .posted, 0, 0⟩ }
    (after .linkoffTimerFire { s with cpStatus := true }).map (·.pm) = some ⟨0, true, false, .off, .armed, 0, 0⟩ ∧
    (after .linkoffTimerFire s).map (fun t => (t.pm, t.history)) =
      some (Pm.init, [.gpio .apStatus false, .outcome .linkoffTimerFire .released]) := by decide +kernel

/-- V-P9, V-P13, V-P15. -/
theorem test_ap_wakeup_edge :
    let s : Pm → State := fun p => { ipcK [] with pm := p }
    (after (.apWakeupEdge true) (s ⟨0, true, true, .armed, .off, 0, 0⟩)).map (·.pm) =
      some ⟨0, true, true, .armed, .off, 1, 1⟩ ∧
    (after (.apWakeupEdge true) (s ⟨0, true, false, .off, .armed, 0, 0⟩)).map (·.pm) =
      some ⟨0, true, false, .armed, .off, 1, 1⟩ ∧
    (after (.apWakeupEdge false) (ipcK [])).map (·.pm) = some Pm.init := by decide +kernel

/-- V-P14. -/
theorem test_cp_status_edge :
    let s : State := { ipcK [] with pm := ⟨0, true, false, .off, .off, 0, 0⟩ }
    (after (.cpStatusEdge false) s).map (·.pm) = some ⟨0, true, false, .off, .armed, 0, 0⟩ ∧
    (after (.cpStatusEdge true) s).map (·.pm) = some s.pm := by decide +kernel

/-! Mailbox and link control (section 2.5). -/

/-- V-L1 to V-L4. -/
theorem test_mbx_irq :
    (after (.mbxIrq 0x8001) State.reset).map (·.history) =
      some [.cmdOut 0x8001, .outcome (.mbxIrq 0x8001) .forwarded] ∧
    (after (.mbxIrq 0x0001) State.reset).map (·.cnt.ignoredIrq) = some 1 ∧
    (after (.mbxIrq 0x0001) (machine Config.testK .boot [])).map (·.refused) = some true ∧
    (after (.mbxIrq 0x0000) (ipcK [])).map (·.history) = some [.outcome (.mbxIrq 0x0000) .dispatched] := by
  decide +kernel

/-- A data value of a ring outside `P_RINGS` is the CP's breach in each mode (X12, R290). -/
theorem test_mbx_irq_stray : ∀ m ∈ ([.offline, .boot, .ipc, .dload, .uload] : List LinkMode),
    let c : Config := { Config.testK with mbxRows := ⟨0x8040, 0x0040, 9, .data⟩ :: Config.testK.mbxRows }
    (after (.mbxIrq 0x0040) (machine c m [])).map (·.fault) = some ⟨true, false⟩ ∧
    (after (.mbxIrq 0x0001) (machine c m [])).map (·.fault) = some ⟨false, false⟩ := by decide +kernel

/-- Program 2, step 2. -/
theorem test_mbx_irq_dispatches :
    let stream : Bytes := [0xB0, 0x01, 0x07, 0x00, 0x83, 0x61, 0x62] ++
      [0xB0, 0x01, 0x07, 0x00, 0x03, 0x63, 0x64] ++ [0x80, 0x09, 0x05, 0x00, 0x7A]
    let s := ipcK (Memory.ringPut 0x040 32 (words [(16, 26), (12, 13)]) 26 stream)
    (after (.mbxIrq 0x0003) s).map (fun t => (t.chans, t.word 16)) =
      some ([(1, ⟨[[0x61, 0x62, 0x63, 0x64]], []⟩)], 13) ∧
    (after (.mbxIrq 0x0003) s).map (fun t => (t.cnt.noChannel, t.rings, t.history.count (.mbxOut 0x0004))) =
      some (1, [], 1) := by decide +kernel

/-- V-L6. -/
theorem test_set_mode : after (.setMode .ipc) State.reset =
    some { State.reset with mode := .ipc, history := [.result (.setMode .ipc) .ok] } := by decide +kernel

/-- V-L5. -/
theorem test_flush_tx :
    let s := (ipcK live).setRing 0 ⟨[helloFrame, helloFrame], true, .armed, true, .off⟩
    (after .flushTx s).map (·.ring 0) = some ⟨[], false, .off, true, .off⟩ := by decide +kernel

/-! Turns. -/

theorem test_step_turns :
    let s : State := { State.reset with schedule := [.host (.setMode .ipc), .cp (.mailbox 0), .blk] }
    let run : State → State := fun u => match step u with
      | .next t => t
      | _ => s
    (run (run (run s))).mode = .ipc ∧ (run (run (run s))).inbox = [.mbxIrq 0] ∧ run State.reset = State.reset := by
  decide +kernel

/-- Data before head (R66): a head over a byte that was never written is a breach, over a written byte it is not, and a byte
once published does not count as written again. -/
theorem test_cp_data_before_head :
    let s := ipcK []
    let data := cpTurn (.rxData 0 0 [0x80, 0x05]) s
    let done := cpTurn (.rxHead 0 2) data
    (cpTurn (.rxHead 0 2) s).fault = ⟨true, false⟩ ∧ (cpTurn (.rxHead 0 2) s).word 12 = 2 ∧
    data.fault = ⟨false, false⟩ ∧ data.shm.readBytes 0x040 2 = [0x80, 0x05] ∧
    done.fault = ⟨false, false⟩ ∧ done.rxWritten = [] ∧ (cpTurn (.rxHead 0 3) data).fault = ⟨true, false⟩ := by
  decide +kernel

/-! Witnesses: the hypotheses of each statement, met together, each clause at a boundary value. -/

theorem witness_CalcPadding : (0 : Nat) % 4 = 0 ∧ 0xFFFC % 4 = 0 := by decide

theorem witness_HeaderLen : (0x80 : Byte).getLsbD 7 = true ∧ (0xFF : Byte).getLsbD 7 = true := by decide

/-- The payload lengths on both sides of each bound. -/
theorem witness_BuildHeader :
    5 + 0xFFFA ≤ 0xFFFF ∧ 0xFFFF < 5 + 0xFFFB ∧ 4 + 0xFFFB ≤ 0xFFFF ∧ 0xFFFF < 4 + 0xFFFC ∧
    6 + 0xFFFC ≤ 0xFFFFFFFF ∧ 6 + 0xFFFFFFF9 ≤ 0xFFFFFFFF ∧ 0xFFFFFFFF < 6 + 0xFFFFFFFA := by decide

theorem witness_ParseHeader :
    let cfg : Bytes → Byte := fun bytes => bytes.getD 0 0
    let b : Bytes → Nat → Nat := fun bytes i => (bytes.getD i 0).toNat
    let hl : Bytes → Nat := fun bytes =>
      if (cfg bytes).getLsbD 5 = false then 4 else if (cfg bytes).getLsbD 4 = true then 5 else 6
    let fl : Bytes → Nat := fun y =>
      if hl y = 6 then b y 2 + 2 ^ 8 * b y 3 + 2 ^ 16 * b y 4 + 2 ^ 24 * b y 5 else b y 2 + 2 ^ 8 * b y 3
    let total : Bytes → Nat := fun y => fl y + if (cfg y).getLsbD 6 = true then (4 - fl y % 4) % 4 else 0
    let short : Bytes := [0x80, 0x05, 0x03, 0x00]
    let cut : Bytes := [0xC0, 0x05, 0x09, 0x00] ++ hello ++ [0x00, 0x00]
    let whole : Bytes := cut ++ [0x00]
    ([] : Bytes).length < 1 ∧
    (1 ≤ [(0x7F : Byte)].length ∧ (cfg [0x7F]).getLsbD 7 = false) ∧
    (1 ≤ [(0x80 : Byte), 5, 4].length ∧ (cfg [0x80, 5, 4]).getLsbD 7 = true ∧ [(0x80 : Byte), 5, 4].length < hl [0x80, 5, 4]) ∧
    (hl short ≤ short.length ∧ (cfg short).getLsbD 7 = true ∧ fl short < hl short) ∧
    (hl cut ≤ cut.length ∧ (cfg cut).getLsbD 7 = true ∧ hl cut ≤ fl cut ∧ cut.length < total cut) ∧
    (hl whole ≤ whole.length ∧ (cfg whole).getLsbD 7 = true ∧ hl whole ≤ fl whole ∧ total whole ≤ whole.length) := by
  decide +kernel

theorem witness_TotalFrameLen :
    Hdr.wf ⟨5, 9, 4, false, false, true, none⟩ = true ∧ Hdr.wf ⟨5, 0xFFFF, 4, false, false, false, none⟩ = true ∧
    Hdr.wf ⟨1, 5, 5, true, true, true, some ⟨true, 127⟩⟩ = true ∧
    Hdr.wf ⟨1, 0xFFFFFFFF, 6, true, false, true, none⟩ = true := by decide +kernel

/-- A length below the header length (BadLength) and at it, in each form. -/
theorem witness_FrameForms :
    let c := Config.testK
    (Instr.sipc5Hdr4 0x80 5 3 []).wf c = true ∧ (Instr.sipc5Hdr4 0x9F 5 4 []).wf c = true ∧
    (Instr.sipc5Hdr5Ctl 0xB0 5 4 0 []).wf c = true ∧ (Instr.sipc5Hdr5Ctl 0xF0 5 5 0xFF [0, 0, 0]).wf c = true ∧
    (Instr.sipc5Hdr6Ext 0xA0 5 5 []).wf c = true ∧ (Instr.sipc5Hdr6Ext 0xE0 5 6 [0, 0]).wf c = true ∧
    (Instr.sipc5BadConfig 0x7F).wf c = true := by decide +kernel

theorem witness_BuiltFrame :
    ((none : Option Ctl) = none ∧ 6 + ([] : Bytes).length ≤ 0xFFFFFFFF) ∧
    (some (⟨true, 3⟩ : Ctl) ≠ none ∧ 5 + hello.length ≤ 0xFFFF) ∧
    (∃ g rest : Bytes, g ++ rest = helloFrame ∧ g ≠ [] ∧ rest ≠ []) :=
  ⟨by decide, by decide, [0x80], helloFrame.drop 1, by decide, by decide, by decide⟩

theorem witness_Split :
    ∀ x ∈ ([(5, hello, false, none, helloFrame), (1, [], true, some ⟨false, 1⟩, [0xF0, 0x01, 0x05, 0x00, 0x01, 0, 0, 0])]
      : List (ChanId × Bytes × Bool × Option Ctl × Bytes)), frameBuild x.1 x.2.1 x.2.2.1 x.2.2.2.1 = .ok x.2.2.2.2 := by
  decide +kernel

theorem witness_DecodeOfEncode :
    (Instr.xmit 0).wf Config.testK = true ∧ encode (.xmit 0) = some [0x23, 0x00] ∧
    (Instr.sipc5BadConfig 0x7F).wf Config.testK = true ∧ encode (.sipc5BadConfig 0x7F) = some [0x7F] ∧
    opOfByte 0x7F = none ∧ (0x01 : Byte).getLsbD 7 = false := by decide +kernel

theorem witness_DecodedBytes : decode [0x23, 0xFF, 0x01, 0x42] = .ok (.xmit 255, [0x42]) := by decide +kernel

theorem witness_StepPerforms :
    let s : State := { State.reset with inbox := [.flushTx] }
    s.busy = none ∧ s.inbox = .flushTx :: [] ∧ s.schedule = [] ∧
    State.schedule { s with schedule := [.blk, .blk] } = .blk :: [.blk] ∧
    State.busy { s with busy := some ⟨1, .host, .host⟩, schedule := [.blk] } = some ⟨1, .host, .host⟩ ∧
    State.schedule { State.reset with schedule := [.blk] } = .blk :: [] ∧
    State.reset.busy = none ∧ State.reset.inbox = [] ∧ State.reset.schedule = [] ∧
    decodeTableWord 8 0x23 = some (.xmit 0) ∧ Instr.xmit 0 ≠ .pollStep ∧ decodeTableWord 8 0x31 = some .pollStep := by
  decide +kernel

/-- Each timer armed, and not armed. -/
theorem witness_HostAndTimerTurns :
    let s : State := { ipcK [] with schedule := [.timer .sleep], pm := { Pm.init with sleep := .armed, linkoff := .armed } }
    let u := s.setRing 0 ⟨[], false, .armed, false, .armed⟩
    State.schedule { s with schedule := [.host .flushTx] } = .host .flushTx :: [] ∧ s.schedule = .timer .sleep :: [] ∧
    s.pm.sleep = .armed ∧ s.pm.linkoff = .armed ∧ (u.ring 0).retry = .armed ∧ (u.ring 0).ackWait = .armed ∧
    (s.ring 0).retry ≠ .armed ∧ (s.ring 0).ackWait ≠ .armed ∧ State.reset.pm.sleep ≠ .armed := by decide +kernel

/-- An index move at its bound and one past it, in both directions; the last marked byte and the one after it; RX data up to
the last free byte and one past it; the last byte of shared memory and one past it; no ring, and a layout that leaves shared
memory. -/
theorem witness_CpTurns :
    let s := ipcK (words [(4, 21), (12, 31)])
    let marks : SMap Bool := [(76, true), (77, true)]
    s.cfg.ring? 0 = some Config.ringK ∧ s.cfg.fits = true ∧ s.cfg.wf = true ∧ s.cfg.ring? 1 = none ∧
    Config.fits { s.cfg with shmSize := 0x05F } = false ∧
    s.shm.readLe Config.ringK.txHead 4 < 32 ∧ s.shm.readLe Config.ringK.txTail 4 < 32 ∧
    (21 + (32 - 0)) % 32 ≤ (21 + (32 - 0)) % 32 ∧ ¬ ((22 + (32 - 0)) % 32 ≤ (21 + (32 - 0)) % 32) ∧
    (31 + (32 - 31)) % 32 ≤ 32 - 1 - (31 + (32 - 0)) % 32 ∧ ¬ ((0 + (32 - 31)) % 32 ≤ 32 - 1 - (31 + (32 - 0)) % 32) ∧
    (14 + (32 - 12)) % 32 ≤ 32 - 1 - (12 + (32 - 0)) % 32 ∧
    (∀ j, j < (14 + (32 - 12)) % 32 → SMap.get false marks (0x040 + (12 + j) % 32) = true) ∧
    ¬ (∀ j, j < (15 + (32 - 12)) % 32 → SMap.get false marks (0x040 + (12 + j) % 32) = true) ∧
    (31 + (32 - 31)) % 32 + 1 ≤ 32 - (31 + (32 - 0)) % 32 ∧ ¬ ((31 + (32 - 31)) % 32 + 2 ≤ 32 - (31 + (32 - 0)) % 32) ∧
    0x05E + 2 ≤ s.cfg.shmSize ∧ s.cfg.shmSize < 0x05E + 3 := by
  decide +kernel

theorem witness_RouteUnknownAndCmd :
    config16.chan? 9 = none ∧ config16.chan? 2 = some ⟨2, .cmd, .misc, none⟩ := by decide +kernel

/-- An FMT channel without a control byte and a RAW channel with one; a queue with room and a full one. -/
theorem witness_RouteMisc :
    let s := ipcK []
    let full := s.setChan 5 ⟨[[1], [2], [3], [4]], []⟩
    s.cfg.chan? 1 = some ⟨1, .fmt, .misc, some 0⟩ ∧ s.cfg.chan? 5 = some ⟨5, .raw, .misc, some 0⟩ ∧
    ChanKind.raw ≠ .cmd ∧ (ChanKind.raw = .fmt → some (⟨true, 2⟩ : Ctl) = none) ∧ Delivery.misc = .misc ∧
    (s.chan 5).rxq.length ≠ s.cfg.rxqDepth ∧ (full.chan 5).rxq.length = full.cfg.rxqDepth := by decide +kernel

theorem witness_RouteNet :
    (ipcK []).cfg.chan? 10 = some ⟨10, .raw, .net, some 0⟩ ∧ ChanKind.raw ≠ .cmd ∧
    (ChanKind.raw = .fmt → (none : Option Ctl) = none) ∧
    (∃ b q, ([0x45] : Bytes) = b :: q ∧ (b.extractLsb' 4 4 = 4 ∨ b.extractLsb' 4 4 = 6)) ∧
    (∃ b q, ([0x6F, 0x00] : Bytes) = b :: q ∧ (b.extractLsb' 4 4 = 4 ∨ b.extractLsb' 4 4 = 6)) ∧
    ¬ (∃ b q, ([] : Bytes) = b :: q ∧ (b.extractLsb' 4 4 = 4 ∨ b.extractLsb' 4 4 = 6)) :=
  ⟨by decide +kernel, by decide, fun _ => rfl, ⟨0x45, [], rfl, by decide⟩, ⟨0x6F, [0x00], rfl, by decide⟩, by simp⟩

theorem witness_RouteFragments :
    (ipcK []).cfg.chan? 1 = some ⟨1, .fmt, .misc, some 0⟩ ∧ (⟨true, 127⟩ : Ctl).more = true ∧
    (⟨false, 0⟩ : Ctl).more = false := by decide +kernel

theorem witness_RxRead :
    let s := (ipcK []).setChan 5 ⟨[hello], []⟩
    (∀ cc, s.cfg.chan? 10 = some cc → cc.delivery = .net) ∧ (∀ cc, s.cfg.chan? 9 = some cc → cc.delivery = .net) ∧
    s.cfg.chan? 1 = some ⟨1, .fmt, .misc, some 0⟩ ∧ (s.chan 1).rxq = [] ∧
    s.cfg.chan? 5 = some ⟨5, .raw, .misc, some 0⟩ ∧ (s.chan 5).rxq = hello :: [] := by
  refine ⟨fun cc h => ?_, fun cc h => ?_, by decide +kernel, by decide +kernel, by decide +kernel, by decide +kernel⟩
  · cases h; rfl
  · cases h

theorem witness_ChannelReset :
    Config.testK.chan? 9 = none ∧ Config.testK.chan? 1 = some ⟨1, .fmt, .misc, some 0⟩ ∧
    Config.testK.chan? 10 = some ⟨10, .raw, .net, some 0⟩ := by decide +kernel

theorem witness_UsedAndFree :
    let p : Snapshot := ⟨3, 10, 16⟩
    let full : Snapshot := ⟨15, 0, 16⟩
    p.head < p.size ∧ p.tail < p.size ∧ full.head < full.size ∧ full.tail < full.size := by decide

/-- Both modes of each group, with both timers armed. -/
theorem witness_ModeGates :
    let s : LinkMode → State := fun m => (machine Config.testK m []).setRing 0 ⟨[], false, .armed, false, .posted⟩
    ((s .offline).mode = .offline ∨ (s .offline).mode = .uload) ∧ ((s .uload).mode = .offline ∨ (s .uload).mode = .uload) ∧
    ((s .boot).mode = .boot ∨ (s .boot).mode = .dload) ∧ ((s .dload).mode = .boot ∨ (s .dload).mode = .dload) ∧
    (s .boot).cfg.ring? 0 = some Config.ringK ∧ (s .boot).cfg.fits = true ∧
    ((s .boot).ring 0).retry ≠ .off ∧ ((s .boot).ring 0).ackWait ≠ .off := by decide +kernel

theorem witness_Sipc4 :
    let s := machine { Config.testK with framing := .sipc4 } .ipc []
    s.cfg.framing = .sipc4 ∧ s.mode = .ipc ∧ s.cfg.fits = true ∧
    s.cfg.chan? 5 = some ⟨5, .raw, .misc, some 0⟩ ∧ ChanKind.raw ≠ .cmd ∧ s.cfg.ring? 0 = some Config.ringK := by
  decide +kernel

/-- An unknown and a CMD channel; a frame of 16 and of 15 bytes in a ring of 16; a full queue and one with room; a frame
that cannot be encoded is too long to write out, its length bound is `witness_BuildHeader`. -/
theorem witness_TxEnqueue :
    let s := machine config16 .ipc []
    let full := s.setRing 0 ⟨[[1], [2], [3], [4]], false, .off, false, .off⟩
    s.mode = .ipc ∧ s.cfg.framing = .sipc5 ∧
    (∀ cc, s.cfg.chan? 9 = some cc → cc.kind = .cmd) ∧ (∀ cc, s.cfg.chan? 2 = some cc → cc.kind = .cmd) ∧
    s.cfg.chan? 5 = some ⟨5, .raw, .misc, some 0⟩ ∧ (s.cfg.ring? 0).isSome = true ∧
    (∃ f, frameBuild 5 (List.replicate 12 0) false none = .ok f ∧ 16 - 1 < f.length) ∧
    (∃ f, frameBuild 5 (List.replicate 11 0) false none = .ok f ∧ f.length ≤ 16 - 1) ∧
    (full.ring 0).txq.length = full.cfg.txqDepth ∧ (s.ring 0).txq.length ≠ s.cfg.txqDepth := by
  refine ⟨rfl, rfl, fun cc h => ?_, fun cc h => ?_, by decide +kernel, by decide +kernel,
    ⟨[0x80, 5, 16, 0] ++ List.replicate 12 0, by decide +kernel, by decide⟩,
    ⟨[0x80, 5, 15, 0] ++ List.replicate 11 0, by decide +kernel, by decide⟩, by decide +kernel, by decide +kernel⟩
  · cases h
  · cases h; rfl

/-- A corrupt TX direction and a corrupt RX direction at the first index out of range, and the last one in range. -/
theorem witness_Occupancy :
    let s := ipcK (words [(0, 0xAA55AA55), (4, 31), (8, 31), (12, 31), (16, 0)])
    let u := ipcK (words [(0, 0xAA55AA55), (4, 32), (12, 32)])
    s.cfg.ring? 0 = some Config.ringK ∧ s.cfg.fits = true ∧
    s.shm.readLe 0 4 = s.cfg.magic.toNat ∧ s.shm.readLe 4 4 < 32 ∧ s.shm.readLe 8 4 < 32 ∧
    s.shm.readLe 12 4 < 32 ∧ s.shm.readLe 16 4 < 32 ∧ (ipcK []).shm.readLe 0 4 ≠ s.cfg.magic.toNat ∧
    32 ≤ u.shm.readLe 4 4 ∧ 32 ≤ u.shm.readLe 12 4 := by decide +kernel

theorem witness_XmitAndRetry :
    let e := ipcK []
    let s := e.setRing 0 ⟨[helloFrame], false, .posted, false, .off⟩
    let a := e.setRing 0 ⟨[], true, .armed, false, .off⟩
    e.mode = .ipc ∧ e.cfg.ring? 0 = some Config.ringK ∧ (e.ring 0).txq = [] ∧ (e.ring 0).retry = .off ∧
    (s.ring 0).txq ≠ [] ∧ (s.ring 0).retry ≠ .off ∧ (a.ring 0).txq = [] ∧ (a.ring 0).retry ≠ .off ∧
    State.reset.mode = .offline ∧ State.reset.cfg.ring? 0 = some Config.ringK ∧ (State.reset.ring 0).retry = .off := by
  decide +kernel

/-- The premises of both statements about a completing XMIT, with a queue whose second frame does not fit. -/
theorem witness_XmitSends :
    let s : State := { (ipcK (words [(0, 0xAA55AA55), (4, 21)])).setRing 0
      ⟨[[1, 2, 3, 4, 5, 6], List.replicate 20 0, [7]], false, .off, false, .off⟩ with busy := some ⟨1, .xmit 0, .retryTimer⟩ }
    s.cfg.wf = true ∧ s.cfg.ring? 0 = some Config.ringK ∧ s.busy = some ⟨1, .xmit 0, .retryTimer⟩ ∧
    s.shm.readLe s.cfg.magicAddr 4 = s.cfg.magic.toNat ∧ s.shm.readLe Config.ringK.txHead 4 < 32 ∧
    s.shm.readLe Config.ringK.txTail 4 < 32 := by decide +kernel

theorem witness_ResAck :
    let s : Nat → State := fun h =>
      (ipcK (words [(4, h), (8, 7)])).setRing 0 ⟨[helloFrame], true, .off, false, .armed⟩
    (s 7).mode = .ipc ∧ (s 7).cfg.ring? 0 = some Config.ringK ∧ (s 7).cfg.fits = true ∧ ((s 7).ring 0).ackWait ≠ .off ∧
    (s 7).shm.readLe 4 4 = (s 7).shm.readLe 8 4 ∧ (s 9).shm.readLe 4 4 ≠ (s 9).shm.readLe 8 4 ∧
    ((ipcK []).ring 0).ackWait = .off ∧ State.reset.mode = .offline ∧ State.reset.cfg.fits = true ∧
    (State.reset.ring 0).ackWait = .off := by decide +kernel

/-- A clean drain, one that ends with a partial frame that just fits, one that meets a frame one byte too long for the
ring, a malformed header, and an index out of range. -/
theorem witness_RxDrain :
    let s : Bytes → State := fun b => ipcK (Memory.ringPut 0x040 32 (words [(12, b.length)]) 0 b)
    let ends : Bytes → SplitEnd := fun b =>
      (split (Memory.ringTake 0x040 32 (s b).shm 0 ((b.length + (32 - 0)) % 32))).ending
    (s helloFrame).mode = .ipc ∧ (s helloFrame).cfg.framing = .sipc5 ∧ (s helloFrame).cfg.wf = true ∧
    (s helloFrame).cfg.fits = true ∧ (s helloFrame).cfg.ring? 0 = some Config.ringK ∧
    (s helloFrame).shm.readLe 12 4 < 32 ∧ (s helloFrame).shm.readLe 16 4 < 32 ∧
    ends helloFrame = .clean ∧ ends [0x80, 0x05, 31, 0x00] = .partialFrame 31 ∧ 31 ≤ 32 - 1 ∧
    ends [0x80, 0x05, 32, 0x00] = .partialFrame 32 ∧ 32 - 1 < 32 ∧ ends [0x00] = .malformed (.badConfig 0x00) ∧
    32 ≤ (ipcK (words [(12, 32)])).shm.readLe 12 4 := by decide +kernel

theorem witness_ReqAck : (ipcK []).mode = .ipc ∧ (ipcK []).cfg.fits = true ∧
    (ipcK []).cfg.ring? 0 = some Config.ringK := by decide +kernel

theorem witness_ForbidSleep : ∀ r, Origin.xmit 0 = .xmit r → (ipcK []).cfg.ring? r = some Config.ringK := by
  intro r h
  cases h
  rfl

/-- The last read and the one before it, on a live and on a dead link. -/
theorem witness_HostPoll :
    let s : Nat → Memory → State := fun k m => { ipcK m with busy := some ⟨k, .host, .host⟩ }
    (s 1 live).cfg.fits = true ∧ 1 ≤ 1 ∧ (s 1 live).busy = some ⟨1, .host, .host⟩ ∧
    (s 1 live).shm.readLe 0 4 = (s 1 live).cfg.magic.toNat ∧ (s 2 []).busy = some ⟨2, .host, .host⟩ ∧
    (s 2 []).shm.readLe 0 4 ≠ (s 2 []).cfg.magic.toNat ∧ 2 ≤ 2 := by decide +kernel

theorem witness_XmitThatCannotSend :
    let s : Nat → Memory → State := fun k m => { ipcK m with busy := some ⟨k, .xmit 0, .host⟩ }
    let m := words [(0, 0xAA55AA55), (4, 32)]
    (s 1 m).cfg.fits = true ∧ (s 1 m).cfg.ring? 0 = some Config.ringK ∧ (s 1 m).busy = some ⟨1, .xmit 0, .host⟩ ∧
    (s 1 m).shm.readLe 0 4 = (s 1 m).cfg.magic.toNat ∧ 32 ≤ (s 1 m).shm.readLe 4 4 ∧
    (s 2 []).busy = some ⟨2, .xmit 0, .host⟩ ∧ (s 2 []).shm.readLe 0 4 ≠ (s 2 []).cfg.magic.toNat ∧
    State.busy { s 1 [] with busy := some ⟨1, .xmit 0, .retryTimer⟩ } = some ⟨1, .xmit 0, .retryTimer⟩ := by decide +kernel

theorem witness_PermitSleep :
    let s : Nat → State := fun n => { ipcK [] with pm := { Pm.init with refCnt := n } }
    (s 2).pm.refCnt = 0 + 2 ∧ (s 1).pm.refCnt = 1 ∧ (s 0).pm.refCnt = 0 := by decide +kernel

/-- Each of the three reasons to reschedule on its own, and none of them. -/
theorem witness_SleepTimer :
    let s : Pm → State := fun p => { ipcK [] with pm := p }
    let free := s ⟨0, true, true, .posted, .off, 0, 0⟩
    let flagged := free.setRing 0 ⟨[], true, .off, false, .off⟩
    State.reset.pm.sleep = .off ∧ free.pm.sleep ≠ .off ∧ 0 < (s ⟨1, true, true, .armed, .off, 0, 0⟩).pm.refCnt ∧
    (s ⟨0, true, true, .armed, .off, 1, 0⟩).pm.wakeGen ≠ (s ⟨0, true, true, .armed, .off, 1, 0⟩).pm.sleepGen ∧
    (∃ rc ∈ flagged.cfg.rings, (flagged.ring rc.id).resRequired = true) ∧
    ¬ (0 < free.pm.refCnt ∨ free.pm.wakeGen ≠ free.pm.sleepGen ∨
      ∃ rc ∈ free.cfg.rings, (free.ring rc.id).resRequired = true) := by decide +kernel

theorem witness_LinkoffTimer :
    let s : Pm → State := fun p => { ipcK [] with pm := p }
    let free := s ⟨0, true, false, .off, .posted, 0, 0⟩
    State.reset.pm.linkoff = .off ∧ free.pm.linkoff ≠ .off ∧ (s ⟨0, true, true, .off, .armed, 0, 0⟩).pm.cpWakeup = true ∧
    ¬ (0 < free.pm.refCnt ∨ free.pm.cpWakeup = true) ∧ State.cpStatus { free with cpStatus := true } = true ∧
    ¬ (free.cpStatus = true ∨ free.apWakeup = true) := by decide +kernel

theorem witness_MbxIrqForwards :
    let s : LinkMode → State := fun m => machine Config.testK m []
    (∃ w ∈ (s .ipc).cfg.cmdRows, (0x8000 : U16) &&& w.mask = w.value) ∧
    ¬ (∃ w ∈ (s .ipc).cfg.cmdRows, (0x7FFF : U16) &&& w.mask = w.value) ∧
    ((s .uload).mode = .offline ∨ (s .uload).mode = .uload) ∧ ((s .dload).mode = .boot ∨ (s .dload).mode = .dload) ∧
    Config.mbxStray { Config.testK with mbxRows := [⟨0x8040, 0x0040, 9, .data⟩] } 0x0040 = true ∧
    Config.testK.mbxStray 0x0007 = false := by
  decide +kernel

/-- A value that asks for every pair of two rings, and one that names a ring outside `P_RINGS`. -/
theorem witness_MbxIrqDispatch :
    let s := machine config2 .ipc []
    s.cfg.wf = true ∧ s.mode = .ipc ∧ s.cfg.isCmd 0x003F = false ∧
    mbxWork s.cfg 0x003F = [.rxDrain 0, .mbxReqAck 0, .mbxResAck 0, .rxDrain 7, .mbxReqAck 7, .mbxResAck 7] ∧
    Config.mbxStray { s.cfg with mbxRows := ⟨0x8040, 0x0040, 9, .data⟩ :: s.cfg.mbxRows } 0x0040 = true := by
  decide +kernel

theorem witness_SetModeAndFlushTx : (Config.testK.ring? 0).isSome = true ∧ (Config.testK.ring? 1).isSome = false := by
  decide +kernel

theorem witness_InvariantsAtReset : Memory.wf [(0, 0x55), (0x05F, 1)] ∧
    ∀ x ∈ ([(0, 0x55), (0x05F, 1)] : Memory), x.1 < Config.testK.shmSize := by decide +kernel

/-- A state with a hold, a poll, a queued frame and listed bytes, whose step answers a next state. -/
def busyState : State :=
  { (ipcK live).setRing 0 ⟨[helloFrame], false, .off, false, .off⟩ with
    busy := some ⟨3, .xmit 0, .host⟩
    pm := ⟨1, true, true, .off, .off, 0, 0⟩
    history := [.gpio .apStatus true, .gpio .cpWakeup true] }

theorem busyState_steps : ∃ t, step busyState = .next t := ⟨_, rfl⟩

theorem witness_StepInvariants :
    busyState.shm.wf ∧ SMap.wf false busyState.rxWritten ∧ busyState.cfg.wf = true ∧ busyState.schedule = [] ∧
    (∀ c ∈ busyState.shm, c.1 < busyState.cfg.shmSize) ∧ (∀ c ∈ busyState.chans, SMap.wf none c.2.reasm) ∧
    SMap.wf RingState.init busyState.rings ∧ SMap.wf ChanState.init busyState.chans := by decide +kernel

theorem witness_StepKeepsHoldersAwake : busyState.pmSafe := by
  unfold State.pmSafe
  decide +kernel

/-- The release that ends in `cp_wakeup` low. -/
theorem witness_CpWakeupFalls :
    let s : State := { ipcK [] with inbox := [.sleepTimerFire], pm := ⟨0, true, true, .posted, .off, 0, 0⟩ }
    ∃ t, step s = .next t ∧ s.pm.cpWakeup = true ∧ t.pm.cpWakeup = false := ⟨_, rfl, rfl, rfl⟩

/-- A byte of TX data and a byte of TXHEAD that the step changes. -/
theorem witness_NoTxWithoutWake :
    ∃ t, step busyState = .next t ∧ busyState.cfg.wf = true ∧ Config.ringK ∈ busyState.cfg.rings ∧
      busyState.schedule = [] ∧ t.shm.read 0x020 ≠ busyState.shm.read 0x020 ∧
      t.shm.read 0x004 ≠ busyState.shm.read 0x004 :=
  ⟨_, rfl, by decide +kernel, by decide +kernel, rfl, by decide +kernel, by decide +kernel⟩

theorem witness_QueuesBounded : busyState.queuesBounded := by
  refine ⟨by decide +kernel, fun ch => ?_⟩
  have : busyState.chan ch = ChanState.init := rfl
  rw [this]
  decide

theorem witness_IndicesInRange : busyState.indicesInRange ∧
    ∃ t, step busyState = .next t ∧ t.fault.remoteDutyBroken = false := by
  unfold State.indicesInRange
  exact ⟨by decide +kernel, _, rfl, rfl⟩

theorem witness_RecoveriesCounted : busyState.recoveriesCounted := by
  unfold State.recoveriesCounted
  decide +kernel

theorem witness_LinesRecorded : busyState.linesRecorded := by
  intro l
  cases l <;> rfl

/-- A step that sets the refusal mark and one that changes the mode. -/
theorem witness_Marks :
    let s : State := { machine Config.testK .boot [] with inbox := [.xmit 0, .setMode .ipc] }
    ∃ t u, step s = .next t ∧ t.refused = true ∧ step t = .next u ∧ u.mode ≠ t.mode ∧ u.refused = true :=
  ⟨_, _, rfl, rfl, rfl, by decide +kernel, rfl⟩

theorem witness_NoOperationStops : Config.testK.wf = true ∧ config2.wf = true := by decide +kernel

theorem witness_IllTyped :
    let c := State.reset.cfg
    c.ring? 1 = none ∧ (0x7F : Byte).getLsbD 7 = false ∧ Hdr.wf ⟨5, 3, 4, false, false, false, none⟩ = false ∧
    (Instr.sipc5Hdr4 0x7F 5 4 []).wf c = false ∧ (Instr.sipc5Hdr5Ctl 0xB0 5 6 0 []).wf c = false ∧
    (Instr.sipc5Hdr6Ext 0xB0 5 6 []).wf c = false ∧ (Instr.sipc5BadConfig 0x80).wf c = false := by decide +kernel

end Sys2Proof.Tests
end

section
/-! PROOFS. The statements about the state (10_state.md): whose turn a step is, the reset values, the bounds of the queues, the
sticky marks. -/

namespace Sys2Proof.Machine

/-! Sequencing (10_state.md R22, R23). -/

theorem step_of_schedule_nil {s : State} (h : s.schedule = []) : step s = blkTurn s := by
  simp only [step, nextTurn, h]

theorem step_of_schedule_blk {s : State} {ms : List Move} (h : s.schedule = .blk :: ms) :
    step s = blkTurn { s with schedule := ms } := by
  simp only [step, nextTurn, h]

theorem step_of_schedule_agent {s : State} {m : Move} {ms : List Move} (h : s.schedule = m :: ms) (hm : m ≠ .blk) :
    step s = .next (agentTurn m { s with schedule := ms }) := by
  simp only [step, nextTurn, h]

theorem blkTurn_of_poll {s : State} {p : Poll} (h : s.busy = some p) : blkTurn s = exec .pollStep s := by
  simp only [blkTurn, fetch, h]

theorem blkTurn_of_idle {s : State} (hb : s.busy = none) (hq : s.inbox = []) : blkTurn s = .next s := by
  simp only [blkTurn, fetch, hb, hq]

theorem blkTurn_of_inbox {s : State} {i : Instr} {q : List Instr} (hb : s.busy = none) (hq : s.inbox = i :: q) :
    blkTurn s = exec i { s with inbox := q, history := s.history ++ [.input i] } := by
  simp only [blkTurn, fetch, hb, hq, State.emit]

theorem place_of_ne_pollStep {i : Instr} (s : State) (h : i ≠ .pollStep) :
    place i s = { s with busy := none, inbox := i :: s.inbox, schedule := .blk :: s.schedule } := by
  unfold place
  split
  · exact absurd rfl h
  · rfl

theorem withFetchWord_of_decode (s : State) {nbits w : Nat} {i : Instr} (h : decodeTableWord nbits w = some i) :
    s.withFetchWord nbits w = place i s := by
  simp only [State.withFetchWord, h]

/-- Settles O13: the schedule says whose turn it is, `busy` and the inbox what BLK fetches in it. -/
theorem stepPerformsTheInboxHeadOrThePoll : Obligations.StepPerformsTheInboxHeadOrThePoll := by
  refine ⟨fun s i q ms hb hq => ⟨fun h => ?_, fun h => ?_⟩, fun s p ms hp => ⟨fun h => ?_, fun h => ?_⟩,
    fun s ms hb hq => ⟨fun h => ?_, fun h => ?_⟩, fun s nbits w i hd hi => ?_, fun s nbits w hd => ?_⟩
  · exact (step_of_schedule_nil h).trans (blkTurn_of_inbox hb hq)
  · exact (step_of_schedule_blk h).trans (blkTurn_of_inbox hb hq)
  · exact (step_of_schedule_nil h).trans (blkTurn_of_poll hp)
  · exact (step_of_schedule_blk h).trans (blkTurn_of_poll hp)
  · exact (step_of_schedule_nil h).trans (blkTurn_of_idle hb hq)
  · exact (step_of_schedule_blk h).trans (blkTurn_of_idle hb hq)
  · rw [withFetchWord_of_decode s hd, place_of_ne_pollStep s hi]
    exact (step_of_schedule_blk rfl).trans (blkTurn_of_inbox rfl rfl)
  · rw [withFetchWord_of_decode s hd]
    exact (step_of_schedule_blk rfl).trans (blkTurn_of_poll rfl)

/-! Reset (10_state.md R49). -/

section
variable (c : Config) (m : Memory) (a b : Bool)

/-- With no entry listed, each ring and each channel reads as its reset value (assumption 25). -/
@[simp] theorem State.resetWith_ring (r : RingId) : (State.resetWith c m a b).ring r = RingState.init := rfl

@[simp] theorem State.resetWith_chan (ch : ChanId) : (State.resetWith c m a b).chan ch = ChanState.init := rfl

theorem State.resetWith_canonical (hm : m.wf) : (State.resetWith c m a b).canonical :=
  ⟨hm, SMap.nil_wf _, SMap.nil_wf _, SMap.nil_wf _, fun _ h => absurd h List.not_mem_nil⟩

/-- No holder and no timer, and both lines low. -/
theorem State.resetWith_pmSafe : (State.resetWith c m a b).pmSafe := by
  simp [State.pmSafe, State.resetWith, Pm.init, Timer.isArmed]

theorem State.resetWith_queuesBounded : (State.resetWith c m a b).queuesBounded := by
  simp [State.queuesBounded, RingState.init, ChanState.init]

end

/-- Settles O47. -/
theorem resetValues : Obligations.ResetValues := by
  refine ⟨fun c m a b => ?_, Config.testK, [], false, false, rfl⟩
  have counters : ∀ k, (State.resetWith c m a b).cnt.get k = 0 := fun k => by cases k <;> rfl
  refine ⟨rfl, rfl, rfl, fun r => ?_, fun ch => ?_, rfl, rfl, rfl, rfl, rfl, rfl, rfl, counters, rfl, rfl, rfl, rfl,
    rfl, rfl, rfl, rfl⟩
  · rw [State.resetWith_ring]
    exact ⟨rfl, rfl, rfl, rfl, rfl⟩
  · rw [State.resetWith_chan]
    exact ⟨rfl, fun _ => rfl⟩

/-- Settles O48. -/
theorem invariantsHoldAtReset : Obligations.InvariantsHoldAtReset := by
  intro c m a b hm hi
  have lines : (State.resetWith c m a b).linesRecorded := fun l => by cases l <;> rfl
  exact ⟨State.resetWith_canonical c m a b hm, hi, State.resetWith_pmSafe c m a b,
    State.resetWith_queuesBounded c m a b, rfl, lines, rfl, rfl⟩

/-! The bounds of the queues (10_state.md R25, R29, 42_ring.md R172). -/

/-- The bounds speak of the queues and the configuration only. -/
theorem State.queuesBounded.of_same {s t : State} (h : s.queuesBounded) (hc : t.cfg = s.cfg)
    (hr : ∀ r, (t.ring r).txq = (s.ring r).txq) (hx : ∀ ch, (t.chan ch).rxq = (s.chan ch).rxq) :
    t.queuesBounded := by
  simpa only [State.queuesBounded, hc, hr, hx] using h

theorem State.queuesBounded.setRing {s : State} (h : s.queuesBounded) (hw : s.cfg.wf = true) {r : RingId}
    {v : RingState} (hv : QueueKept s r v) : (s.setRing r v).queuesBounded := by
  obtain ⟨hrings, hchans⟩ := h
  refine ⟨fun rc hrc => ?_, fun ch => by simpa using hchans ch⟩
  rw [State.ring_setRing]
  split
  · next e => exact hv hw rc hrc e.symm (e ▸ hrings rc hrc)
  · exact hrings rc hrc

theorem State.queuesBounded.setChan {s : State} (h : s.queuesBounded) {ch : ChanId} {v : ChanState}
    (hv : ChanKept s ch v) : (s.setChan ch v).queuesBounded := by
  obtain ⟨hrings, hchans⟩ := h
  refine ⟨fun rc hrc => by simpa using hrings rc hrc, fun ch' => ?_⟩
  by_cases e : ch' = ch
  · rw [e, State.chan_setChan_self]
    exact hv.1 (hchans ch)
  · rw [State.chan_setChan_ne _ _ e]
    exact hchans ch'

theorem Act.keeps_queuesBounded {i : Instr} {s0 s t : State} (h : Act i s0 s t) (hw : s.cfg.wf = true)
    (hb : s.queuesBounded) : t.queuesBounded := by
  cases h with
  | ring r v hv => exact hb.setRing hw hv
  | chan ch v hv => exact hb.setChan hv
  | hold o who => rw [forbid_eq]; exact hb.of_same rfl (fun _ => rfl) fun _ => rfl
  | sleep _ _ => rw [sleepTimerFire_frame]; exact hb.of_same rfl (fun _ => rfl) fun _ => rfl
  | linkoff => rw [linkoffTimerFire_frame]; exact hb.of_same rfl (fun _ => rfl) fun _ => rfl
  | wake level => rw [apWakeupEdge_frame]; exact hb.of_same rfl (fun _ => rfl) fun _ => rfl
  | status level => rw [cpStatusEdge_frame]; exact hb.of_same rfl (fun _ => rfl) fun _ => rfl
  | _ => exact hb.of_same rfl (fun _ => rfl) fun _ => rfl

theorem agentTurn_keeps_queuesBounded (m : Move) {s : State} (hb : s.queuesBounded) :
    (agentTurn m s).queuesBounded := by
  obtain ⟨hcfg, -, -, hchans, -⟩ := agentTurn_env m s
  refine hb.of_same hcfg (fun r => (agentTurn_ring m s r).1) fun ch => ?_
  simp only [State.chan, hchans]

/-- Settles O53: the bounds, in a well-formed configuration, hold across each turn and each act. -/
theorem stepKeepsTheQueuesBounded : Obligations.StepKeepsTheQueuesBounded := by
  intro s t hw hb h
  refine (step_lift (P := fun u => u.cfg.wf = true ∧ u.queuesBounded) h ⟨hw, hb⟩ ?agent ?turn ?take ?act).2
  case agent =>
    rintro m ms ⟨hw, hb⟩
    exact ⟨(congrArg Config.wf (agentTurn_env m _).1).trans hw, agentTurn_keeps_queuesBounded m hb⟩
  case turn => exact fun _ hu => hu
  case take => exact fun _ _ _ hu => hu
  case act =>
    rintro i s0 u v a ⟨hw, hb⟩
    exact ⟨(congrArg Config.wf a.env.1).trans hw, a.keeps_queuesBounded hw hb⟩

/-! The marks, the configuration and the mode (10_state.md R24, R42, R43). -/

/-- From `s` to `t` no refusal mark and no fault reason is lost. -/
def MarksKept (s t : State) : Prop :=
  (s.refused = true → t.refused = true) ∧
  (s.fault.remoteDutyBroken = true → t.fault.remoteDutyBroken = true) ∧
  (s.fault.hostDutyBroken = true → t.fault.hostDutyBroken = true)

theorem MarksKept.of_same {s t : State} (hr : t.refused = s.refused) (hf : t.fault = s.fault) : MarksKept s t := by
  unfold MarksKept
  rw [hr, hf]
  exact ⟨id, id, id⟩

theorem MarksKept.trans {s t u : State} (h : MarksKept s t) (g : MarksKept t u) : MarksKept s u := by
  obtain ⟨hr, hc, hh⟩ := h
  obtain ⟨gr, gc, gh⟩ := g
  exact ⟨gr ∘ hr, gc ∘ hc, gh ∘ hh⟩

theorem marksKept_addFault (s : State) (d : DutyReason) : MarksKept s (s.addFault d) := by
  cases d
  · exact ⟨id, fun _ => rfl, id⟩
  · exact ⟨id, id, fun _ => rfl⟩

theorem Act.marksKept {i : Instr} {s0 s t : State} (h : Act i s0 s t) : MarksKept s t := by
  cases h with
  | refuse => exact ⟨fun _ => rfl, id, id⟩
  | breach d => exact marksKept_addFault s d
  | hold o who => rw [forbid_eq]; exact .of_same rfl rfl
  | sleep _ _ => rw [sleepTimerFire_frame]; exact .of_same rfl rfl
  | linkoff => rw [linkoffTimerFire_frame]; exact .of_same rfl rfl
  | wake level => rw [apWakeupEdge_frame]; exact .of_same rfl rfl
  | status level => rw [cpStatusEdge_frame]; exact .of_same rfl rfl
  | _ => exact .of_same rfl rfl

theorem agentTurn_marksKept (m : Move) (s : State) : MarksKept s (agentTurn m s) := by
  obtain ⟨-, -, -, -, -, hrefused, -⟩ := agentTurn_env m s
  obtain ⟨hremote, hhost⟩ := agentTurn_fault m s
  exact ⟨fun h => hrefused ▸ h, hremote, fun h => hhost ▸ h⟩

theorem step_cfg_and_marksKept {s t : State} (h : step s = .next t) : t.cfg = s.cfg ∧ MarksKept s t := by
  refine step_lift (P := fun u => u.cfg = s.cfg ∧ MarksKept s u) h ⟨rfl, .of_same rfl rfl⟩ ?agent ?turn ?take ?act
  case agent =>
    rintro m ms ⟨hc, hk⟩
    exact ⟨(agentTurn_env m _).1.trans hc, hk.trans (agentTurn_marksKept m { s with schedule := ms })⟩
  case turn => exact fun _ hu => hu
  case take => exact fun _ _ _ hu => hu
  case act =>
    rintro i s0 u v a ⟨hc, hk⟩
    exact ⟨a.env.1.trans hc, hk.trans a.marksKept⟩

/-- Only SET_MODE writes the mode, and it writes its operand. -/
theorem Act.mode_same_or_setMode {i : Instr} {s0 s t : State} (h : Act i s0 s t) :
    t.mode = s.mode ∨ i = .setMode t.mode := by
  cases h with
  | mode m hi => exact .inr hi
  | hold o who => rw [forbid_eq]; exact .inl rfl
  | sleep _ _ => rw [sleepTimerFire_frame]; exact .inl rfl
  | linkoff => rw [linkoffTimerFire_frame]; exact .inl rfl
  | wake level => rw [apWakeupEdge_frame]; exact .inl rfl
  | status level => rw [cpStatusEdge_frame]; exact .inl rfl
  | _ => exact .inl rfl

theorem Acts.mode_same_or_setMode {i : Instr} {s0 s t : State} (h : Acts i s0 s t) :
    t.mode = s.mode ∨ i = .setMode t.mode := by
  refine h.lift (R := fun u v => v.mode = u.mode ∨ i = .setMode v.mode) (fun _ => .inl rfl) (fun {u v w} f g => ?_)
    Act.mode_same_or_setMode
  rcases g with g | g
  · rwa [g]
  · exact .inr g

theorem step_mode {s t : State} (h : step s = .next t) (hne : t.mode ≠ s.mode) :
    s.busy = none ∧ s.inbox.head? = some (.setMode t.mode) := by
  rcases step_cases h with ⟨m, ms, -, -, rfl⟩ | ⟨ms, -, -, -, rfl⟩ | ⟨ms, p, -, -, he⟩ | ⟨ms, i, q, -, hb, hq, he⟩
  · obtain ⟨-, -, hmode, -⟩ := agentTurn_env m { s with schedule := ms }
    exact absurd hmode hne
  · exact absurd rfl hne
  · have ha := exec_acts _ { s with schedule := ms } t (.inl rfl) he
    rcases ha.mode_same_or_setMode with e | e
    · exact absurd e hne
    · cases e
  · have ha := exec_acts i (taken s ms i q) t (.inr hb) he
    rcases ha.mode_same_or_setMode with e | e
    · exact absurd e hne
    · exact ⟨hb, by rw [hq, List.head?_cons, ← e]⟩

/-- Settles O58. -/
theorem marksAreStickyAndTheConfigurationFixed : Obligations.MarksAreStickyAndTheConfigurationFixed := by
  intro s t h
  obtain ⟨hcfg, hrefused, hremote, hhost⟩ := step_cfg_and_marksKept h
  exact ⟨hcfg, hrefused, hremote, hhost, step_mode h⟩

end Sys2Proof.Machine
end

section
/-! PROOFS. The history is read for nothing (10_state.md R48): with older entries in front of the history, every operation and every
turn leaves the same state with the same older entries in front. -/

namespace Sys2Proof.Machine

/-- The state with older entries `h` in front of its history. -/
def State.withPast (h : List HistEvent) (s : State) : State :=
  { s with history := h ++ s.history }

/-- An answer with older entries `h` in front of the history of the state it leaves. -/
def answerWithPast (h : List HistEvent) : Answer → Answer
  | .next s => .next (s.withPast h)
  | .fault f => .fault f
  | .refused r => .refused r

section
variable (h : List HistEvent) (s : State)

@[simp] theorem answerWithPast_next : answerWithPast h (.next s) = .next (s.withPast h) := rfl
@[simp] theorem answerWithPast_fault (f : Fault) : answerWithPast h (.fault f) = .fault f := rfl

/-! What is read of a state, but its history, is the same. -/

@[simp] theorem State.withPast_cfg : (s.withPast h).cfg = s.cfg := rfl
@[simp] theorem State.withPast_inbox : (s.withPast h).inbox = s.inbox := rfl
@[simp] theorem State.withPast_busy : (s.withPast h).busy = s.busy := rfl
@[simp] theorem State.withPast_mode : (s.withPast h).mode = s.mode := rfl
@[simp] theorem State.withPast_pm : (s.withPast h).pm = s.pm := rfl
@[simp] theorem State.withPast_history : (s.withPast h).history = h ++ s.history := rfl
@[simp] theorem State.withPast_shm : (s.withPast h).shm = s.shm := rfl
@[simp] theorem State.withPast_apWakeup : (s.withPast h).apWakeup = s.apWakeup := rfl
@[simp] theorem State.withPast_cpStatus : (s.withPast h).cpStatus = s.cpStatus := rfl
@[simp] theorem State.withPast_rxWritten : (s.withPast h).rxWritten = s.rxWritten := rfl
@[simp] theorem State.withPast_schedule : (s.withPast h).schedule = s.schedule := rfl
@[simp] theorem State.withPast_ring (r : RingId) : (s.withPast h).ring r = s.ring r := rfl
@[simp] theorem State.withPast_chan (ch : ChanId) : (s.withPast h).chan ch = s.chan ch := rfl
@[simp] theorem State.withPast_word (a : Nat) : (s.withPast h).word a = s.word a := rfl
@[simp] theorem State.withPast_txSnap (rc : RingCfg) : (s.withPast h).txSnap rc = s.txSnap rc := rfl
@[simp] theorem State.withPast_rxSnap (rc : RingCfg) : (s.withPast h).rxSnap rc = s.rxSnap rc := rfl
@[simp] theorem State.withPast_magicOk : (s.withPast h).magicOk = s.magicOk := rfl
@[simp] theorem State.withPast_anyResRequired : (s.withPast h).anyResRequired = s.anyResRequired := rfl
@[simp] theorem rxBytes_withPast (rc : RingCfg) : rxBytes rc (s.withPast h) = rxBytes rc s := rfl

/-! Every named update leaves the older entries in front. -/

@[simp] theorem State.withPast_emit (e : HistEvent) : (s.withPast h).emit e = (s.emit e).withPast h := by
  simp [State.emit, State.withPast]
@[simp] theorem State.withPast_settle (i : Instr) (o : OpOutcome) :
    (s.withPast h).settle i o = (s.settle i o).withPast h := State.withPast_emit h s _
@[simp] theorem State.withPast_reply (i : Instr) (o : OpOutcome) :
    (s.withPast h).reply i o = (s.reply i o).withPast h := by
  cases o <;> exact State.withPast_emit h s _
@[simp] theorem State.withPast_setRing (r : RingId) (v : RingState) :
    (s.withPast h).setRing r v = (s.setRing r v).withPast h := rfl
@[simp] theorem State.withPast_setChan (ch : ChanId) (v : ChanState) :
    (s.withPast h).setChan ch v = (s.setChan ch v).withPast h := rfl
@[simp] theorem State.withPast_setWord (a v : Nat) :
    (s.withPast h).setWord a v = (s.setWord a v).withPast h := rfl
@[simp] theorem State.withPast_count (c : Counter) : (s.withPast h).count c = (s.count c).withPast h := rfl
@[simp] theorem State.withPast_requestRecovery (w : RecoveryReason) :
    (s.withPast h).requestRecovery w = (s.requestRecovery w).withPast h := State.withPast_emit h (s.count .recovery) _
@[simp] theorem State.withPast_refuse : (s.withPast h).refuse = s.refuse.withPast h := rfl
@[simp] theorem State.withPast_addFault (d : DutyReason) :
    (s.withPast h).addFault d = (s.addFault d).withPast h := rfl
@[simp] theorem State.withPast_append (i : Instr) : (s.withPast h).append i = (s.append i).withPast h := rfl
@[simp] theorem State.withPast_checkOperand (b : Bool) :
    (s.withPast h).checkOperand b = (s.checkOperand b).withPast h := by
  cases b <;> rfl
@[simp] theorem State.withPast_drive (l : OutLine) (v : Bool) :
    (s.withPast h).drive l v = (s.drive l v).withPast h := by
  unfold State.drive
  by_cases e : s.pm.line l = v
  · rw [if_pos e, State.withPast_pm, if_pos e]
  · rw [if_neg e, State.withPast_pm, if_neg e, ← State.withPast_emit]
    rfl

/-- Older entries come out of a choice between two states. -/
@[simp] theorem ite_withPast (c : Prop) [Decidable c] (t : State) :
    (if c then s.withPast h else t.withPast h) = (if c then s else t).withPast h :=
  (apply_ite (State.withPast h) c s t).symm

/-! The demultiplexer (41_demux.md). -/

@[simp] theorem deliver_withPast (cc : ChanCfg) (ch : ChanId) (d : Bytes) :
    deliver cc ch d (s.withPast h) = ((deliver cc ch d s).1.withPast h, (deliver cc ch d s).2) := by
  unfold deliver deliverNet deliverMisc
  cases cc.delivery with
  | net => by_cases e : ipVersionOk d = true <;> simp [e]
  | misc => by_cases e : (s.chan ch).rxq.length = s.cfg.rxqDepth <;> simp [e]

@[simp] theorem reassemble_withPast (cc : ChanCfg) (ch : ChanId) (c : Ctl) (p : Bytes) :
    reassemble cc ch c p (s.withPast h) =
      ((reassemble cc ch c p s).1.withPast h, (reassemble cc ch c p s).2) := by
  unfold reassemble
  by_cases e : c.more = true <;> simp [e]

@[simp] theorem route_withPast (ch : ChanId) (p : Bytes) (ctl : Option Ctl) :
    route ch p ctl (s.withPast h) = ((route ch p ctl s).1.withPast h, (route ch p ctl s).2) := by
  unfold route
  cases hc : s.cfg.chan? ch with
  | none => simp [hc]
  | some cc =>
    by_cases hk : cc.kind = .cmd
    · simp [hc, hk]
    · cases ctl with
      | none => simp [hc, hk]
      | some c => by_cases hf : cc.kind = .fmt <;> simp [hc, hk, hf]

@[simp] theorem rxRead_withPast (ch : ChanId) :
    rxRead ch (s.withPast h) = ((rxRead ch s).1.withPast h, (rxRead ch s).2) := by
  unfold rxRead
  cases hc : s.cfg.chan? ch with
  | none => simp [hc]
  | some cc =>
    by_cases hd : cc.delivery = .misc
    · cases hq : (s.chan ch).rxq <;> simp [hc, hd, hq]
    · simp [hc, hd]

@[simp] theorem channelReset_withPast (ch : ChanId) :
    channelReset ch (s.withPast h) = ((channelReset ch s).1.withPast h, (channelReset ch s).2) := by
  unfold channelReset
  cases hc : s.cfg.chan? ch <;> simp [hc]

@[simp] theorem routeAll_withPast (fs : List (Hdr × Bytes)) :
    routeAll fs (s.withPast h) = (routeAll fs s).withPast h := by
  induction fs generalizing s with
  | nil => rfl
  | cons f fs ih => simp [routeAll, ih]

/-! Power management (43_pm.md). -/

@[simp] theorem forbid_withPast (o : Origin) (who : Requester) :
    forbid o who (s.withPast h) = (forbid o who s).withPast h := by
  simp only [forbid_eq, State.withPast, List.append_assoc]

@[simp] theorem permit_withPast : permit (s.withPast h) = (permit s).withPast h := rfl

@[simp] theorem permitWithin_withPast : permitWithin (s.withPast h) = (permitWithin s).withPast h := by
  simp [permitWithin]

/-- A change of the power-management state alone leaves the older entries in front. -/
theorem withPast_setPm (p : Pm) : { s.withPast h with pm := p } = { s with pm := p }.withPast h := rfl

@[simp] theorem sleepTimerFire_withPast :
    sleepTimerFire (s.withPast h) = ((sleepTimerFire s).1.withPast h, (sleepTimerFire s).2) := by
  unfold sleepTimerFire
  simp only [State.withPast_pm, withPast_setPm, State.withPast_drive, State.withPast_anyResRequired]
  split
  · split <;> rfl
  · rfl

@[simp] theorem linkoffTimerFire_withPast :
    linkoffTimerFire (s.withPast h) = ((linkoffTimerFire s).1.withPast h, (linkoffTimerFire s).2) := by
  unfold linkoffTimerFire
  simp only [State.withPast_pm, withPast_setPm, State.withPast_drive]
  split
  · split
    · rfl
    · rw [State.withPast_cpStatus, State.withPast_apWakeup]
      split <;> rfl
  · rfl

@[simp] theorem apWakeupEdge_withPast (l : Bool) :
    apWakeupEdge l (s.withPast h) = ((apWakeupEdge l s).1.withPast h, (apWakeupEdge l s).2) := by
  unfold apWakeupEdge
  cases l
  · rfl
  · simp only [if_true, State.withPast_pm, withPast_setPm, State.withPast_drive]
    split <;> rfl

@[simp] theorem cpStatusEdge_withPast (l : Bool) :
    cpStatusEdge l (s.withPast h) = ((cpStatusEdge l s).1.withPast h, (cpStatusEdge l s).2) := by
  unfold cpStatusEdge
  rw [State.withPast_pm]
  split <;> rfl

/-! The ring transport (42_ring.md). -/

@[simp] theorem getTxSpace_withPast (rc : RingCfg) :
    getTxSpace rc (s.withPast h) = ((getTxSpace rc s).1.withPast h, (getTxSpace rc s).2) := by
  unfold getTxSpace
  rw [State.withPast_magicOk, State.withPast_txSnap]
  split <;> simp

@[simp] theorem getRxUsed_withPast (rc : RingCfg) :
    getRxUsed rc (s.withPast h) = ((getRxUsed rc s).1.withPast h, (getRxUsed rc s).2) := by
  unfold getRxUsed
  rw [State.withPast_rxSnap]
  split <;> simp

@[simp] theorem noSpace_withPast (rc : RingCfg) : noSpace rc (s.withPast h) = (noSpace rc s).withPast h := by
  simp [noSpace]

@[simp] theorem afterSend_withPast (rc : RingCfg) (run : SendRun) :
    afterSend rc run (s.withPast h) = (afterSend rc run s).withPast h := by
  have hm : { s.withPast h with shm := run.mem } = { s with shm := run.mem }.withPast h := rfl
  simp only [afterSend, hm, State.withPast_setRing, State.withPast_ring, State.withPast_emit, ite_withPast,
    noSpace_withPast]

@[simp] theorem xmitBody_withPast (rc : RingCfg) :
    xmitBody rc (s.withPast h) = ((xmitBody rc s).1.withPast h, (xmitBody rc s).2) := by
  unfold xmitBody
  cases hg : (getTxSpace rc s).2 <;> simp [hg]

@[simp] theorem finishXmit_withPast (r : RingId) (who : Requester) (o : OpOutcome) :
    finishXmit r who o (s.withPast h) = (finishXmit r who o s).withPast h := by
  cases who <;> simp [finishXmit]

@[simp] theorem xmitStart_withPast (r : RingId) (who : Requester) :
    xmitStart r who (s.withPast h) = ((xmitStart r who s).1.withPast h, (xmitStart r who s).2) := by
  unfold xmitStart
  rw [State.withPast_mode]
  cases modeGate s.mode with
  | refuse => rfl
  | down => rfl
  | run => by_cases hq : (s.ring r).txq = [] <;> simp [hq]

@[simp] theorem performXmit_withPast (r : RingId) (who : Requester) :
    performXmit r who (s.withPast h) = (performXmit r who s).withPast h := by
  unfold performXmit
  cases ho : (xmitStart r who s).2 <;> simp [ho]

@[simp] theorem retryTimerFire_withPast (r : RingId) :
    retryTimerFire r (s.withPast h) = (retryTimerFire r s).withPast h := by
  simp [retryTimerFire]

@[simp] theorem txEnqueueOn_withPast (rc : RingCfg) (ch : ChanId) (p : Bytes) (ctl : Option Ctl) :
    txEnqueueOn rc ch p ctl (s.withPast h) =
      ((txEnqueueOn rc ch p ctl s).1.withPast h, (txEnqueueOn rc ch p ctl s).2) := by
  unfold txEnqueueOn
  cases frameBuild ch p rc.pad ctl with
  | error e => rfl
  | ok f =>
    by_cases hl : f.length > rc.txSize - 1
    · simp [hl]
    · by_cases hq : (s.ring rc.id).txq.length = s.cfg.txqDepth <;> simp [hl, hq]

@[simp] theorem mbxResAck_withPast (r : RingId) :
    mbxResAck r (s.withPast h) = ((mbxResAck r s).1.withPast h, (mbxResAck r s).2) := by
  unfold mbxResAck
  rw [State.withPast_mode]
  cases modeGate s.mode <;> simp

@[simp] theorem resAckTimeout_withPast (rc : RingCfg) :
    resAckTimeout rc (s.withPast h) = ((resAckTimeout rc s).1.withPast h, (resAckTimeout rc s).2) := by
  unfold resAckTimeout ackTimeoutRun
  by_cases ha : (s.ring rc.id).ackWait.isArmed = true
  · rw [State.withPast_mode]
    cases modeGate s.mode with
    | refuse => simp [ha]
    | down => simp [ha]
    | run => by_cases hw : s.word rc.txHead = s.word rc.txTail <;> simp [ha, hw]
  · simp [ha]

@[simp] theorem payAck_withPast (rc : RingCfg) : payAck rc (s.withPast h) = (payAck rc s).withPast h := by
  simp [payAck]

@[simp] theorem drainRun_withPast (rc : RingCfg) :
    drainRun rc (s.withPast h) = ((drainRun rc s).1.withPast h, (drainRun rc s).2) := by
  unfold drainRun
  cases he : drainError rc.rxSize (split (rxBytes rc s)).ending <;> simp [he]

@[simp] theorem rxDrain_withPast (rc : RingCfg) :
    rxDrain rc (s.withPast h) = ((rxDrain rc s).1.withPast h, (rxDrain rc s).2) := by
  unfold rxDrain
  rw [State.withPast_mode]
  cases modeGate s.mode with
  | refuse => rfl
  | down => rfl
  | run =>
    by_cases hf : s.cfg.framing = .sipc4
    · simp [hf]
    · by_cases hi : (s.rxSnap rc).inRange = true <;> simp [hf, hi]

@[simp] theorem mbxReqAck_withPast (rc : RingCfg) :
    mbxReqAck rc (s.withPast h) = ((mbxReqAck rc s).1.withPast h, (mbxReqAck rc s).2) := by
  unfold mbxReqAck
  rw [State.withPast_mode]
  cases modeGate s.mode <;> simp

/-! The poll (43_pm.md R222, R223). -/

@[simp] theorem completeOk_withPast (p : Poll) : completeOk p (s.withPast h) = (completeOk p s).withPast h := by
  unfold completeOk
  cases p.origin with
  | host => simp
  | xmit r => cases hr : s.cfg.ring? r <;> simp [hr]

@[simp] theorem completeFail_withPast (p : Poll) :
    completeFail p (s.withPast h) = (completeFail p s).withPast h := by
  unfold completeFail
  cases p.origin <;> simp

/-- A change of the poll in progress leaves the older entries in front. -/
theorem withPast_setBusy (b : Option Poll) : { s.withPast h with busy := b } = { s with busy := b }.withPast h := rfl

@[simp] theorem pollStep_withPast (p : Poll) : pollStep p (s.withPast h) = (pollStep p s).withPast h := by
  unfold pollStep
  simp only [State.withPast_magicOk, withPast_setBusy, completeOk_withPast, completeFail_withPast, ite_withPast]

/-! Link control (44_link_control.md). -/

@[simp] theorem dispatchRing_withPast (v : U16) (rc : RingCfg) :
    dispatchRing v rc (s.withPast h) = (dispatchRing v rc s).withPast h := by
  simp [dispatchRing, rxDrainWithin, mbxReqAckWithin, mbxResAckWithin]

@[simp] theorem dispatchRings_withPast (v : U16) (rcs : List RingCfg) :
    dispatchRings v rcs (s.withPast h) = (dispatchRings v rcs s).withPast h := by
  induction rcs generalizing s with
  | nil => rfl
  | cons rc rcs ih => simp [dispatchRings, ih]

@[simp] theorem dispatch_withPast (v : U16) : dispatch v (s.withPast h) = (dispatch v s).withPast h :=
  dispatchRings_withPast h s v s.cfg.rings

@[simp] theorem checkPairs_withPast (v : U16) : checkPairs v (s.withPast h) = (checkPairs v s).withPast h := by
  unfold checkPairs
  by_cases hv : s.cfg.mbxStray v = true <;> simp [hv]

@[simp] theorem flushRings_withPast (rcs : List RingCfg) :
    flushRings rcs (s.withPast h) = (flushRings rcs s).withPast h := by
  induction rcs generalizing s with
  | nil => rfl
  | cons rc rcs ih => simp [flushRings, ih]

/-! The operations (30_encoding.md R100). -/

@[simp] theorem withShm_withPast (t : State) :
    withShm (s.withPast h) (.next (t.withPast h)) = answerWithPast h (withShm s (.next t)) := by
  unfold withShm
  by_cases hf : s.cfg.fits = true <;> simp [hf]

theorem withRing_withPast (r : RingId) (who : DutyReason) {k l : RingCfg → Answer}
    (hk : ∀ rc, k rc = answerWithPast h (l rc)) :
    withRing r who (s.withPast h) k = answerWithPast h (withRing r who s l) := by
  unfold withRing
  cases hr : s.cfg.ring? r <;> simp [hr, hk]

theorem frameForm_withPast (i : Instr) (b : Bytes) :
    frameForm i b (s.withPast h) = answerWithPast h (frameForm i b s) := by
  simp [frameForm]

theorem execTxEnqueue_withPast (ch : ChanId) (p : Bytes) (ctl : Option Ctl) :
    execTxEnqueue ch p ctl (s.withPast h) = answerWithPast h (execTxEnqueue ch p ctl s) := by
  unfold execTxEnqueue
  rw [State.withPast_mode]
  cases modeGate s.mode with
  | refuse => simp
  | down => simp
  | run =>
    cases hc : s.cfg.chan? ch with
    | none => simp [hc]
    | some cc =>
      by_cases hk : cc.kind = .cmd
      · simp [hc, hk]
      · by_cases hf : s.cfg.framing = .sipc4
        · simp [hc, hk, hf]
        · cases hr : s.cfg.ringFor cc <;> simp [hc, hk, hf, hr]

theorem execMbxIrq_withPast (v : U16) :
    execMbxIrq v (s.withPast h) = answerWithPast h (execMbxIrq v s) := by
  unfold execMbxIrq
  by_cases hc : s.cfg.isCmd v = true
  · simp [hc]
  · rw [State.withPast_mode]
    cases modeGate s.mode with
    | refuse => simp [hc]
    | down => simp [hc]
    | run => simp [hc]

theorem execPollStep_withPast : execPollStep (s.withPast h) = answerWithPast h (execPollStep s) := by
  unfold execPollStep
  cases hb : s.busy <;> simp [hb]

theorem execRetryTimerFire_withPast (r : RingId) :
    execRetryTimerFire r (s.withPast h) = answerWithPast h (execRetryTimerFire r s) := by
  unfold execRetryTimerFire
  cases hr : s.cfg.ring? r <;> simp [hr]

theorem execResAckTimeout_withPast (r : RingId) :
    execResAckTimeout r (s.withPast h) = answerWithPast h (execResAckTimeout r s) := by
  unfold execResAckTimeout
  cases hr : s.cfg.ring? r <;> simp [hr]

theorem execForbidSleep_withPast (o : Origin) :
    execForbidSleep o (s.withPast h) = answerWithPast h (execForbidSleep o s) := by
  cases o with
  | host => simp [execForbidSleep]
  | xmit r => exact withRing_withPast h s r .host fun rc => by simp

/-- An operation performed with older entries in front of the history answers as without them. -/
theorem exec_withPast (i : Instr) : exec i (s.withPast h) = answerWithPast h (exec i s) := by
  cases i <;> simp only [exec]
  case calcPadding => simp [execCalcPadding]
  case headerLen => simp [execHeaderLen]
  case buildHeader => simp [execBuildHeader]
  case parseHeader => simp [execParseHeader]
  case totalFrameLen => simp [execTotalFrameLen]
  case frameBuild => simp [execFrameBuild]
  case sipc5Hdr4 => exact frameForm_withPast h s _ _
  case sipc5Hdr5Ctl => exact frameForm_withPast h s _ _
  case sipc5Hdr6Ext => exact frameForm_withPast h s _ _
  case sipc5BadConfig => exact frameForm_withPast h s _ _
  case route => simp [execRoute]
  case rxRead => simp [execRxRead]
  case channelReset => simp [execChannelReset]
  case txEnqueue => exact execTxEnqueue_withPast h s _ _ _
  case getTxSpace r => exact withRing_withPast h s r .host fun rc => by simp
  case getRxUsed r => exact withRing_withPast h s r .host fun rc => by simp
  case xmit r => exact withRing_withPast h s r .host fun rc => by simp
  case retryTimerFire r => exact execRetryTimerFire_withPast h s r
  case resAckTimeout r => exact execResAckTimeout_withPast h s r
  case rxDrain r => exact withRing_withPast h s r .remote fun rc => by simp
  case mbxReqAck r => exact withRing_withPast h s r .remote fun rc => by simp
  case mbxResAck r => exact withRing_withPast h s r .remote fun rc => by simp
  case forbidSleep o => exact execForbidSleep_withPast h s o
  case pollStep => exact execPollStep_withPast h s
  case permitSleep => simp [execPermitSleep]
  case sleepTimerFire => simp [execSleepTimerFire]
  case linkoffTimerFire => simp [execLinkoffTimerFire]
  case apWakeupEdge => simp [execApWakeupEdge]
  case cpStatusEdge => simp [execCpStatusEdge]
  case mbxIrq v => exact execMbxIrq_withPast h s v
  case setMode m => exact congrArg Host.Outcome.next (State.withPast_reply h { s with mode := m } _ _)
  case flushTx => simp [execFlushTx]

/-! The turns of HOST, CP and TIMERS (00_scope.md R5). -/

@[simp] theorem hostTurn_withPast (i : Instr) : hostTurn i (s.withPast h) = (hostTurn i s).withPast h := by
  simp only [hostTurn_eq, State.withPast_inbox]
  rfl

theorem cpRing_withPast (r : RingId) {k l : RingCfg → State} (hk : ∀ rc, k rc = (l rc).withPast h) :
    cpRing r (s.withPast h) k = (cpRing r s l).withPast h := by
  unfold cpRing
  cases hr : s.cfg.ring? r with
  | none => simp [hr]
  | some rc => by_cases hf : s.cfg.fits = true <;> simp [hr, hf, hk]

@[simp] theorem cpWrite_withPast (duty : Bool) (m : Memory) :
    cpWrite duty m (s.withPast h) = (cpWrite duty m s).withPast h := by
  cases duty <;> rfl

theorem lineTurn_withPast (old new : Bool) (edge : Instr) (t : State) :
    lineTurn old new edge (s.withPast h) (t.withPast h) = (lineTurn old new edge s t).withPast h := by
  simp [lineTurn]

theorem cpTurn_withPast (m : CpMove) : cpTurn m (s.withPast h) = (cpTurn m s).withPast h := by
  cases m with
  | txTail r v => exact cpRing_withPast h s r fun rc => cpWrite_withPast h s _ _
  | rxHead r v => exact cpRing_withPast h s r fun rc => cpWrite_withPast h (s.markRx rc _ _ _) _ _
  | rxData r i b => exact cpRing_withPast h s r fun rc => cpWrite_withPast h (s.markRx rc _ _ _) _ _
  | magic v => simp only [cpTurn, apply_ite (State.withPast h)]; rfl
  | elsewhere a b => simp only [cpTurn, cpWrite_withPast, apply_ite (State.withPast h)]; rfl
  | apWakeup l => exact lineTurn_withPast h s _ _ _ { s with apWakeup := l }
  | cpStatus l => exact lineTurn_withPast h s _ _ _ { s with cpStatus := l }
  | mailbox v => rfl

theorem timerTurn_withPast (t : TimerId) : timerTurn t (s.withPast h) = (timerTurn t s).withPast h := by
  cases t <;> simp only [timerTurn, apply_ite (State.withPast h)] <;> rfl

theorem agentTurn_withPast (m : Move) : agentTurn m (s.withPast h) = (agentTurn m s).withPast h := by
  cases m with
  | blk => rfl
  | host i => exact hostTurn_withPast h s i
  | cp c => exact cpTurn_withPast h s c
  | timer t => exact timerTurn_withPast h s t

/-! The step. -/

theorem blkTurn_withPast : blkTurn (s.withPast h) = answerWithPast h (blkTurn s) := by
  cases hb : s.busy with
  | some p => rw [blkTurn_of_poll hb, blkTurn_of_poll (s := s.withPast h) hb, exec_withPast]
  | none =>
    cases hq : s.inbox with
    | nil => rw [blkTurn_of_idle hb hq, blkTurn_of_idle (s := s.withPast h) hb hq, answerWithPast_next]
    | cons i q =>
      rw [blkTurn_of_inbox hb hq, blkTurn_of_inbox (s := s.withPast h) hb hq, ← exec_withPast]
      simp only [State.withPast, List.append_assoc]

theorem step_withPast : step (s.withPast h) = answerWithPast h (step s) := by
  cases hs : s.schedule with
  | nil => rw [step_of_schedule_nil hs, step_of_schedule_nil (s := s.withPast h) hs, blkTurn_withPast]
  | cons m ms =>
    by_cases hm : m = .blk
    · subst hm
      rw [step_of_schedule_blk hs, ← blkTurn_withPast]
      exact step_of_schedule_blk (s := s.withPast h) hs
    · rw [step_of_schedule_agent hs hm, answerWithPast_next, ← agentTurn_withPast]
      exact step_of_schedule_agent (s := s.withPast h) hs hm

end

/-- Settles O57: the step is the step of the state with an empty history, whose entries are the new ones, with the old
history in front. -/
theorem historyIsAppendedAndNeverRead : Obligations.HistoryIsAppendedAndNeverRead := by
  intro s t hst
  have any : ∀ k, step { s with history := k } = answerWithPast k (step { s with history := [] }) := by
    intro k
    rw [← step_withPast]
    simp only [State.withPast, List.append_nil]
  have old : answerWithPast s.history (step { s with history := [] }) = .next t := (any s.history).symm.trans hst
  cases hu : step { s with history := [] } with
  | next u =>
    rw [hu] at old
    cases old
    exact ⟨u.history, rfl, fun k => by rw [any k, hu]; rfl⟩
  | fault f => rw [hu] at old; cases old
  | refused r => rw [hu] at old; cases old

end Sys2Proof.Machine
end

section
/-! PROOFS. The statements about memory (20_memory.md): the canonical form and the bound on listed bytes, the index words,
the output lines, and the turns of the CP. -/

namespace Sys2Proof.Machine

/-! What an act and a write of the CP do to shared memory. -/

/-- An act writes shared memory only as RX_DRAIN's tail word or as one RING_WRITE of XMIT. -/
theorem Act.shm_cases {i : Instr} {s0 s t : State} (h : Act i s0 s t) :
    t.shm = s.shm ∨
    (∃ rc ∈ s.cfg.rings, ∃ v < rc.rxSize, t.shm = s.shm.writeLe rc.rxTail 4 v) ∨
    (∃ rc ∈ s.cfg.rings, ∃ h f, t.shm = ringWrite rc h f s.shm) := by
  cases h with
  | rxTail rc v hr hv => exact .inr (.inl ⟨rc, hr, v, hv, rfl⟩)
  | txWrite rc h f hr hp => exact .inr (.inr ⟨rc, hr, h, f, rfl⟩)
  | hold o who => rw [forbid_eq]; exact .inl rfl
  | sleep _ _ => rw [sleepTimerFire_frame]; exact .inl rfl
  | linkoff => rw [linkoffTimerFire_frame]; exact .inl rfl
  | wake level => rw [apWakeupEdge_frame]; exact .inl rfl
  | status level => rw [cpStatusEdge_frame]; exact .inl rfl
  | _ => exact .inl rfl

theorem ringWrite_wf (rc : RingCfg) (h : Nat) (f : Bytes) {m : Memory} (hm : m.wf) : (ringWrite rc h f m).wf :=
  Memory.writeLe_wf _ _ _ _ (Memory.ringPut_wf _ _ _ _ _ hm)

theorem CpWrite.wf {s : State} {d : Bool} {m : Memory} (h : CpWrite s d m) (hm : s.shm.wf) : m.wf := by
  cases h with
  | magic | txTail | rxHead => exact Memory.writeLe_wf _ _ _ _ hm
  | rxData => exact Memory.ringPut_wf _ _ _ _ _ hm
  | elsewhere => exact Memory.writeBytes_wf _ _ _ hm

/-! The canonical form (log entries 25, 29). -/

/-- What is read at a key is the default or stands in the table. -/
theorem SMap.get_eq_default_or_mem {β : Type} (d : β) (m : SMap β) (k : Nat) :
    SMap.get d m k = d ∨ (k, SMap.get d m k) ∈ m := by
  induction m with
  | nil => exact .inl rfl
  | cons c m ih =>
    obtain ⟨a, v⟩ := c
    rw [SMap.get_cons]
    split
    · next e => exact .inr (e ▸ List.mem_cons_self)
    · exact ih.imp_right (List.mem_cons_of_mem _)

/-- The sessions of every channel, listed or not, are in canonical form. -/
theorem State.canonical.chan_reasm {s : State} (h : s.canonical) (ch : ChanId) : SMap.wf none (s.chan ch).reasm := by
  obtain ⟨-, -, -, -, hreasm⟩ := h
  rcases SMap.get_eq_default_or_mem ChanState.init s.chans ch.toNat with e | e
  · rw [State.chan, e]
    exact SMap.nil_wf _
  · exact hreasm _ e

theorem State.canonical.setChan {s : State} (h : s.canonical) {ch : ChanId} {v : ChanState}
    (hv : SMap.wf none v.reasm) : (s.setChan ch v).canonical := by
  obtain ⟨hshm, hmarks, hrings, hchans, hreasm⟩ := h
  refine ⟨hshm, hmarks, hrings, SMap.put_wf _ _ _ _ hchans, fun c hc => ?_⟩
  rcases SMap.mem_put _ _ _ _ _ hc with rfl | hc
  · exact hv
  · exact hreasm c hc

theorem State.canonical.setRing {s : State} (h : s.canonical) (r : RingId) (v : RingState) :
    (s.setRing r v).canonical := by
  obtain ⟨hshm, hmarks, hrings, hchans, hreasm⟩ := h
  exact ⟨hshm, hmarks, SMap.put_wf _ _ _ _ hrings, hchans, hreasm⟩

theorem State.canonical.withShm {s : State} (h : s.canonical) {m : Memory} (hm : m.wf) :
    State.canonical { s with shm := m } := ⟨hm, h.2⟩

theorem Act.keeps_canonical {i : Instr} {s0 s t : State} (h : Act i s0 s t) (hc : s.canonical) : t.canonical := by
  cases h with
  | ring r v _ => exact hc.setRing r v
  | chan ch v hv => exact hc.setChan (hv.2 (hc.chan_reasm ch))
  | rxTail rc v _ _ => exact hc.withShm (Memory.writeLe_wf _ _ _ _ hc.1)
  | txWrite rc h f _ _ => exact hc.withShm (ringWrite_wf rc h f hc.1)
  | hold o who => rw [forbid_eq]; exact hc
  | sleep _ _ => rw [sleepTimerFire_frame]; exact hc
  | linkoff => rw [linkoffTimerFire_frame]; exact hc
  | wake level => rw [apWakeupEdge_frame]; exact hc
  | status level => rw [cpStatusEdge_frame]; exact hc
  | _ => exact hc

theorem agentTurn_keeps_canonical (m : Move) {s : State} (h : s.canonical) : (agentTurn m s).canonical := by
  obtain ⟨hshm, hmarks, hrings, hchans⟩ := h
  obtain ⟨-, -, -, echans, -⟩ := agentTurn_env m s
  obtain ⟨kmarks, krings⟩ := agentTurn_tables_wf m s
  refine ⟨?_, kmarks hmarks, krings hrings, echans ▸ hchans⟩
  rcases agentTurn_shm m s with e | ⟨d, hw, -⟩
  · exact e ▸ hshm
  · exact hw.wf hshm

/-! Every listed byte lies inside shared memory (20_memory.md R61, R76). -/

theorem ringWrite_below {c : Config} (hw : c.wf = true) {rc : RingCfg} (hr : rc ∈ c.rings) (h : Nat) (f : Bytes)
    {m : Memory} (hm : m.below c.shmSize) : (ringWrite rc h f m).below c.shmSize := by
  obtain ⟨hhead, hdata, -⟩ := Config.wf_inside hw hr
  obtain ⟨hsize, -⟩ := Config.wf_ring hw hr
  exact Memory.writeLe_below _ _ _ _ _ (Memory.ringPut_below _ _ _ (by omega) hdata _ _ _ hm) hhead

theorem Act.keeps_shmInside {i : Instr} {s0 s t : State} (h : Act i s0 s t) (hw : s.cfg.wf = true)
    (hi : s.shmInside) : t.shmInside := by
  unfold State.shmInside
  rw [h.env.1]
  rcases h.shm_cases with e | ⟨rc, hr, v, -, e⟩ | ⟨rc, hr, k, f, e⟩ <;> rw [e]
  · exact hi
  · obtain ⟨-, -, htail, -⟩ := Config.wf_inside hw hr
    exact Memory.writeLe_below _ _ _ _ _ hi htail
  · exact ringWrite_below hw hr k f hi

theorem CpWrite.below {s : State} {d : Bool} {m : Memory} (h : CpWrite s d m) (hw : s.cfg.wf = true)
    (hm : s.shm.below s.cfg.shmSize) : m.below s.cfg.shmSize := by
  cases h with
  | magic v hf => exact Memory.writeLe_below _ _ _ _ _ hm (Config.fits_magic hf)
  | txTail r rc v hr _ =>
    obtain ⟨-, -, -, htail, -⟩ := Config.wf_inside hw (mem_of_ring? hr)
    exact Memory.writeLe_below _ _ _ _ _ hm htail
  | rxHead r rc v hr _ =>
    obtain ⟨-, -, -, -, hhead, -⟩ := Config.wf_inside hw (mem_of_ring? hr)
    exact Memory.writeLe_below _ _ _ _ _ hm hhead
  | rxData r rc i b hr _ =>
    obtain ⟨-, -, -, -, -, hdata⟩ := Config.wf_inside hw (mem_of_ring? hr)
    obtain ⟨-, -, hsize, -⟩ := Config.wf_ring hw (mem_of_ring? hr)
    exact Memory.ringPut_below _ _ _ (by omega) hdata _ _ _ hm
  | elsewhere a b h => exact Memory.writeBytes_below _ _ _ _ hm h

theorem agentTurn_keeps_shmInside (m : Move) {s : State} (hw : s.cfg.wf = true) (hi : s.shmInside) :
    (agentTurn m s).shmInside := by
  unfold State.shmInside
  rw [(agentTurn_env m s).1]
  rcases agentTurn_shm m s with e | ⟨d, hc, -⟩
  · exact e ▸ hi
  · exact hc.below hw hi

/-- Settles O49: each turn of another agent and each act keeps the canonical form and, in a well-formed configuration, the
bound on the listed bytes. -/
theorem stepKeepsTheCanonicalForm : Obligations.StepKeepsTheCanonicalForm := by
  intro s t h
  refine ⟨fun hc => step_lift (P := State.canonical) h hc ?agent ?turn ?take ?act, fun hw hi =>
    (step_lift (P := fun u => u.cfg.wf = true ∧ u.shmInside) h ⟨hw, hi⟩ ?agentIn ?turnIn ?takeIn ?actIn).2⟩
  case agent => exact fun m ms hu => agentTurn_keeps_canonical m (s := { s with schedule := ms }) hu
  case turn => exact fun _ hu => hu
  case take => exact fun _ _ _ hu => hu
  case act => exact fun i s0 u v a hu => a.keeps_canonical hu
  case agentIn =>
    rintro m ms ⟨hw, hi⟩
    exact ⟨(congrArg Config.wf (agentTurn_env m _).1).trans hw,
      agentTurn_keeps_shmInside m (s := { s with schedule := ms }) hw hi⟩
  case turnIn => exact fun _ hu => hu
  case takeIn => exact fun _ _ _ hu => hu
  case actIn =>
    rintro i s0 u v a ⟨hw, hi⟩
    exact ⟨(congrArg Config.wf a.env.1).trans hw, a.keeps_shmInside hw hi⟩

/-! The index words (20_memory.md R63, R66). -/

/-- Every index word of memory `m` is below its ring's size. -/
def indexWordsBelow (c : Config) (m : Memory) : Prop :=
  ∀ rc ∈ c.rings, ∀ w ∈ indexWords rc, m.readLe w.1 4 < w.2

theorem indicesInRange_iff (s : State) : s.indicesInRange ↔ indexWordsBelow s.cfg s.shm := by
  unfold State.indicesInRange indexWordsBelow
  refine forall₂_congr fun rc _ => ?_
  simp only [Snapshot.inRange_iff, State.txSnap, State.rxSnap, State.word, indexWords, List.mem_cons,
    List.not_mem_nil, or_false, forall_eq_or_imp, forall_eq, and_assoc]

section
variable {c : Config} (hw : c.wf = true) {m : Memory} (hm : indexWordsBelow c m)
include hw hm

/-- Writing one index word with a value in range: the others keep apart. -/
theorem indexWordsBelow.writeIndex {rc : RingCfg} (hr : rc ∈ c.rings) {w : Nat × Nat} (hin : w ∈ indexWords rc)
    {v : Nat} (hv : v < w.2) : indexWordsBelow c (m.writeLe w.1 4 v) := by
  intro rc' hr' w' hin'
  rcases Config.wf_words_apart hw hr' hr hin' hin with ⟨ea, es⟩ | hap
  · rw [ea, Memory.readLe_writeLe_self, es]
    exact Nat.lt_of_le_of_lt (Nat.mod_le _ _) hv
  · rw [Memory.readLe_writeLe_apart _ _ _ _ _ _ hap]
    exact hm rc' hr' w' hin'

/-- A copy into a data area touches no index word. -/
theorem indexWordsBelow.ringPut {rc : RingCfg} (hr : rc ∈ c.rings) {base size : Nat}
    (hg : (base, size) = (rc.txBase, rc.txSize) ∨ (base, size) = (rc.rxBase, rc.rxSize)) (h : Nat) (bs : Bytes) :
    indexWordsBelow c (Memory.ringPut base size m h bs) := by
  have hsize : 0 < size := by
    obtain ⟨htx, -, hrx, -⟩ := Config.wf_ring hw hr
    rcases hg with hg | hg <;> cases hg <;> omega
  intro rc' hr' w' hin'
  have hap := Config.wf_data_apart hw hr' hr hin' hg
  simp only at hap
  rw [Memory.readLe_congr _ m _ _ fun x _ _ => Memory.read_ringPut_outside base size hsize bs m h x (by omega)]
  exact hm rc' hr' w' hin'

theorem indexWordsBelow.writeMagic (v : Nat) : indexWordsBelow c (m.writeLe c.magicAddr 4 v) := by
  intro rc hr w hin
  have hap := Config.wf_magic_apart hw hr (indexWords_region rc w hin)
  rw [Memory.readLe_writeLe_apart _ _ _ _ _ _ hap.symm]
  exact hm rc hr w hin

/-- RING_WRITE leaves its head word below the size: it is a remainder (42_ring.md R175). -/
theorem indexWordsBelow.ringWrite {rc : RingCfg} (hr : rc ∈ c.rings) (h : Nat) (f : Bytes) :
    indexWordsBelow c (ringWrite rc h f m) := by
  obtain ⟨hsize, -⟩ := Config.wf_ring hw hr
  exact (hm.ringPut hw hr (.inl rfl) h f).writeIndex hw hr (w := (rc.txHead, rc.txSize)) (by simp [indexWords])
    (Nat.mod_lt _ (by omega))

end

theorem Act.keeps_indexWordsBelow {i : Instr} {s0 s t : State} (h : Act i s0 s t) (hw : s.cfg.wf = true)
    (hm : indexWordsBelow s.cfg s.shm) : indexWordsBelow t.cfg t.shm := by
  rw [h.env.1]
  rcases h.shm_cases with e | ⟨rc, hr, v, hv, e⟩ | ⟨rc, hr, k, f, e⟩ <;> rw [e]
  · exact hm
  · exact hm.writeIndex hw hr (w := (rc.rxTail, rc.rxSize)) (by simp [indexWords]) hv
  · exact hm.ringWrite hw hr k f

/-- A write of the CP that keeps its duty puts an index in range into an index word, or touches none. -/
theorem CpWrite.keeps_indexWordsBelow {s : State} {d : Bool} {m : Memory} (h : CpWrite s d m) (hd : d = true)
    (hw : s.cfg.wf = true) (hm : indexWordsBelow s.cfg s.shm) : indexWordsBelow s.cfg m := by
  cases h with
  | magic v _ => exact hm.writeMagic hw v.toNat
  | txTail r rc v hr _ =>
    obtain ⟨-, -, hv, -⟩ := (txTailDuty_iff _ _).mp hd
    exact hm.writeIndex hw (mem_of_ring? hr) (w := (rc.txTail, rc.txSize)) (by simp [indexWords]) hv
  | rxHead r rc v hr _ =>
    obtain ⟨-, -, hv, -⟩ := (rxHeadDuty_iff _ _ _).mp hd
    exact hm.writeIndex hw (mem_of_ring? hr) (w := (rc.rxHead, rc.rxSize)) (by simp [indexWords]) hv
  | rxData r rc i b hr _ => exact hm.ringPut hw (mem_of_ring? hr) (.inr rfl) i b
  | elsewhere => cases hd

theorem agentTurn_keeps_indexWordsBelow (m : Move) {s : State} (hw : s.cfg.wf = true)
    (hm : indexWordsBelow s.cfg s.shm) (hclean : (agentTurn m s).fault.remoteDutyBroken = false) :
    indexWordsBelow (agentTurn m s).cfg (agentTurn m s).shm := by
  rw [(agentTurn_env m s).1]
  rcases agentTurn_shm m s with e | ⟨d, hc, hbreach⟩
  · exact e ▸ hm
  · cases d with
    | true => exact hc.keeps_indexWordsBelow rfl hw hm
    | false => rw [hbreach rfl] at hclean; cases hclean

/-- What is not recorded after was not recorded before: a fault reason is never removed. -/
theorem MarksKept.remote_unbroken {s t : State} (h : MarksKept s t) (ht : t.fault.remoteDutyBroken = false) :
    s.fault.remoteDutyBroken = false := by
  obtain ⟨-, hremote, -⟩ := h
  exact Bool.eq_false_iff.mpr fun e => by rw [hremote e] at ht; cases ht

/-- Settles O54: a write out of range needs a broken duty, and a recorded breach stays recorded. -/
theorem stepKeepsTheIndicesInRange : Obligations.StepKeepsTheIndicesInRange := by
  intro s t hw hi h
  rw [indicesInRange_iff] at hi ⊢
  refine (step_lift (P := fun u => u.cfg.wf = true ∧
    (u.fault.remoteDutyBroken = false → indexWordsBelow u.cfg u.shm)) h ⟨hw, fun _ => hi⟩ ?agent ?turn ?take ?act).2
  case agent =>
    rintro m ms ⟨hw, hm⟩
    refine ⟨(congrArg Config.wf (agentTurn_env m _).1).trans hw, fun hclean => ?_⟩
    have hbefore := (agentTurn_marksKept m { s with schedule := ms }).remote_unbroken hclean
    exact agentTurn_keeps_indexWordsBelow m (s := { s with schedule := ms }) hw (hm hbefore) hclean
  case turn => exact fun _ hu => hu
  case take => exact fun _ _ _ hu => hu
  case act =>
    rintro i s0 u v a ⟨hw, hm⟩
    exact ⟨(congrArg Config.wf a.env.1).trans hw, fun hclean =>
      a.keeps_indexWordsBelow hw (hm (a.marksKept.remote_unbroken hclean))⟩

/-! The output lines (20_memory.md R67). -/

theorem lineLevel_append_gpio (l l' : OutLine) (v : Bool) (h : List HistEvent) :
    lineLevel l (h ++ [.gpio l' v]) = if l' = l then v else lineLevel l h := by
  rw [lineLevel, List.foldl_append]
  rfl

theorem lineLevel_append_other (l : OutLine) (h : List HistEvent) {e : HistEvent} (he : ∀ l' v, e ≠ .gpio l' v) :
    lineLevel l (h ++ [e]) = lineLevel l h := by
  rw [lineLevel, List.foldl_append]
  cases e with
  | gpio l' v => exact absurd rfl (he l' v)
  | _ => rfl

/-- A statement of the two lines' levels and the history only. -/
theorem State.linesRecorded.of_same {s t : State} (h : s.linesRecorded) (ha : t.pm.apStatus = s.pm.apStatus)
    (hc : t.pm.cpWakeup = s.pm.cpWakeup) (hh : t.history = s.history) : t.linesRecorded := by
  intro l
  rw [hh, ← h l]
  cases l
  · exact ha
  · exact hc

/-- An event that is no change of a line leaves the levels. -/
theorem State.linesRecorded.emit {s : State} (h : s.linesRecorded) {e : HistEvent} (he : ∀ l v, e ≠ .gpio l v) :
    (s.emit e).linesRecorded := by
  intro l
  rw [State.emit_history, lineLevel_append_other l _ he]
  exact h l

/-- Driving a line records the change it makes (43_pm.md R221). -/
theorem State.linesRecorded.drive {s : State} (h : s.linesRecorded) (l : OutLine) (v : Bool) :
    (s.drive l v).linesRecorded := by
  by_cases hv : s.pm.line l = v
  · rwa [State.drive_same s l v hv]
  · intro l'
    rw [State.drive_pm, State.drive_history, if_neg hv, lineLevel_append_gpio, Pm.line_setLine, h l']

/-- Cancelling the release timers moves no line. -/
theorem State.linesRecorded.cancelTimers {s : State} (h : s.linesRecorded) :
    State.linesRecorded { s with pm := s.pm.cancelTimers } :=
  h.of_same rfl rfl rfl

/-- FORBID_SLEEP drives both lines high; its hold, its timers and its poll move none (43_pm.md R221). -/
theorem State.linesRecorded.forbid {s : State} (h : s.linesRecorded) (o : Origin) (who : Requester) :
    (forbid o who s).linesRecorded := by
  have held : State.linesRecorded { s with pm := { s.pm with refCnt := s.pm.refCnt + 1 } } :=
    h.of_same rfl rfl rfl
  exact ((held.drive .apStatus true).cancelTimers.drive .cpWakeup true).of_same rfl rfl rfl

theorem State.linesRecorded.permit {s : State} (h : s.linesRecorded) : (permit s).linesRecorded := by
  unfold Machine.permit
  rw [Pm.permit_eq]
  split <;> exact h.of_same rfl rfl rfl

theorem State.linesRecorded.sleepTimerFire {s : State} (h : s.linesRecorded) :
    (sleepTimerFire s).1.linesRecorded := by
  have fired : State.linesRecorded { s with pm := { s.pm with sleep := .off } } :=
    h.of_same rfl rfl rfl
  unfold Machine.sleepTimerFire
  split
  · split
    · exact h.of_same rfl rfl rfl
    · exact (fired.drive .cpWakeup false).of_same rfl rfl rfl
  · exact h

theorem State.linesRecorded.linkoffTimerFire {s : State} (h : s.linesRecorded) :
    (linkoffTimerFire s).1.linesRecorded := by
  have timer : ∀ x, State.linesRecorded { s with pm := { s.pm with linkoff := x } } := fun x =>
    h.of_same rfl rfl rfl
  unfold Machine.linkoffTimerFire
  split
  · split
    · exact timer .off
    · split
      · exact timer .armed
      · exact (timer .off).drive .apStatus false
  · exact h

theorem State.linesRecorded.apWakeupEdge {s : State} (h : s.linesRecorded) (level : Bool) :
    (apWakeupEdge level s).1.linesRecorded := by
  have woken : State.linesRecorded { s with pm := { s.pm with wakeGen := s.pm.wakeGen + 1 }.cancelTimers } :=
    h.of_same rfl rfl rfl
  have driven := woken.drive .apStatus true
  unfold Machine.apWakeupEdge
  split
  · simp only
    split
    · exact driven.of_same rfl rfl rfl
    · exact driven
  · exact h

theorem State.linesRecorded.cpStatusEdge {s : State} (h : s.linesRecorded) (level : Bool) :
    (cpStatusEdge level s).1.linesRecorded := by
  unfold Machine.cpStatusEdge
  split
  · exact h.of_same rfl rfl rfl
  · exact h

theorem Act.keeps_linesRecorded {i : Instr} {s0 s t : State} (h : Act i s0 s t) (hl : s.linesRecorded) :
    t.linesRecorded := by
  cases h with
  | note e he => exact hl.emit fun l v e' => by subst e'; cases he
  | recover w => exact (hl.of_same (t := s.count .recovery) rfl rfl rfl).emit fun l v => by simp
  | hold o who => exact hl.forbid o who
  | permit _ => exact hl.permit
  | sleep _ _ => exact hl.sleepTimerFire
  | linkoff => exact hl.linkoffTimerFire
  | wake level => exact hl.apWakeupEdge level
  | status level => exact hl.cpStatusEdge level
  | _ => exact hl.of_same rfl rfl rfl

theorem agentTurn_keeps_linesRecorded (m : Move) {s : State} (h : s.linesRecorded) : (agentTurn m s).linesRecorded := by
  obtain ⟨-, hap, hcp, -⟩ := agentTurn_pm m s
  obtain ⟨-, -, -, -, -, -, hhist, -⟩ := agentTurn_env m s
  exact h.of_same hap hcp hhist

/-- Settles O56: a line changes only where it is driven, which appends its Gpio event. -/
theorem stepRecordsEveryLineChange : Obligations.StepRecordsEveryLineChange := by
  intro s t hl h
  refine step_lift (P := State.linesRecorded) h hl ?agent ?turn ?take ?act
  case agent => exact fun m ms hu => agentTurn_keeps_linesRecorded m (s := { s with schedule := ms }) hu
  case turn => exact fun _ hu => hu
  case take => exact fun ms i q hu => (hu.emit (e := .input i) fun l v => by simp).of_same rfl rfl rfl
  case act => exact fun i s0 u v a hu => a.keeps_linesRecorded hu

/-! The turns of the CP (20_memory.md R66, R67). -/

/-- A turn of the CP writes shared memory, the input lines and the marks of its RX writes, appends to the inbox, and records
a breach. -/
theorem cpTurn_frame (m : CpMove) (s : State) : cpTurn m s =
    { s with shm := (cpTurn m s).shm, fault := (cpTurn m s).fault, inbox := (cpTurn m s).inbox,
             apWakeup := (cpTurn m s).apWakeup, cpStatus := (cpTurn m s).cpStatus,
             rxWritten := (cpTurn m s).rxWritten } := by
  rcases cpTurn_cases m s with h | h | ⟨a, c, e, h⟩ | ⟨d, mem, w, h, -, -⟩ <;>
    simp only [h, State.addFault]

theorem cpRing_breach {s : State} {r : RingId} (h : s.cfg.ring? r = none ∨ s.cfg.fits = false) (k : RingCfg → State) :
    cpRing r s k = s.addFault .remote := by
  unfold cpRing
  split
  · rfl
  · next rc hr =>
    rcases h with h | h
    · rw [hr] at h; cases h
    · exact if_neg (by simp [h])

theorem cpRing_found {s : State} {r : RingId} {rc : RingCfg} (hr : s.cfg.ring? r = some rc) (hf : s.cfg.fits = true)
    (k : RingCfg → State) : cpRing r s k = k rc := by
  simp only [cpRing, hr, if_pos hf]

/-- A write of the CP in a ring leaves the inbox and the lines; with no such ring, or a layout outside shared memory, it
lands nowhere and records the breach. -/
theorem cpRing_calm_and_nowhere {s u : State} {r : RingId} {d : RingCfg → Bool} {m : RingCfg → Memory}
    {w : RingCfg → State} (hu : u = cpRing r s fun rc => cpWrite (d rc) (m rc) (w rc))
    (hw : ∀ rc, (w rc).inbox = s.inbox ∧ (w rc).apWakeup = s.apWakeup ∧ (w rc).cpStatus = s.cpStatus) :
    (u.inbox = s.inbox ∧ u.apWakeup = s.apWakeup ∧ u.cpStatus = s.cpStatus) ∧
    (s.cfg.ring? r = none ∨ s.cfg.fits = false →
      u.shm = s.shm ∧ u.fault = { s.fault with remoteDutyBroken := true } ∧ u.rxWritten = s.rxWritten) := by
  subst hu
  refine ⟨?_, fun h => by rw [cpRing_breach h]; exact ⟨rfl, rfl, rfl⟩⟩
  cases hr : s.cfg.ring? r with
  | none => rw [cpRing_breach (.inl hr)]; exact ⟨rfl, rfl, rfl⟩
  | some rc =>
    cases hf : s.cfg.fits with
    | false => rw [cpRing_breach (.inr hf)]; exact ⟨rfl, rfl, rfl⟩
    | true => rw [cpRing_found hr hf, cpWrite_eq]; exact hw rc

/-- The breach is recorded exactly when the duty `D`, which the CP's move decides, does not hold. -/
theorem fault_judged {b : Bool} {D : Prop} (hD : b = true ↔ D) (f : FaultSet) :
    (D → (if b then f else f.add .remote) = f) ∧
    (¬ D → (if b then f else f.add .remote) = { f with remoteDutyBroken := true }) := by
  cases b
  · exact ⟨fun h => absurd (hD.mpr h) Bool.false_ne_true, fun _ => rfl⟩
  · exact ⟨fun _ => rfl, fun h => absurd (hD.mp rfl) h⟩

theorem Memory.readLe_writeLe_u32 (m : Memory) (a : Nat) (v : U32) :
    (m.writeLe a 4 v.toNat).readLe a 4 = v.toNat := by
  rw [Memory.readLe_writeLe_self]
  exact Nat.mod_eq_of_lt v.isLt

section
variable {s : State} {r : RingId} {rc : RingCfg} (hr : s.cfg.ring? r = some rc) (hf : s.cfg.fits = true)
include hr hf

theorem cpTurn_txTail (v : U32) : cpTurn (.txTail r v) s = { s with
    shm := s.shm.writeLe rc.txTail 4 v.toNat
    fault := if txTailDuty (s.txSnap rc) v.toNat then s.fault else s.fault.add .remote } :=
  (cpRing_found hr hf _).trans (cpWrite_eq _ _ _)

theorem cpTurn_rxHead (v : U32) : cpTurn (.rxHead r v) s = { s with
    shm := s.shm.writeLe rc.rxHead 4 v.toNat
    fault := if rxHeadDuty rc s v.toNat then s.fault else s.fault.add .remote
    rxWritten := markRing rc.rxBase rc.rxSize false s.rxWritten (s.word rc.rxHead)
      (ahead rc.rxSize (s.word rc.rxHead) v.toNat) } :=
  (cpRing_found hr hf _).trans (cpWrite_eq _ _ _)

theorem cpTurn_rxData (i : Nat) (b : Bytes) : cpTurn (.rxData r i b) s = { s with
    shm := Memory.ringPut rc.rxBase rc.rxSize s.shm i b
    fault := if rxDataDuty (s.rxSnap rc) i b.length then s.fault else s.fault.add .remote
    rxWritten := markRing rc.rxBase rc.rxSize true s.rxWritten i b.length } :=
  (cpRing_found hr hf _).trans (cpWrite_eq _ _ _)

end

/-- A line moves to its level; a change appends the edge event, a level already there nothing (R67). -/
theorem cpTurn_apWakeup (l : Bool) (s : State) : cpTurn (.apWakeup l) s = { s with
    apWakeup := l, inbox := s.inbox ++ if s.apWakeup = l then [] else [.apWakeupEdge l] } := by
  by_cases h : s.apWakeup = l
  · subst h
    simp [cpTurn, lineTurn]
  · simp [cpTurn, lineTurn, State.append, h]

theorem cpTurn_cpStatus (l : Bool) (s : State) : cpTurn (.cpStatus l) s = { s with
    cpStatus := l, inbox := s.inbox ++ if s.cpStatus = l then [] else [.cpStatusEdge l] } := by
  by_cases h : s.cpStatus = l
  · subst h
    simp [cpTurn, lineTurn]
  · simp [cpTurn, lineTurn, State.append, h]

/-- Settles O15, move by move: each write lands on its bytes (the laws of memory) and is judged by its duty. -/
theorem cpTurnsWriteFieldsAndRecordBreaches : Obligations.CpTurnsWriteFieldsAndRecordBreaches := by
  intro s ms m hs
  obtain ⟨u, hu⟩ : ∃ u, u = cpTurn m { s with schedule := ms } := ⟨_, rfl⟩
  refine ⟨u, (step_of_schedule_agent hs (by simp)).trans (congrArg _ hu.symm), ?_, ?_⟩
  · rw [hu]
    exact cpTurn_frame m _
  cases m with
  | txTail r v =>
    obtain ⟨hcalm, hnowhere⟩ := cpRing_calm_and_nowhere hu fun _ => ⟨rfl, rfl, rfl⟩
    refine ⟨hcalm, hnowhere, fun rc hr hf => ?_⟩
    obtain rfl := hu.trans (cpTurn_txTail (s := { s with schedule := ms }) hr hf v)
    exact ⟨Memory.readLe_writeLe_u32 _ _ v, fun x => Memory.read_writeLe_outside _ _ _ _ x, rfl,
      fault_judged (txTailDuty_iff (s.txSnap rc) v.toNat) s.fault⟩
  | rxHead r v =>
    obtain ⟨hcalm, hnowhere⟩ := cpRing_calm_and_nowhere hu fun _ => ⟨rfl, rfl, rfl⟩
    refine ⟨hcalm, hnowhere, fun rc hr hf => ?_⟩
    obtain rfl := hu.trans (cpTurn_rxHead (s := { s with schedule := ms }) hr hf v)
    have hmarks := get_markRing rc.rxBase rc.rxSize false s.rxWritten (s.word rc.rxHead)
      (ahead rc.rxSize (s.word rc.rxHead) v.toNat)
    exact ⟨Memory.readLe_writeLe_u32 _ _ v, fun x => Memory.read_writeLe_outside _ _ _ _ x,
      fault_judged (rxHeadDuty_iff rc s v.toNat) s.fault, fun j hj => (hmarks _).1 ⟨j, hj, rfl⟩, fun a => (hmarks a).2⟩
  | rxData r i b =>
    obtain ⟨hcalm, hnowhere⟩ := cpRing_calm_and_nowhere hu fun _ => ⟨rfl, rfl, rfl⟩
    refine ⟨hcalm, hnowhere, fun rc hr hf => ?_⟩
    obtain rfl := hu.trans (cpTurn_rxData (s := { s with schedule := ms }) hr hf i b)
    have hmarks := get_markRing rc.rxBase rc.rxSize true s.rxWritten i b.length
    refine ⟨fun j hj hlast => ?_, fun a ha => ⟨Memory.read_ringPut_other _ _ _ _ _ _ ha, (hmarks a).2 ha⟩,
      fun j hj => (hmarks _).1 ⟨j, hj, rfl⟩, fault_judged (rxDataDuty_iff (s.rxSnap rc) i b.length) s.fault⟩
    rw [List.getD_eq_getElem _ _ hj]
    exact Memory.read_ringPut_last _ _ _ _ _ _ hj hlast
  | magic v =>
    cases hf : s.cfg.fits with
    | false =>
      obtain rfl := hu.trans (if_neg (Bool.eq_false_iff.mp hf))
      exact ⟨⟨rfl, rfl, rfl⟩, fun _ => ⟨rfl, rfl, rfl⟩, nofun⟩
    | true =>
      obtain rfl := hu.trans (if_pos hf)
      exact ⟨⟨rfl, rfl, rfl⟩, nofun, fun _ => ⟨rfl, rfl, Memory.readLe_writeLe_u32 _ _ v,
        fun x => Memory.read_writeLe_outside _ _ _ _ x⟩⟩
  | elsewhere a b =>
    by_cases hle : a + b.length ≤ s.cfg.shmSize
    · obtain rfl := hu.trans (if_pos hle)
      refine ⟨⟨rfl, rfl, rfl⟩, rfl, rfl, fun h => absurd hle (Nat.not_le.mpr h), fun _ =>
        ⟨fun x => Memory.read_writeBytes_outside _ _ _ x, fun j hj => ?_⟩⟩
      rw [List.getD_eq_getElem _ _ hj]
      exact Memory.read_writeBytes_inside _ _ _ _ hj
    · obtain rfl := hu.trans (if_neg hle)
      exact ⟨⟨rfl, rfl, rfl⟩, rfl, rfl, fun _ => rfl, fun h => absurd h hle⟩
  | apWakeup l =>
    obtain rfl := hu.trans (cpTurn_apWakeup l _)
    exact ⟨⟨rfl, rfl, rfl⟩, rfl, rfl, rfl⟩
  | cpStatus l =>
    obtain rfl := hu.trans (cpTurn_cpStatus l _)
    exact ⟨⟨rfl, rfl, rfl⟩, rfl, rfl, rfl⟩
  | mailbox v =>
    subst hu
    exact ⟨⟨rfl, rfl, rfl⟩, rfl, rfl, rfl⟩

end Sys2Proof.Machine
end

section
/-! PROOFS. The statements about the encoding (30_encoding.md): what the frame forms and FRAME_BUILD answer, the decoder against
the encoder in both directions, and the table's words. -/

namespace Sys2Proof.Machine

/-! Well-formed frame forms (30_encoding.md R94). -/

section
variable {cfg : Byte}

theorem headerLen_eq_four (hx : cfg.getLsbD 5 = false) : headerLen cfg = 4 := by
  rw [headerLen_eq, hx]
  rfl

theorem headerLen_eq_five (hx : cfg.getLsbD 5 = true) (hc : cfg.getLsbD 4 = true) : headerLen cfg = 5 := by
  rw [headerLen_eq, hx, hc]
  rfl

theorem headerLen_eq_six (hx : cfg.getLsbD 5 = true) (hc : cfg.getLsbD 4 = false) : headerLen cfg = 6 := by
  rw [headerLen_eq, hx, hc]
  rfl

variable {c : Config} {ch : ChanId} {body : Bytes}

theorem wf_sipc5Hdr4_iff {len : U16} :
    (Instr.sipc5Hdr4 cfg ch len body).wf c = true ↔
    cfg.getLsbD 7 = true ∧ cfg.getLsbD 5 = false ∧ body.length = bodyLen cfg len.toNat := by
  simp only [Instr.wf, Bool.and_eq_true, Bool.not_eq_true', decide_eq_true_eq, and_assoc]

theorem wf_sipc5Hdr5Ctl_iff {len : U16} {ctl : Byte} :
    (Instr.sipc5Hdr5Ctl cfg ch len ctl body).wf c = true ↔
    cfg.getLsbD 7 = true ∧ cfg.getLsbD 5 = true ∧ cfg.getLsbD 4 = true ∧ body.length = bodyLen cfg len.toNat := by
  simp only [Instr.wf, Bool.and_eq_true, decide_eq_true_eq, and_assoc]

theorem wf_sipc5Hdr6Ext_iff {len : U32} :
    (Instr.sipc5Hdr6Ext cfg ch len body).wf c = true ↔
    cfg.getLsbD 7 = true ∧ cfg.getLsbD 5 = true ∧ cfg.getLsbD 4 = false ∧ body.length = bodyLen cfg len.toNat := by
  simp only [Instr.wf, Bool.and_eq_true, Bool.not_eq_true', decide_eq_true_eq, and_assoc]

theorem wf_sipc5BadConfig_iff :
    (Instr.sipc5BadConfig cfg).wf c = true ↔ cfg.getLsbD 7 = false := by
  simp only [Instr.wf, Bool.not_eq_true']

theorem length_hdr4Bytes (len : U16) : (hdr4Bytes cfg ch len body).length = 4 + body.length := by
  rw [hdr4Bytes, List.length_append]
  rfl

theorem length_hdr5Bytes (len : U16) (ctl : Byte) : (hdr5Bytes cfg ch len ctl body).length = 5 + body.length := by
  rw [hdr5Bytes, List.length_append]
  rfl

theorem length_hdr6Bytes (len : U32) : (hdr6Bytes cfg ch len body).length = 6 + body.length := by
  rw [hdr6Bytes, List.length_append]
  rfl

end

/-! The frame forms (R94, R103) and FRAME_BUILD (R102) as operations. -/

/-- PARSE_HEADER on a whole frame, whose body is as long as its length field says: BadLength or the header record. -/
theorem parseHeader_of_wholeFrame {cfg : Byte} {bs : Bytes} {H : Hdr} (hs : cfg.getLsbD 7 = true)
    (hH : readHdr cfg (cfg :: bs) = H) (hlen : (cfg :: bs).length = headerLen cfg + bodyLen cfg H.frameLen) :
    (parseHeader (cfg :: bs)).outcome =
      if H.frameLen < headerLen cfg then .error (.parse (.badLength H.frameLen)) else .parsed H := by
  have hpad : H.hasPadding = cfg.getLsbD 6 := by rw [← hH]; rfl
  rw [parseHeader_cons, hH, hlen, if_neg (by rw [hs]; decide), if_neg (by omega)]
  by_cases hf : H.frameLen < headerLen cfg
  · rw [if_pos hf, if_pos hf]
    rfl
  · have htotal : totalFrameLen H = headerLen cfg + bodyLen cfg H.frameLen := by
      rw [bodyLen, if_neg hf, totalFrameLen, hpad]
      omega
    rw [if_neg hf, if_neg hf, htotal, if_neg (Nat.lt_irrefl _)]
    rfl

theorem leNat_take_leBytes {n v : Nat} (h : v < 256 ^ n) (x : Bytes) : leNat ((leBytes n v ++ x).take n) = v := by
  rw [List.take_left' (length_leBytes n v), leNat_leBytes, Nat.mod_eq_of_lt h]

section
variable {cfg : Byte} (ch : ChanId) (body : Bytes)

theorem readHdr_hdr4Bytes (len : U16) (hx : cfg.getLsbD 5 = false) :
    readHdr cfg (hdr4Bytes cfg ch len body) = ⟨ch, len.toNat, 4, false, false, cfg.getLsbD 6, none⟩ := by
  have hl := headerLen_eq_four hx
  have hfl : leNat (((hdr4Bytes cfg ch len body).drop 2).take 2) = len.toNat := leNat_take_leBytes len.isLt body
  simp only [readHdr, hl, hx, hfl]
  rfl

theorem readHdr_hdr5Bytes (len : U16) (ctl : Byte) (hx : cfg.getLsbD 5 = true) (hc : cfg.getLsbD 4 = true) :
    readHdr cfg (hdr5Bytes cfg ch len ctl body) = ⟨ch, len.toNat, 5, true, true, cfg.getLsbD 6,
      some ⟨ctl.getLsbD 7, BitVec.ofNat 7 ctl.toNat⟩⟩ := by
  have hl := headerLen_eq_five hx hc
  have hfl : leNat (((hdr5Bytes cfg ch len ctl body).drop 2).take 2) = len.toNat := by
    rw [hdr5Bytes, List.append_assoc]
    exact leNat_take_leBytes len.isLt ([ctl] ++ body)
  simp only [readHdr, hl, hx, hfl]
  rfl

theorem readHdr_hdr6Bytes (len : U32) (hx : cfg.getLsbD 5 = true) (hc : cfg.getLsbD 4 = false) :
    readHdr cfg (hdr6Bytes cfg ch len body) = ⟨ch, len.toNat, 6, true, false, cfg.getLsbD 6, none⟩ := by
  have hl := headerLen_eq_six hx hc
  have hfl : leNat (((hdr6Bytes cfg ch len body).drop 2).take 4) = len.toNat := leNat_take_leBytes len.isLt body
  simp only [readHdr, hl, hx, hfl]
  rfl

end

/-- A frame form whose operands have their types answers what PARSE_HEADER answers on its bytes (log entry 12). -/
theorem frameForm_of_wf {i : Instr} {bytes : Bytes} {o : OpOutcome} {s : State} (hw : i.wf s.cfg = true)
    (ho : (parseHeader bytes).outcome = o) :
    frameForm i bytes s = .next { s with history := s.history ++ [.result i o] } := by
  subst ho
  rw [frameForm, hw, State.checkOperand, if_pos rfl, State.reply_of_ne]
  · rfl
  · cases parseHeader bytes <;> exact nofun

/-- Settles O7: a well-formed frame form is a whole frame, so PARSE_HEADER answers the record of its header bytes. -/
theorem frameFormsParseToTheirHeaders : Obligations.FrameFormsParseToTheirHeaders := by
  intro c cfg ch len len32 ctl body s
  refine ⟨fun hw => frameForm_of_wf hw ?_, fun hw => frameForm_of_wf hw ?_, fun hw => frameForm_of_wf hw ?_,
    fun hw => frameForm_of_wf hw ?_⟩
  · obtain ⟨hs, hx, hb⟩ := wf_sipc5Hdr4_iff.mp hw
    have hl := headerLen_eq_four hx
    refine (parseHeader_of_wholeFrame hs (readHdr_hdr4Bytes ch body len hx) (by
      rw [hl, ← hb]
      exact length_hdr4Bytes len)).trans (by rw [hl])
  · obtain ⟨hs, hx, hc, hb⟩ := wf_sipc5Hdr5Ctl_iff.mp hw
    have hl := headerLen_eq_five hx hc
    refine (parseHeader_of_wholeFrame hs (readHdr_hdr5Bytes ch body len ctl hx hc) (by
      rw [hl, ← hb]
      exact length_hdr5Bytes len ctl)).trans (by rw [hl])
  · obtain ⟨hs, hx, hc, hb⟩ := wf_sipc5Hdr6Ext_iff.mp hw
    have hl := headerLen_eq_six hx hc
    refine (parseHeader_of_wholeFrame hs (readHdr_hdr6Bytes ch body len32 hx hc) (by
      rw [hl, ← hb]
      exact length_hdr6Bytes len32)).trans (by rw [hl])
  · rw [parseHeader_cons, if_pos (wf_sipc5BadConfig_iff.mp hw)]
    rfl

/-- BUILD_HEADER fails only with TooLong (40_codec.md R122). -/
theorem buildHeader_error {ch : ChanId} {plen : Nat} {pad : Bool} {ctl : Option Ctl} {e : ErrorCode}
    (h : buildHeader ch plen pad ctl = .error e) : ∃ n, e = .tooLong n := by
  unfold buildHeader at h
  cases ctl with
  | some c =>
    simp only at h
    split at h <;> cases h
    exact ⟨_, rfl⟩
  | none =>
    simp only at h
    split at h
    · cases h
    · split at h <;> cases h
      exact ⟨_, rfl⟩

/-- Settles O6: FRAME_BUILD runs BUILD_HEADER and adds the payload and its padding, or fails as it does. -/
theorem frameBuildIsHeaderPayloadPadding : Obligations.FrameBuildIsHeaderPayloadPadding := by
  intro ch p pad ctl s
  have hbuild : exec (.buildHeader ch p.length pad ctl) s =
      .next (s.reply (.buildHeader ch p.length pad ctl) (builtOutcome (buildHeader ch p.length pad ctl))) := rfl
  have hframe : exec (.frameBuild ch p pad ctl) s =
      .next (s.reply (.frameBuild ch p pad ctl) (builtOutcome (frameBuild ch p pad ctl))) := rfl
  rw [frameBuild] at hframe
  cases hb : buildHeader ch p.length pad ctl with
  | ok h =>
    rw [hb] at hbuild hframe
    exact .inl ⟨h, hbuild, hframe⟩
  | error e =>
    obtain ⟨n, rfl⟩ := buildHeader_error hb
    rw [hb] at hbuild hframe
    exact .inr ⟨n, hbuild, hframe⟩

end Sys2Proof.Machine

namespace Sys2Proof

open Machine (headerLen bodyLen leBytes hdr4Bytes hdr5Bytes hdr6Bytes headerLen_eq_four headerLen_eq_five
  headerLen_eq_six wf_sipc5Hdr4_iff wf_sipc5Hdr5Ctl_iff wf_sipc5Hdr6Ext_iff wf_sipc5BadConfig_iff)

/-! The branches of the decoder. -/

theorem decode_opNumber (op : Op) (bs : Bytes) : decode (opNumber op :: bs) = decodeOperands op bs := by
  rw [decode, opOfByte_opNumber]

theorem decode_of_configByte {b : Byte} (h : opOfByte b = none) (bs : Bytes) :
    decode (b :: bs) = decodeFrame (b :: bs) := by
  rw [decode, h]

/-- After the config byte of a frame with a 4-byte header (30_encoding.md R94): channel id, length and body. -/
def hdr4Fields (cfg : Byte) : Reader Instr :=
  getByte.next fun ch => (getLe 2).next fun len => (getRaw (bodyLen cfg len)).next fun body =>
    .done (.sipc5Hdr4 cfg ch (BitVec.ofNat 16 len) body)

/-- After the config byte of a frame with a 5-byte header (R94): channel id, length, control byte and body. -/
def hdr5Fields (cfg : Byte) : Reader Instr :=
  getByte.next fun ch => (getLe 2).next fun len => getByte.next fun ctl => (getRaw (bodyLen cfg len)).next fun body =>
    .done (.sipc5Hdr5Ctl cfg ch (BitVec.ofNat 16 len) ctl body)

/-- After the config byte of a frame with a 6-byte header (R94): channel id, 4-byte length and body. -/
def hdr6Fields (cfg : Byte) : Reader Instr :=
  getByte.next fun ch => (getLe 4).next fun len => (getRaw (bodyLen cfg len)).next fun body =>
    .done (.sipc5Hdr6Ext cfg ch (BitVec.ofNat 32 len) body)

theorem decodeFrame_cons (cfg : Byte) (bs : Bytes) :
    decodeFrame (cfg :: bs) =
      if cfg.getLsbD 7 = false then .ok (.sipc5BadConfig cfg, bs)
      else if headerLen cfg = 4 then hdr4Fields cfg bs
      else if headerLen cfg = 5 then hdr5Fields cfg bs
      else hdr6Fields cfg bs := rfl

theorem decodeFrame_badConfig {cfg : Byte} (h : cfg.getLsbD 7 = false) (bs : Bytes) :
    decodeFrame (cfg :: bs) = .ok (.sipc5BadConfig cfg, bs) := by
  rw [decodeFrame_cons, if_pos h]

/-- A config byte with START is no operation number, so the decoder reads a frame (log entry 9). -/
theorem decode_of_start {cfg : Byte} (h : cfg.getLsbD 7 = true) (bs : Bytes) :
    decode (cfg :: bs) =
      if headerLen cfg = 4 then hdr4Fields cfg bs
      else if headerLen cfg = 5 then hdr5Fields cfg bs
      else hdr6Fields cfg bs := by
  rw [decode_of_configByte (opOfByte_start cfg h), decodeFrame_cons, if_neg (by rw [h]; decide)]

/-! Decoding what was encoded. -/

/-- The decoder takes an operation back when its operand reader takes the operands back. -/
theorem Reader.Takes.putOp {op : Op} {v : Bytes} {i : Instr} (h : (decodeOperands op).Takes v i) :
    Reader.Takes decode (putOp op v) i := fun rest =>
  (decode_opNumber op (v ++ rest)).trans (h rest)

section
variable {cfg : Byte} (ch : ChanId) {body : Bytes}

theorem hdr4Fields_takes {len : U16} (hb : body.length = bodyLen cfg len.toNat) :
    (hdr4Fields cfg).Takes ([ch] ++ (leBytes 2 len.toNat ++ body)) (.sipc5Hdr4 cfg ch len body) := by
  refine (getByte_takes ch).next ((getLe_takes 2 len.toNat len.isLt).next ?_)
  rw [BitVec.ofNat_toNat, BitVec.setWidth_eq]
  exact (getRaw_takes _ body hb).last

theorem hdr5Fields_takes {len : U16} (ctl : Byte) (hb : body.length = bodyLen cfg len.toNat) :
    (hdr5Fields cfg).Takes ([ch] ++ (leBytes 2 len.toNat ++ ([ctl] ++ body))) (.sipc5Hdr5Ctl cfg ch len ctl body) := by
  refine (getByte_takes ch).next ((getLe_takes 2 len.toNat len.isLt).next ((getByte_takes ctl).next ?_))
  rw [BitVec.ofNat_toNat, BitVec.setWidth_eq]
  exact (getRaw_takes _ body hb).last

theorem hdr6Fields_takes {len : U32} (hb : body.length = bodyLen cfg len.toNat) :
    (hdr6Fields cfg).Takes ([ch] ++ (leBytes 4 len.toNat ++ body)) (.sipc5Hdr6Ext cfg ch len body) := by
  refine (getByte_takes ch).next ((getLe_takes 4 len.toNat len.isLt).next ?_)
  rw [BitVec.ofNat_toNat, BitVec.setWidth_eq]
  exact (getRaw_takes _ body hb).last

end

theorem mbxIrq_operand_takes (v : U16) : Reader.Takes (decodeOperands .mbxIrq) (leBytes 2 v.toNat) (.mbxIrq v) := by
  have := (getLe_takes 2 v.toNat v.isLt).last (f := fun n => Instr.mbxIrq (BitVec.ofNat 16 n))
  rwa [BitVec.ofNat_toNat, BitVec.setWidth_eq] at this

/-- The decoder takes an encoding back: an operation by its operand reader, a frame form by its config byte. -/
theorem decode_takes_encode {c : Config} {i : Instr} {w : Bytes} (hw : i.wf c = true) (he : encode i = some w)
    (hbad : ∀ cfg, i = .sipc5BadConfig cfg → opOfByte cfg = none) : Reader.Takes decode w i := by
  cases i <;> cases he
  case calcPadding n => exact .putOp (op := .calcPadding) (getNat_takes n).last
  case headerLen cfg => exact .putOp (op := .headerLen) (getByte_takes cfg).last
  case buildHeader ch plen pad ctl =>
    rw [List.append_assoc, List.cons_append]
    exact .putOp (op := .buildHeader)
      ((getByte_takes ch).next ((getNat_takes plen).next ((getBit_takes pad).next (getCtl_takes ctl).last)))
  case parseHeader b => exact .putOp (op := .parseHeader) (getBytes_takes b).last
  case totalFrameLen h => exact .putOp (op := .totalFrameLen) (getHdr_takes h hw).last
  case route ch p ctl =>
    exact .putOp (op := .route) ((getByte_takes ch).next ((getBytes_takes p).next (getCtl_takes ctl).last))
  case rxRead ch => exact .putOp (op := .rxRead) (getByte_takes ch).last
  case channelReset ch => exact .putOp (op := .channelReset) (getByte_takes ch).last
  case txEnqueue ch p ctl =>
    exact .putOp (op := .txEnqueue) ((getByte_takes ch).next ((getBytes_takes p).next (getCtl_takes ctl).last))
  case getTxSpace r => exact .putOp (op := .getTxSpace) (getNat_takes r).last
  case getRxUsed r => exact .putOp (op := .getRxUsed) (getNat_takes r).last
  case xmit r => exact .putOp (op := .xmit) (getNat_takes r).last
  case retryTimerFire r => exact .putOp (op := .retryTimerFire) (getNat_takes r).last
  case resAckTimeout r => exact .putOp (op := .resAckTimeout) (getNat_takes r).last
  case rxDrain r => exact .putOp (op := .rxDrain) (getNat_takes r).last
  case mbxReqAck r => exact .putOp (op := .mbxReqAck) (getNat_takes r).last
  case mbxResAck r => exact .putOp (op := .mbxResAck) (getNat_takes r).last
  case forbidSleep o => exact .putOp (op := .forbidSleep) (getOrigin_takes o).last
  case pollStep => exact .putOp (op := .pollStep) (Reader.done_takes _)
  case permitSleep => exact .putOp (op := .permitSleep) (Reader.done_takes _)
  case sleepTimerFire => exact .putOp (op := .sleepTimerFire) (Reader.done_takes _)
  case linkoffTimerFire => exact .putOp (op := .linkoffTimerFire) (Reader.done_takes _)
  case apWakeupEdge l => exact .putOp (op := .apWakeupEdge) (getBit_takes l).last
  case cpStatusEdge l => exact .putOp (op := .cpStatusEdge) (getBit_takes l).last
  case mbxIrq v => exact .putOp (op := .mbxIrq) (mbxIrq_operand_takes v)
  case setMode m => exact .putOp (op := .setMode) (getMode_takes m).last
  case flushTx => exact .putOp (op := .flushTx) (Reader.done_takes _)
  case sipc5Hdr4 cfg ch len body =>
    obtain ⟨hs, hx, hb⟩ := wf_sipc5Hdr4_iff.mp hw
    have hl := headerLen_eq_four hx
    intro rest
    exact (decode_of_start hs _).trans ((if_pos hl).trans (hdr4Fields_takes ch hb rest))
  case sipc5Hdr5Ctl cfg ch len ctl body =>
    obtain ⟨hs, hx, hc, hb⟩ := wf_sipc5Hdr5Ctl_iff.mp hw
    have hl := headerLen_eq_five hx hc
    intro rest
    refine (decode_of_start hs _).trans ?_
    rw [hl, if_neg (by decide), if_pos rfl]
    exact hdr5Fields_takes ch ctl hb rest
  case sipc5Hdr6Ext cfg ch len body =>
    obtain ⟨hs, hx, hc, hb⟩ := wf_sipc5Hdr6Ext_iff.mp hw
    have hl := headerLen_eq_six hx hc
    intro rest
    refine (decode_of_start hs _).trans ?_
    rw [hl, if_neg (by decide), if_neg (by decide)]
    exact hdr6Fields_takes ch hb rest
  case sipc5BadConfig cfg =>
    exact fun rest =>
      (decode_of_configByte (hbad cfg rfl) rest).trans (decodeFrame_badConfig (wf_sipc5BadConfig_iff.mp hw) rest)

/-- FRAME_BUILD alone has no bytes (30_encoding.md R102). -/
theorem encode_eq_none_iff (i : Instr) : encode i = none ↔ ∃ ch p pad ctl, i = .frameBuild ch p pad ctl := by
  constructor
  · intro h
    cases i with
    | frameBuild ch p pad ctl => exact ⟨ch, p, pad, ctl, rfl⟩
    | _ => cases h
  · rintro ⟨ch, p, pad, ctl, rfl⟩
    rfl

/-- Settles O10: each operand reader takes its writer's bytes back, so the decoder takes the encoder's. -/
theorem decodeOfEncodeGivesTheInstructionBack : Obligations.DecodeOfEncodeGivesTheInstructionBack :=
  ⟨fun _ _ _ rest hw he hbad => decode_takes_encode hw he hbad rest, fun _ rest h => decodeFrame_badConfig h rest,
    encode_eq_none_iff⟩

/-! Encoding what was decoded. -/

/-- After the bytes `pre` of an instruction, what the reader takes are the bytes that are left of its encoding. -/
def Reader.Completes (p : Reader Instr) (pre : Bytes) : Prop :=
  ∀ bs i rest, p bs = .ok (i, rest) → ∃ v, encode i = some (pre ++ v) ∧ bs = v ++ rest

theorem Reader.Completes.of_done {i : Instr} {pre : Bytes} (h : encode i = some pre) :
    (Reader.done i).Completes pre := by
  intro bs j rest hd
  obtain ⟨rfl, rfl⟩ := Reader.done_ok hd
  exact ⟨[], by rwa [List.append_nil], rfl⟩

/-- An operand read is its bytes of the encoding; the rest of the reading may use the bound `P` the reader gives it. -/
theorem Reader.Completes.next {α : Type} {p : Reader α} {f : α → Reader Instr} {w : α → Bytes} {P : α → Prop} {pre : Bytes}
    (hp : ∀ {bs a rest}, p bs = .ok (a, rest) → bs = w a ++ rest ∧ P a)
    (hf : ∀ a, P a → (f a).Completes (pre ++ w a)) : (p.next f).Completes pre := by
  intro bs i rest h
  obtain ⟨a, mid, ha, hi⟩ := Reader.next_ok h
  obtain ⟨rfl, hP⟩ := hp ha
  obtain ⟨v, hv, rfl⟩ := hf a hP mid i rest hi
  exact ⟨w a ++ v, by rw [hv, List.append_assoc], (List.append_assoc ..).symm⟩

/-- `Completes.next` for a reader without a bound. -/
theorem Reader.Only.completes {α : Type} {p : Reader α} {f : α → Reader Instr} {w : α → Bytes} {pre : Bytes}
    (hp : p.Only w) (hf : ∀ a, (f a).Completes (pre ++ w a)) : (p.next f).Completes pre :=
  Reader.Completes.next (P := fun _ => True) (fun h => ⟨hp _ _ _ h, trivial⟩) fun a _ => hf a

theorem getRaw_only (n : Nat) : Reader.Only (getRaw n) id := fun _ _ _ h => (getRaw_ok h).1

theorem decodeOperands_completes (op : Op) : (decodeOperands op).Completes [opNumber op] := by
  cases op
  case calcPadding => exact getNat_only.completes fun _ => .of_done rfl
  case headerLen => exact getByte_only.completes fun _ => .of_done rfl
  case buildHeader =>
    exact getByte_only.completes fun _ => getNat_only.completes fun _ => getBit_only.completes fun _ =>
      getCtl_only.completes fun _ => .of_done rfl
  case parseHeader => exact getBytes_only.completes fun _ => .of_done rfl
  case totalFrameLen => exact getHdr_only.completes fun _ => .of_done rfl
  case route =>
    exact getByte_only.completes fun _ => getBytes_only.completes fun _ => getCtl_only.completes fun _ =>
      .of_done rfl
  case rxRead => exact getByte_only.completes fun _ => .of_done rfl
  case channelReset => exact getByte_only.completes fun _ => .of_done rfl
  case txEnqueue =>
    exact getByte_only.completes fun _ => getBytes_only.completes fun _ => getCtl_only.completes fun _ =>
      .of_done rfl
  case getTxSpace => exact getNat_only.completes fun _ => .of_done rfl
  case getRxUsed => exact getNat_only.completes fun _ => .of_done rfl
  case xmit => exact getNat_only.completes fun _ => .of_done rfl
  case retryTimerFire => exact getNat_only.completes fun _ => .of_done rfl
  case resAckTimeout => exact getNat_only.completes fun _ => .of_done rfl
  case rxDrain => exact getNat_only.completes fun _ => .of_done rfl
  case mbxReqAck => exact getNat_only.completes fun _ => .of_done rfl
  case mbxResAck => exact getNat_only.completes fun _ => .of_done rfl
  case forbidSleep => exact getOrigin_only.completes fun _ => .of_done rfl
  case pollStep => exact .of_done rfl
  case permitSleep => exact .of_done rfl
  case sleepTimerFire => exact .of_done rfl
  case linkoffTimerFire => exact .of_done rfl
  case apWakeupEdge => exact getBit_only.completes fun _ => .of_done rfl
  case cpStatusEdge => exact getBit_only.completes fun _ => .of_done rfl
  case mbxIrq =>
    exact Reader.Completes.next getLe_ok fun v hv => .of_done (by
      simp [encode, putOp, Nat.mod_eq_of_lt (show v < 65536 from hv)])
  case setMode => exact getMode_only.completes fun _ => .of_done rfl
  case flushTx => exact .of_done rfl

theorem hdr4Fields_completes (cfg : Byte) : (hdr4Fields cfg).Completes [cfg] :=
  getByte_only.completes fun ch => .next getLe_ok fun len hlen =>
    (getRaw_only _).completes fun body => .of_done (by
      simp [encode, hdr4Bytes, Nat.mod_eq_of_lt (show len < 65536 from hlen)])

theorem hdr5Fields_completes (cfg : Byte) : (hdr5Fields cfg).Completes [cfg] :=
  getByte_only.completes fun ch => .next getLe_ok fun len hlen => getByte_only.completes fun ctl =>
    (getRaw_only _).completes fun body => .of_done (by
      simp [encode, hdr5Bytes, Nat.mod_eq_of_lt (show len < 65536 from hlen)])

theorem hdr6Fields_completes (cfg : Byte) : (hdr6Fields cfg).Completes [cfg] :=
  getByte_only.completes fun ch => .next getLe_ok fun len hlen =>
    (getRaw_only _).completes fun body => .of_done (by
      simp [encode, hdr6Bytes, Nat.mod_eq_of_lt (show len < 4294967296 from hlen)])

/-- The first byte, then the rest of the encoding. -/
theorem Reader.Completes.cons {p : Reader Instr} {b : Byte} (hp : p.Completes [b]) {bs rest : Bytes} {i : Instr}
    (h : p bs = .ok (i, rest)) : ∃ w, encode i = some w ∧ b :: bs = w ++ rest := by
  obtain ⟨v, hv, rfl⟩ := hp bs i rest h
  exact ⟨b :: v, hv, rfl⟩

theorem decodeFrame_encodes {cfg : Byte} {bs rest : Bytes} {i : Instr} (h : decodeFrame (cfg :: bs) = .ok (i, rest)) :
    ∃ w, encode i = some w ∧ cfg :: bs = w ++ rest := by
  rw [decodeFrame_cons] at h
  split at h
  · cases h
    exact ⟨[cfg], rfl, rfl⟩
  split at h
  · exact (hdr4Fields_completes cfg).cons h
  split at h
  · exact (hdr5Fields_completes cfg).cons h
  · exact (hdr6Fields_completes cfg).cons h

/-- Settles O11: each operand reader takes only its writer's bytes, so what the decoder takes is the encoding. -/
theorem decodedBytesAreTheEncoding : Obligations.DecodedBytesAreTheEncoding := by
  intro bs rest i h
  cases bs with
  | nil => cases h
  | cons b bs =>
    cases hb : opOfByte b with
    | none => exact decodeFrame_encodes ((decode_of_configByte hb bs).symm.trans h)
    | some op =>
      obtain rfl := opNumber_of_opOfByte hb
      exact (decodeOperands_completes op).cons ((decode_opNumber op bs).symm.trans h)

/-- Settles O12: the decoder run on each word. -/
theorem tableWordsDecode : Obligations.TableWordsDecode := by
  unfold Obligations.TableWordsDecode
  decide

end Sys2Proof
end

section
/-! PROOFS. The statements about the frame codec (40_codec.md): padding, the header lookup, what BUILD_HEADER writes, the checks of
PARSE_HEADER, and SPLIT of built frames. -/

namespace Sys2Proof.Machine

/-! CALC_PADDING (R120), HEADER_LEN (R121) and TOTAL_FRAME_LEN (R130). -/

/-- Settles O1: the formula of CALC_PADDING, by arithmetic modulo 4. -/
theorem calcPaddingCompletesToAMultipleOfFour : Obligations.CalcPaddingCompletesToAMultipleOfFour :=
  fun n _ => ⟨calcPadding n, rfl, rfl, calcPadding_le n, fun h => by rw [calcPadding, h],
    by rw [calcPadding]; omega⟩

theorem exec_headerLen_of_start {cfg : Byte} (hs : cfg.getLsbD 7 = true) (s : State) :
    exec (.headerLen cfg) s =
      .next { s with history := s.history ++ [.result (.headerLen cfg) (.number (headerLen cfg))] } := by
  change execHeaderLen cfg s = _
  rw [execHeaderLen, hs]
  rfl

/-- Settles O2: the operand has START, so no breach is recorded, and the lookup has one case per value of EXT and CTL. -/
theorem headerLenLooksUpExtThenCtl : Obligations.HeaderLenLooksUpExtThenCtl := by
  intro cfg s hs
  rw [exec_headerLen_of_start hs]
  cases hx : cfg.getLsbD 5 with
  | false => rw [headerLen_eq_four hx]
  | true =>
    cases hc : cfg.getLsbD 4 with
    | true => rw [headerLen_eq_five hx hc]
    | false => rw [headerLen_eq_six hx hc]

theorem totalFrameLen_of_padding {h : Hdr} (hp : h.hasPadding = true) :
    totalFrameLen h = h.frameLen + (4 - h.frameLen % 4) % 4 := by
  rw [totalFrameLen, if_pos hp, calcPadding]

theorem totalFrameLen_of_not_padding {h : Hdr} (hp : h.hasPadding = false) : totalFrameLen h = h.frameLen := by
  rw [totalFrameLen, hp]
  rfl

theorem exec_totalFrameLen_of_wf {h : Hdr} (hw : h.wf = true) (s : State) :
    exec (.totalFrameLen h) s =
      .next { s with history := s.history ++ [.result (.totalFrameLen h) (.number (totalFrameLen h))] } := by
  change execTotalFrameLen h s = _
  rw [execTotalFrameLen, hw]
  rfl

/-- Settles O5: with padding the total is the next multiple of 4, without it the frame length. -/
theorem totalFrameLenAddsThePadding : Obligations.TotalFrameLenAddsThePadding := by
  intro h s hw
  refine ⟨totalFrameLen h, exec_totalFrameLen_of_wf hw s, fun hp => ?_, totalFrameLen_of_not_padding⟩
  rw [totalFrameLen_of_padding hp]
  exact ⟨rfl, by omega⟩

/-! BUILD_HEADER (R122 to R125). -/

section
variable (ch : ChanId) {plen : Nat} (pad : Bool)

theorem buildHeader_control (c : Ctl) (h : 5 + plen ≤ 0xFFFF) :
    buildHeader ch plen pad (some c) = .ok [if pad then 0xF0 else 0xB0, ch, BitVec.ofNat 8 (5 + plen),
      BitVec.ofNat 8 ((5 + plen) / 2 ^ 8), ctlByte c] := by
  rw [buildHeader, if_neg (by omega), leBytes_two]
  cases pad <;> rfl

theorem buildHeader_control_tooLong (c : Ctl) (h : 0xFFFF < 5 + plen) :
    buildHeader ch plen pad (some c) = .error (.tooLong (5 + plen)) := by
  rw [buildHeader, if_pos h]

theorem buildHeader_base (h : 4 + plen ≤ 0xFFFF) :
    buildHeader ch plen pad none = .ok [if pad then 0xC0 else 0x80, ch, BitVec.ofNat 8 (4 + plen),
      BitVec.ofNat 8 ((4 + plen) / 2 ^ 8)] := by
  rw [buildHeader, if_pos h, leBytes_two]
  cases pad <;> rfl

theorem buildHeader_extended (hb : 0xFFFF < 4 + plen) (h : 6 + plen ≤ 0xFFFFFFFF) :
    buildHeader ch plen pad none = .ok [if pad then 0xE0 else 0xA0, ch, BitVec.ofNat 8 (6 + plen),
      BitVec.ofNat 8 ((6 + plen) / 2 ^ 8), BitVec.ofNat 8 ((6 + plen) / 2 ^ 16),
      BitVec.ofNat 8 ((6 + plen) / 2 ^ 24)] := by
  rw [buildHeader, if_neg (by omega), if_neg (by omega), leBytes_four]
  cases pad <;> rfl

theorem buildHeader_extended_tooLong (h : 0xFFFFFFFF < 6 + plen) :
    buildHeader ch plen pad none = .error (.tooLong (6 + plen)) := by
  rw [buildHeader, if_neg (by omega), if_pos h]

/-- A payload that fits its variant's length field has a header (R122 to R125). -/
theorem buildHeader_of_fits {ctl : Option Ctl}
    (h : (ctl = none ∧ 6 + plen ≤ 0xFFFFFFFF) ∨ (ctl ≠ none ∧ 5 + plen ≤ 0xFFFF)) :
    ∃ hb, buildHeader ch plen pad ctl = .ok hb := by
  obtain ⟨rfl, hx⟩ | ⟨hne, hc⟩ := h
  · by_cases hb : 4 + plen ≤ 0xFFFF
    · exact ⟨_, buildHeader_base ch pad hb⟩
    · exact ⟨_, buildHeader_extended ch pad (by omega) hx⟩
  · obtain ⟨c, rfl⟩ := Option.ne_none_iff_exists'.mp hne
    exact ⟨_, buildHeader_control ch pad c hc⟩

end

theorem exec_buildHeader_of_eq {ch : ChanId} {plen : Nat} {pad : Bool} {ctl : Option Ctl} {r : Except ErrorCode Bytes}
    (h : buildHeader ch plen pad ctl = r) (s : State) :
    exec (.buildHeader ch plen pad ctl) s =
      .next { s with history := s.history ++ [.result (.buildHeader ch plen pad ctl) (builtOutcome r)] } := by
  subst h
  change execBuildHeader ch plen pad ctl s = _
  rw [execBuildHeader, State.reply_of_ne]
  · rfl
  · cases buildHeader ch plen pad ctl <;> exact nofun

/-- Settles O3: each clause is one branch of BUILD_HEADER. -/
theorem buildHeaderWritesItsVariant : Obligations.BuildHeaderWritesItsVariant := by
  intro ch plen pad ctl s
  refine ⟨?control, ?controlTooLong, ?base, ?extended, ?extendedTooLong⟩
  case control =>
    rintro c rfl h
    exact exec_buildHeader_of_eq (buildHeader_control ch pad c h) s
  case controlTooLong =>
    rintro c rfl h
    exact exec_buildHeader_of_eq (buildHeader_control_tooLong ch pad c h) s
  case base =>
    rintro rfl h
    exact exec_buildHeader_of_eq (buildHeader_base ch pad h) s
  case extended =>
    rintro rfl hb h
    exact exec_buildHeader_of_eq (buildHeader_extended ch pad hb h) s
  case extendedTooLong =>
    rintro rfl h
    exact exec_buildHeader_of_eq (buildHeader_extended_tooLong ch pad h) s

/-! PARSE_HEADER (R126 to R129). -/

theorem exec_parseHeader_of_eq {bs : Bytes} {r : ParseResult} (h : parseHeader bs = r) (s : State) :
    exec (.parseHeader bs) s =
      .next { s with history := s.history ++ [.result (.parseHeader bs) r.outcome] } := by
  subst h
  change execParseHeader bs s = _
  rw [execParseHeader, State.reply_of_ne]
  · rfl
  · cases parseHeader bs <;> exact nofun

/-- A little-endian field byte by byte; a byte past the end counts 0. -/
theorem leNat_take_drop_succ (bs : Bytes) (i n : Nat) :
    leNat ((bs.drop i).take (n + 1)) = (bs.getD i 0).toNat + 256 * leNat ((bs.drop (i + 1)).take n) := by
  by_cases h : i < bs.length
  · rw [List.drop_eq_getElem_cons h, List.take_succ_cons, leNat, List.getD_eq_getElem _ _ h]
  · rw [List.drop_eq_nil_of_le (by omega), List.drop_eq_nil_of_le (by omega),
      List.getD_eq_default _ _ (by omega), List.take_nil, List.take_nil]
    rfl

theorem leNat_field_two (bs : Bytes) :
    leNat ((bs.drop 2).take 2) = (bs.getD 2 0).toNat + 2 ^ 8 * (bs.getD 3 0).toNat := by
  simp only [leNat_take_drop_succ, List.take_zero, leNat, Nat.reduceAdd]
  omega

theorem leNat_field_four (bs : Bytes) :
    leNat ((bs.drop 2).take 4) = (bs.getD 2 0).toNat + 2 ^ 8 * (bs.getD 3 0).toNat +
      2 ^ 16 * (bs.getD 4 0).toNat + 2 ^ 24 * (bs.getD 5 0).toNat := by
  simp only [leNat_take_drop_succ, List.take_zero, leNat, Nat.reduceAdd]
  omega

/-- The record field by field: the frame length from its bytes, the control byte's MORE and SID (R126, 30_encoding.md R96). -/
theorem readHdr_eq (cfg : Byte) (bs : Bytes) :
    readHdr cfg bs =
      { channelId := bs.getD 1 0
        frameLen := if headerLen cfg = 6 then
          (bs.getD 2 0).toNat + 2 ^ 8 * (bs.getD 3 0).toNat + 2 ^ 16 * (bs.getD 4 0).toNat + 2 ^ 24 * (bs.getD 5 0).toNat
          else (bs.getD 2 0).toNat + 2 ^ 8 * (bs.getD 3 0).toNat
        headerLen := headerLen cfg
        isExtended := cfg.getLsbD 5
        isControl := decide (headerLen cfg = 5)
        hasPadding := cfg.getLsbD 6
        ctl := if headerLen cfg = 5 then
          some ⟨(bs.getD 4 0).getLsbD 7, BitVec.ofNat 7 (bs.getD 4 0).toNat⟩ else none } := by
  rw [readHdr, leNat_field_two, leNat_field_four]
  rfl

/-- Settles O4: `parseHeader_cons` makes the five checks in order, and the fields it compares are the ones the statement
names. -/
theorem parseHeaderRunsItsChecksInOrder : Obligations.ParseHeaderRunsItsChecksInOrder := by
  intro bytes s done cfg b hl fl total
  cases bytes with
  | nil =>
    refine ⟨fun _ => exec_parseHeader_of_eq rfl s, fun h => ?_, fun h => ?_, fun h => ?_, fun h => ?_, fun h => ?_⟩ <;>
      exact absurd h (by decide)
  | cons a bs =>
    have hhl : headerLen cfg = hl := headerLen_eq cfg
    have hfl : (readHdr cfg (a :: bs)).frameLen = fl := by rw [readHdr_eq, hhl]
    have htotal : totalFrameLen (readHdr cfg (a :: bs)) = total := by
      rw [totalFrameLen, hfl]
      rfl
    have hparse : parseHeader (a :: bs) =
        if cfg.getLsbD 7 = false then .bad (.badConfig cfg)
        else if (a :: bs).length < hl then .incomplete hl
        else if fl < hl then .bad (.badLength fl)
        else if (a :: bs).length < total then .incomplete total
        else .ok (readHdr cfg (a :: bs)) := by
      rw [← hhl, ← hfl, ← htotal]
      exact parseHeader_cons a bs
    refine ⟨fun h => absurd h (by simp), fun _ hs => ?badConfig, fun _ hs hlt => ?headerPart, fun hle hs hlt => ?badLength,
      fun hle hs hfr hlt => ?framePart, fun hle hs hfr hto => ?whole⟩
    case badConfig => exact exec_parseHeader_of_eq (by rw [hparse, if_pos hs]) s
    case headerPart => exact exec_parseHeader_of_eq (by rw [hparse, if_neg (ne_false_of_eq_true hs), if_pos hlt]) s
    case badLength =>
      exact exec_parseHeader_of_eq (by rw [hparse, if_neg (ne_false_of_eq_true hs), if_neg hle.not_gt, if_pos hlt]) s
    case framePart =>
      exact exec_parseHeader_of_eq (by
        rw [hparse, if_neg (ne_false_of_eq_true hs), if_neg hle.not_gt, if_neg hfr.not_gt, if_pos hlt]) s
    case whole =>
      refine (exec_parseHeader_of_eq (hparse.trans (by
        rw [if_neg (ne_false_of_eq_true hs), if_neg hle.not_gt, if_neg hfr.not_gt, if_neg hto.not_gt])) s).trans ?_
      rw [ParseResult.outcome, readHdr_eq, hhl]

/-! FRAME_BUILD and SPLIT (R131, R132; 30_encoding.md R102). -/

theorem frameBuild_of_fits {ch : ChanId} {p : Bytes} {pad : Bool} {ctl : Option Ctl}
    (h : (ctl = none ∧ 6 + p.length ≤ 0xFFFFFFFF) ∨ (ctl ≠ none ∧ 5 + p.length ≤ 0xFFFF)) :
    ∃ f, frameBuild ch p pad ctl = .ok f := by
  obtain ⟨hb, hok⟩ := buildHeader_of_fits ch pad h
  rw [frameBuild, hok]
  exact ⟨_, rfl⟩

theorem split_of_incomplete {g : Bytes} {n : Nat} (hg : g ≠ []) (hp : parseHeader g = .incomplete n) :
    split g = ⟨[], 0, .partialFrame n⟩ := by
  rw [split, splitFrom, if_neg hg, hp]

section
variable {f p : Bytes} {H : Hdr} (hlen : f.length = totalFrameLen H) (hparse : ∀ x, parseHeader (f ++ x) = .ok H)
  (hpay : ∀ x, ((f ++ x).take H.frameLen).drop H.headerLen = p)
include hlen hparse hpay

/-- A whole frame at the front: SPLIT takes it with its payload and goes on behind it. -/
theorem splitFrom_wholeFrame (x : Bytes) (off : Nat) :
    splitFrom ((f ++ x).length + 1) (f ++ x) off =
      { splitFrom (x.length + 1) x (off + f.length) with
        frames := (H, p) :: (splitFrom (x.length + 1) x (off + f.length)).frames } := by
  have hf : f ≠ [] := by
    obtain ⟨h4, -⟩ := parseHeader_ok _ H (hparse [])
    exact List.length_pos_iff.mp (by omega)
  rw [splitFrom_frame _ f x off H hf (hparse x) hlen (Nat.lt_succ_self _), hpay]

theorem split_wholeFrame : split f = ⟨[(H, p)], f.length, .clean⟩ := by
  have h := splitFrom_wholeFrame hlen hparse hpay [] 0
  rw [List.append_nil, Nat.zero_add] at h
  exact h

end

/-- Settles O8: a payload that fits is built into a whole frame, which `frameBuild_spec` describes; SPLIT takes that one frame,
and stops at a part of it. -/
theorem builtFrameParsesBack : Obligations.BuiltFrameParsesBack := by
  intro ch p pad ctl hfit
  obtain ⟨f, hf⟩ := frameBuild_of_fits (ch := ch) (pad := pad) hfit
  obtain ⟨hb, H, hB, hlen, hparse, hpay, hpart⟩ := frameBuild_spec ch p pad ctl f hf
  have hframe := hB.frame
  refine ⟨f, H, hf, fun k => hparse _, hB.chan, by omega, by omega, hB.padding, hB.control, hB.extended,
    split_wholeFrame hlen hparse hpay, fun g rest e hg hr => ?_⟩
  obtain ⟨n, hn⟩ := hpart g rest e hg hr
  exact ⟨n, split_of_incomplete hg hn⟩

/-- SPLIT from any offset, over built frames laid end to end. -/
theorem splitFrom_frames (frames : List (ChanId × Bytes × Bool × Option Ctl × Bytes))
    (h : ∀ x ∈ frames, frameBuild x.1 x.2.1 x.2.2.1 x.2.2.2.1 = .ok x.2.2.2.2) (off : Nat) :
    ∃ hdrs : List Hdr, hdrs.length = frames.length ∧
      splitFrom ((frames.map fun x => x.2.2.2.2).flatten.length + 1) (frames.map fun x => x.2.2.2.2).flatten off =
        ⟨hdrs.zip (frames.map fun x => x.2.1), off + (frames.map fun x => x.2.2.2.2.length).sum, .clean⟩ ∧
      hdrs.map (·.channelId) = frames.map (·.1) ∧
      hdrs.map (·.ctl) = frames.map fun x => x.2.2.2.1 := by
  induction frames generalizing off with
  | nil => exact ⟨[], rfl, rfl, rfl, rfl⟩
  | cons x frames ih =>
    obtain ⟨ch, p, pad, ctl, f⟩ := x
    obtain ⟨hx, hrest⟩ := List.forall_mem_cons.mp h
    obtain ⟨hb, H, hB, hlen, hparse, hpay, -⟩ := frameBuild_spec ch p pad ctl f hx
    obtain ⟨hdrs, hcount, hsplit, hchan, hctl⟩ := ih hrest (off + f.length)
    refine ⟨H :: hdrs, congrArg (· + 1) hcount, ?_, congrArg₂ List.cons hB.chan hchan,
      congrArg₂ List.cons hB.control hctl⟩
    rw [List.map_cons, List.flatten_cons, splitFrom_wholeFrame hlen hparse hpay, hsplit, List.map_cons, List.map_cons,
      List.sum_cons, List.zip_cons_cons, Nat.add_assoc]

/-- Settles O9: SPLIT begins at offset 0, and an induction over the frames takes one after another. -/
theorem splitRecoversFramesLaidEndToEnd : Obligations.SplitRecoversFramesLaidEndToEnd := by
  intro frames h
  obtain ⟨hdrs, hcount, hsplit, hchan, hctl⟩ := splitFrom_frames frames h 0
  rw [Nat.zero_add] at hsplit
  exact ⟨hdrs, hcount, hsplit, hchan, hctl⟩

end Sys2Proof.Machine
end

section
/-! PROOFS. The statements about the demultiplexer (41_demux.md): what ROUTE does on each kind of channel, RX_READ and
CHANNEL_RESET. -/

namespace Sys2Proof.Machine

/-! One operation's end as a performed operation: ROUTE is internal and its outcome is recorded, the other two answer HOST. -/

theorem State.emit_emit (s : State) (a b : HistEvent) :
    (s.emit a).emit b = { s with history := s.history ++ [a, b] } := by
  simp only [State.emit, List.append_assoc, List.cons_append, List.nil_append]

theorem exec_route_of_eq {ch : ChanId} {p : Bytes} {ctl : Option Ctl} {s t : State} {o : OpOutcome}
    (h : route ch p ctl s = (t, o)) : exec (.route ch p ctl) s = .next (t.emit (.outcome (.route ch p ctl) o)) := by
  change execRoute ch p ctl s = _
  rw [execRoute, h]
  rfl

theorem exec_rxRead_of_eq {ch : ChanId} {s t : State} {o : OpOutcome} (h : rxRead ch s = (t, o)) (ho : o ≠ .refused) :
    exec (.rxRead ch) s = .next (t.emit (.result (.rxRead ch) o)) := by
  change execRxRead ch s = _
  rw [execRxRead, h, State.reply_of_ne _ _ _ ho]

theorem exec_channelReset_of_eq {ch : ChanId} {s t : State} {o : OpOutcome} (h : channelReset ch s = (t, o))
    (ho : o ≠ .refused) : exec (.channelReset ch) s = .next (t.emit (.result (.channelReset ch) o)) := by
  change execChannelReset ch s = _
  rw [execChannelReset, h, State.reply_of_ne _ _ _ ho]

/-! DELIVER (R146, R147), one lemma per end. -/

section
variable {cc : ChanCfg} {ch : ChanId} {d : Bytes} {s : State}

theorem deliver_misc_room (hm : cc.delivery = .misc) (hl : (s.chan ch).rxq.length ≠ s.cfg.rxqDepth) :
    deliver cc ch d s =
      ((s.setChan ch { s.chan ch with rxq := (s.chan ch).rxq ++ [d] }).emit (.wake ch), .delivered) := by
  simp only [deliver, hm, deliverMisc, if_neg hl]

theorem deliver_misc_full (hm : cc.delivery = .misc) (hl : (s.chan ch).rxq.length = s.cfg.rxqDepth) :
    deliver cc ch d s = (s.count .rxqDrop, .error (.rxQueueFull ch)) := by
  simp only [deliver, hm, deliverMisc, if_pos hl]

theorem deliver_net_ip (hn : cc.delivery = .net) (hv : ipVersionOk d = true) :
    deliver cc ch d s = (s.emit (.netDeliver ch d), .delivered) := by
  simp only [deliver, hn, deliverNet, if_pos hv]

theorem deliver_net_invalid (hn : cc.delivery = .net) (hv : ¬ ipVersionOk d = true) :
    deliver cc ch d s = (s.count .netInvalid, .error (.netInvalid ch)) := by
  simp only [deliver, hn, deliverNet, if_neg hv]

end

/-- Settles O16: the first two checks of ROUTE (R141), the channel's presence and the kind CMD. -/
theorem routeDropsUnknownAndForwardsCmd : Obligations.RouteDropsUnknownAndForwardsCmd := by
  intro ch p ctl s
  refine ⟨fun hu => exec_route_of_eq (route_unknown ch p ctl s hu), fun cc hc hk => ?_⟩
  rw [exec_route_of_eq (route_cmd ch p ctl s cc hc hk), State.emit_emit]

/-- Settles O17: the frame is delivered as it is, and the queue of its channel has room or is full. -/
theorem routeDeliversToTheMiscQueue : Obligations.RouteDeliversToTheMiscQueue := by
  intro ch p ctl s cc hc hk hf hm
  have hr : route ch p ctl s = deliver cc ch p s := route_plain ch p ctl s cc hc hk hf
  refine ⟨fun hl => ?room, fun hl => ?full⟩
  case room =>
    exact ⟨_, exec_route_of_eq (hr.trans (deliver_misc_room hm hl)), chanOnly_setChan _ _ _ _ rfl,
      State.emit_emit _ _ _⟩
  case full => exact exec_route_of_eq (hr.trans (deliver_misc_full hm hl))

/-- Settles O18: the frame is delivered as it is, and `ipVersionOk` is the statement's test of the nibble. -/
theorem routeDeliversIpPacketsOnly : Obligations.RouteDeliversIpPacketsOnly := by
  intro ch p ctl s cc hc hk hf hn
  have hr : route ch p ctl s = deliver cc ch p s := route_plain ch p ctl s cc hc hk hf
  rw [← ipVersionOk_iff]
  refine ⟨fun hv => ?ip, fun hv => ?invalid⟩
  case ip => rw [exec_route_of_eq (hr.trans (deliver_net_ip hn hv)), State.emit_emit]
  case invalid => exact exec_route_of_eq (hr.trans (deliver_net_invalid hn hv))

/-! REASSEMBLE (R144). -/

theorem reassemble_more (cc : ChanCfg) (ch : ChanId) {c : Ctl} (p : Bytes) (s : State) (hm : c.more = true) :
    reassemble cc ch c p s =
      (s.setChan ch ((s.chan ch).setSession c.sid (some (((s.chan ch).session c.sid).getD [] ++ p))), .accumulated) := by
  rw [reassemble, if_pos hm, joined_eq]

theorem reassemble_last (cc : ChanCfg) (ch : ChanId) {c : Ctl} (p : Bytes) (s : State) (hm : c.more = false) :
    reassemble cc ch c p s =
      deliver cc ch (((s.chan ch).session c.sid).getD [] ++ p) (s.setChan ch ((s.chan ch).setSession c.sid none)) := by
  rw [reassemble, if_neg (by simp [hm]), joined_eq]

/-- A write of one session leaves the queue, the other sessions and the other channels as they were. -/
theorem session_setSession_frame {s t : State} {ch : ChanId} {sid : BitVec 7} {b : Option Bytes}
    (h : t.chans = (s.setChan ch ((s.chan ch).setSession sid b)).chans) :
    (t.chan ch).session sid = b ∧ (t.chan ch).rxq = (s.chan ch).rxq ∧
      (∀ sid', sid' ≠ sid → (t.chan ch).session sid' = (s.chan ch).session sid') ∧
      ∀ ch', ch' ≠ ch → t.chan ch' = s.chan ch' := by
  obtain ⟨hself, hother⟩ := chanOnly_setChan s t ch _ h
  rw [hself]
  exact ⟨by rw [ChanState.session_setSession, if_pos rfl], rfl,
    fun sid' hne => by rw [ChanState.session_setSession, if_neg hne.symm], hother⟩

/-- Settles O19: a last fragment delivers the whole buffer in the state `u` with its session cleared, which is what ROUTE of the
buffer without a control byte does in `u`. -/
theorem routeReassemblesFmtFragments : Obligations.RouteReassemblesFmtFragments := by
  intro ch p c s cc hc hk buf i whole sessionIs
  have hr : route ch p (some c) s = reassemble cc ch c p s := route_fragment ch p c s cc hc hk
  refine ⟨fun hm => ?more, fun hm => ?last⟩
  case more =>
    exact ⟨_, exec_route_of_eq (hr.trans (reassemble_more cc ch p s hm)), session_setSession_frame rfl, rfl⟩
  case last =>
    let u : State := s.setChan ch ((s.chan ch).setSession c.sid none)
    have hwhole : route ch buf none u = deliver cc ch buf u :=
      route_plain ch buf none u cc hc (by simp [hk]) fun _ => rfl
    exact ⟨u, (deliver cc ch buf u).1, (deliver cc ch buf u).2, session_setSession_frame rfl, rfl,
      exec_route_of_eq hwhole, exec_route_of_eq (hr.trans (reassemble_last cc ch p s hm))⟩

/-! RX_READ (R148). -/

theorem rxRead_noSuchChannel {ch : ChanId} {s : State} (h : ∀ cc, s.cfg.chan? ch = some cc → cc.delivery = .net) :
    rxRead ch s = (s, .error (.noSuchChannel ch)) := by
  cases hc : s.cfg.chan? ch with
  | none => simp only [rxRead, hc]
  | some cc =>
    have hn : ¬ cc.delivery = .misc := by simp [h cc hc]
    simp only [rxRead, hc, if_neg hn]

section
variable {ch : ChanId} {s : State} {cc : ChanCfg}

theorem rxRead_empty (hc : s.cfg.chan? ch = some cc) (hm : cc.delivery = .misc) (hq : (s.chan ch).rxq = []) :
    rxRead ch s = (s, .empty) := by
  simp only [rxRead, hc, if_pos hm, hq]

theorem rxRead_data {d : Bytes} {q : List Bytes} (hc : s.cfg.chan? ch = some cc) (hm : cc.delivery = .misc)
    (hq : (s.chan ch).rxq = d :: q) : rxRead ch s = (s.setChan ch { s.chan ch with rxq := q }, .data d) := by
  simp only [rxRead, hc, if_pos hm, hq]

end

/-- Settles O20: the three ends of RX_READ. -/
theorem rxReadTakesTheOldestEntry : Obligations.RxReadTakesTheOldestEntry := by
  refine fun ch s => ⟨fun hn => ?noSuchChannel, fun cc hc hm hq => ?empty, fun cc d q hc hm hq => ?data⟩
  case noSuchChannel => exact exec_rxRead_of_eq (rxRead_noSuchChannel hn) nofun
  case empty => exact exec_rxRead_of_eq (rxRead_empty hc hm hq) nofun
  case data => exact ⟨_, exec_rxRead_of_eq (rxRead_data hc hm hq) nofun, chanOnly_setChan _ _ _ _ rfl, rfl⟩

/-! CHANNEL_RESET (R149). -/

theorem channelReset_unknown {ch : ChanId} {s : State} (hc : s.cfg.chan? ch = none) :
    channelReset ch s = (s, .error (.noSuchChannel ch)) := by
  simp only [channelReset, hc]

theorem channelReset_known {ch : ChanId} {s : State} {cc : ChanCfg} (hc : s.cfg.chan? ch = some cc) :
    channelReset ch s =
      (s.setChan ch
        { rxq := if cc.delivery = .misc then [] else (s.chan ch).rxq
          reasm := if cc.kind = .fmt then [] else (s.chan ch).reasm }, .ok) := by
  simp only [channelReset, hc]

/-- Settles O21: a known channel is left with one new value, whose table of sessions is empty when it is FMT. -/
theorem channelResetClearsSessionsAndQueue : Obligations.ChannelResetClearsSessionsAndQueue := by
  refine fun ch s => ⟨fun hu => exec_channelReset_of_eq (channelReset_unknown hu) nofun, fun cc hc => ?_⟩
  refine ⟨_, exec_channelReset_of_eq (channelReset_known hc) nofun, fun sid => ?sessions, ?queue, ?others, rfl⟩
  case sessions =>
    rw [State.emit_chan, State.chan_setChan_self]
    by_cases hk : cc.kind = .fmt
    · rw [if_pos hk, if_pos hk]
      rfl
    · rw [if_neg hk, if_neg hk]
      rfl
  case queue => rw [State.emit_chan, State.chan_setChan_self]
  case others =>
    intro ch' hne
    rw [State.emit_chan, State.chan_setChan_ne _ _ hne]

end Sys2Proof.Machine
end

section
/-! PROOFS. The statements about the ring transport (42_ring.md): the occupancy, the mode gate, TX_ENQUEUE, XMIT with its retry and
its completing poll step, the RES_ACK wait, the drain, and that BLK writes a ring's TX bytes only in that poll step. -/

namespace Sys2Proof.Machine

/-! The ring operations with their operand in `P_RINGS` and the layout inside shared memory: each one's own function. -/

section
variable {r : RingId} {rc : RingCfg} {s t : State} {o : OpOutcome}

theorem withRing_of_ring? (who : DutyReason) (k : RingCfg → Answer) (hr : s.cfg.ring? r = some rc) :
    withRing r who s k = k rc := by
  simp only [withRing, hr]

theorem withShm_of_fits (k : Answer) (hf : s.cfg.fits = true) : withShm s k = k := if_pos hf

theorem exec_xmit_of_ring? (hr : s.cfg.ring? r = some rc) : exec (.xmit r) s = .next (performXmit r .host s) :=
  withRing_of_ring? _ _ hr

theorem exec_retryTimerFire_of_ring? (hr : s.cfg.ring? r = some rc) :
    exec (.retryTimerFire r) s = .next (retryTimerFire r s) := by
  change execRetryTimerFire r s = _
  simp only [execRetryTimerFire, hr]

theorem exec_mbxResAck_of_eq (hr : s.cfg.ring? r = some rc) (h : mbxResAck r s = (t, o)) :
    exec (.mbxResAck r) s = .next (t.emit (.outcome (.mbxResAck r) o)) := by
  change execMbxResAck r s = _
  rw [execMbxResAck, withRing_of_ring? _ _ hr, h]
  rfl

theorem exec_resAckTimeout_of_eq (hr : s.cfg.ring? r = some rc) (hf : s.cfg.fits = true)
    (h : resAckTimeout rc s = (t, o)) :
    exec (.resAckTimeout r) s = .next (t.emit (.outcome (.resAckTimeout r) o)) := by
  change execResAckTimeout r s = _
  simp only [execResAckTimeout, hr, withShm_of_fits _ hf, h]
  rfl

theorem exec_rxDrain_of_eq (hr : s.cfg.ring? r = some rc) (hf : s.cfg.fits = true) (h : rxDrain rc s = (t, o)) :
    exec (.rxDrain r) s = .next (t.emit (.outcome (.rxDrain r) o)) := by
  change execRxDrain r s = _
  rw [execRxDrain, withRing_of_ring? _ _ hr, withShm_of_fits _ hf, h]
  rfl

theorem exec_mbxReqAck_of_eq (hr : s.cfg.ring? r = some rc) (hf : s.cfg.fits = true) (h : mbxReqAck rc s = (t, o)) :
    exec (.mbxReqAck r) s = .next (t.emit (.outcome (.mbxReqAck r) o)) := by
  change execMbxReqAck r s = _
  rw [execMbxReqAck, withRing_of_ring? _ _ hr, withShm_of_fits _ hf, h]
  rfl

theorem exec_getTxSpace_of_eq {g : Except ErrorCode Snapshot} (hr : s.cfg.ring? r = some rc) (hf : s.cfg.fits = true)
    (h : getTxSpace rc s = (t, g)) :
    exec (.getTxSpace r) s = .next (t.emit (.result (.getTxSpace r) (spaceOutcome g))) := by
  change execGetTxSpace r s = _
  rw [execGetTxSpace, withRing_of_ring? _ _ hr, withShm_of_fits _ hf, h]
  cases g <;> rfl

theorem exec_getRxUsed_of_eq {g : Except ErrorCode Snapshot} (hr : s.cfg.ring? r = some rc) (hf : s.cfg.fits = true)
    (h : getRxUsed rc s = (t, g)) :
    exec (.getRxUsed r) s = .next (t.emit (.result (.getRxUsed r) (usedOutcome g))) := by
  change execGetRxUsed r s = _
  rw [execGetRxUsed, withRing_of_ring? _ _ hr, withShm_of_fits _ hf, h]
  cases g <;> rfl

theorem exec_pollStep_of_busy {p : Poll} (hf : s.cfg.fits = true) (hb : s.busy = some p) :
    exec .pollStep s = .next (pollStep p s) := by
  change execPollStep s = _
  simp only [execPollStep, hb, withShm_of_fits _ hf]

end

/-! What one ring is left with. -/

theorem ringOnly_setRing_self (s : State) (r : RingId) (v : RingState) : ringOnly s (s.setRing r v) r v :=
  ringOnly_setRing s _ r v rfl

/-- Of two changes of one ring the second counts. -/
theorem ringOnly.trans {s t u : State} {r : RingId} {v w : RingState} (h : ringOnly s t r v) (g : ringOnly t u r w) :
    ringOnly s u r w :=
  ⟨g.1, fun r' hne => (g.2 r' hne).trans (h.2 r' hne)⟩

/-! TX data and TXHEAD are written by RING_WRITE alone (R188). -/

/-- Address `a` is a byte of the ring's TX data or of its TXHEAD word. -/
def txByte (rc : RingCfg) (a : Nat) : Prop :=
  (rc.txBase ≤ a ∧ a < rc.txBase + rc.txSize) ∨ (rc.txHead ≤ a ∧ a < rc.txHead + 4)

/-- A byte of TX data or of TXHEAD lies in a region of its ring. -/
theorem txByte.region {rc : RingCfg} {a : Nat} (h : txByte rc a) : ∃ g ∈ rc.regions, g.1 ≤ a ∧ a < g.1 + g.2 := by
  rcases h with h | h
  · exact ⟨(rc.txBase, rc.txSize), by simp [RingCfg.regions], h⟩
  · exact ⟨(rc.txHead, 4), by simp [RingCfg.regions], h⟩

section
variable {c : Config} (hw : c.wf = true) {rc rc' : RingCfg} (hr : rc ∈ c.rings) (hr' : rc' ∈ c.rings)
include hw hr hr'

/-- A ring's TX bytes lie outside every region of another ring. -/
theorem txByte.outside {a : Nat} (h : txByte rc a) (hne : rc ≠ rc') {g : Nat × Nat} (hg : g ∈ rc'.regions) :
    a < g.1 ∨ g.1 + g.2 ≤ a := by
  obtain ⟨g₀, hg₀, hlo, hhi⟩ := h.region
  have hap := Config.wf_rings_apart hw hr hr' hne hg₀ hg
  omega

/-- A ring's TX bytes lie outside the RXTAIL word of every ring, its own included. -/
theorem txByte.outside_rxTail {a : Nat} (h : txByte rc a) : a < rc'.rxTail ∨ rc'.rxTail + 4 ≤ a := by
  by_cases e : rc = rc'
  · subst e
    have hs := Config.wf_ring_apart hw hr
    simp only [RingCfg.regions, List.pairwise_cons, List.mem_cons, List.not_mem_nil, or_false, forall_eq_or_imp,
      forall_eq, regionsApart_iff] at hs
    obtain ⟨⟨-, -, -, hhead, -⟩, -, ⟨-, hdata, -⟩, -⟩ := hs
    unfold txByte at h
    omega
  · exact h.outside hw hr hr' e (g := (rc'.rxTail, 4)) (by simp [RingCfg.regions])

/-- RING_WRITE of another ring leaves a ring's TX bytes alone. -/
theorem txByte.read_ringWrite {a : Nat} (h : txByte rc a) (hne : rc ≠ rc') (k : Nat) (f : Bytes) (m : Memory) :
    (ringWrite rc' k f m).read a = m.read a := by
  have hsize : 0 < rc'.txSize := by
    have := Config.wf_ring hw hr'
    omega
  have hdata := h.outside hw hr hr' hne (g := (rc'.txBase, rc'.txSize)) (by simp [RingCfg.regions])
  have hhead := h.outside hw hr hr' hne (g := (rc'.txHead, 4)) (by simp [RingCfg.regions])
  rw [ringWrite, Memory.read_writeLe_outside _ _ _ _ _ hhead, Memory.read_ringPut_outside _ _ hsize _ _ _ _ hdata]

end

/-- The guard of RING_WRITE, in the state `s` a turn of BLK begins in: the poll of an XMIT of ring `r`, on a live
link. -/
def xmitOnLiveLink (s : State) (r : RingId) : Prop :=
  s.magicOk = true ∧ ∃ k who, s.busy = some ⟨k, .xmit r, who⟩

section
variable {i : Instr} {s0 s t : State} {rc : RingCfg} {a : Nat}

/-- An act leaves a ring's TX bytes alone, or its operation began under the guard of RING_WRITE. -/
theorem Act.txByte_kept (h : Act i s0 s t) (hw : s.cfg.wf = true) (hr : rc ∈ s.cfg.rings) (ha : txByte rc a) :
    t.shm.read a = s.shm.read a ∨ xmitOnLiveLink s0 rc.id := by
  cases h with
  | rxTail rc' v hr' _ =>
    rw [State.setWord_shm]
    exact .inl (Memory.read_writeLe_outside _ _ _ _ _ (ha.outside_rxTail hw hr hr'))
  | txWrite rc' k f hr' hp =>
    by_cases e : rc = rc'
    · exact .inr (e ▸ hp)
    · exact .inl (ha.read_ringWrite hw hr hr' e k f s.shm)
  | hold o who => rw [forbid_eq]; exact .inl rfl
  | sleep _ _ => rw [sleepTimerFire_frame]; exact .inl rfl
  | linkoff => rw [linkoffTimerFire_frame]; exact .inl rfl
  | wake level => rw [apWakeupEdge_frame]; exact .inl rfl
  | status level => rw [cpStatusEdge_frame]; exact .inl rfl
  | _ => exact .inl rfl

theorem Acts.txByte_kept (h : Acts i s0 s t) (hw : s.cfg.wf = true) (hr : rc ∈ s.cfg.rings) (ha : txByte rc a) :
    t.shm.read a = s.shm.read a ∨ xmitOnLiveLink s0 rc.id := by
  induction h with
  | nil s => exact .inl rfl
  | @cons s u t act _ ih =>
    have hcfg := act.env.1
    rcases act.txByte_kept hw hr ha with e | guard
    · rcases ih (hcfg ▸ hw) (hcfg ▸ hr) with e' | guard
      · exact .inl (e'.trans e)
      · exact .inr guard
    · exact .inr guard

end

/-- Settles O52: across BLK's acts a TX byte changes only under the guard of RING_WRITE, which names the poll the turn begins
with; in a state of the wake invariant that poll has a hold. -/
theorem noTxWithoutWake : Obligations.NoTxWithoutWake := by
  intro s t rc a hw hr hstep hturn ha hne
  have guarded : xmitOnLiveLink s rc.id := by
    rcases step_cases hstep with
      ⟨m, ms, hsch, hm, -⟩ | ⟨ms, -, -, -, rfl⟩ | ⟨ms, p, -, -, he⟩ | ⟨ms, i, q, -, hb, -, he⟩
    · simp [hsch, hm] at hturn
    · exact absurd rfl hne
    · exact ((exec_acts _ _ t (.inl rfl) he).txByte_kept hw hr ha).resolve_left hne
    · obtain ⟨-, k, who, hb'⟩ := ((exec_acts i (taken s ms i q) t (.inr hb) he).txByte_kept hw hr ha).resolve_left hne
      exact absurd (hb.symm.trans hb') nofun
  obtain ⟨hm, k, who, hb⟩ := guarded
  refine ⟨⟨k, who, hb⟩, (State.magicOk_iff s).mp hm, fun ⟨hheld, _, _, _, hpoll⟩ => ?_⟩
  have hcnt : 0 < s.pm.refCnt := hpoll (by simp [hb])
  exact ⟨hheld hcnt, hcnt⟩

/-! The occupancy (R170, R173, R174). -/

/-- Settles O22. -/
theorem usedAndFreeMakeUpTheRing : Obligations.UsedAndFreeMakeUpTheRing := by
  intro p hh ht
  have hlt := p.used_lt hh
  have hsum := p.used_add_free hh
  have hmod := p.used_emod ht
  refine ⟨hmod, hsum, by omega, fun e => ?same, fun e => ?empty⟩
  case same =>
    rw [e, Int.sub_self, Int.zero_emod] at hmod
    exact_mod_cast hmod
  case empty =>
    -- The distance lies strictly between `-size` and `size`, and `size` divides it.
    have hdvd : (p.size : Int) ∣ (p.head : Int) - p.tail := Int.dvd_of_emod_eq_zero (by rw [← hmod, e]; rfl)
    have hzero := Int.eq_zero_of_abs_lt_dvd hdvd (by rw [abs_lt]; omega)
    omega

section
variable {rc : RingCfg} {s : State}

theorem txSnap_inRange (hh : s.shm.readLe rc.txHead 4 < rc.txSize) (ht : s.shm.readLe rc.txTail 4 < rc.txSize) :
    (s.txSnap rc).inRange = true :=
  (Snapshot.inRange_iff _).mpr ⟨hh, ht⟩

theorem rxSnap_inRange (hh : s.shm.readLe rc.rxHead 4 < rc.rxSize) (ht : s.shm.readLe rc.rxTail 4 < rc.rxSize) :
    (s.rxSnap rc).inRange = true :=
  (Snapshot.inRange_iff _).mpr ⟨hh, ht⟩

theorem rxSnap_not_inRange (h : rc.rxSize ≤ s.shm.readLe rc.rxHead 4 ∨ rc.rxSize ≤ s.shm.readLe rc.rxTail 4) :
    ¬ (s.rxSnap rc).inRange = true := fun hi => by
  obtain ⟨hh, ht⟩ := (Snapshot.inRange_iff _).mp hi
  exact h.elim hh.not_ge ht.not_ge

end

/-- An escalation, and then the record of the operation that escalated (60_exceptions.md R286). -/
theorem State.requestRecovery_emit (s : State) (w : RecoveryReason) (e : HistEvent) : (s.requestRecovery w).emit e =
    { s with cnt := { s.cnt with recovery := s.cnt.recovery + 1 }, history := s.history ++ [.recovery w, e] } :=
  State.emit_emit (s.count .recovery) _ _

/-- Settles O27: either read answers its snapshot, or escalates. -/
theorem occupancyReadsAnswerOrEscalate : Obligations.OccupancyReadsAnswerOrEscalate := by
  intro r rc s hr hf m h t n rh rt rn
  obtain rfl := id_of_ring? hr
  refine ⟨fun hm hh ht => ?space, fun hbad => ?corrupt, fun hh ht => ?used, fun hbad => ?desync⟩
  case space =>
    have hi := txSnap_inRange hh ht
    refine ⟨(s.txSnap rc).free, ?_,
      exec_getTxSpace_of_eq hr hf (getTxSpace_ok rc s ((State.magicOk_iff s).mpr hm) hi)⟩
    have hused : ((s.txSnap rc).used : Int) = ((h : Int) - t) % n := (s.txSnap rc).used_emod ht
    have hsum : (s.txSnap rc).used + (s.txSnap rc).free = n - 1 := (s.txSnap rc).used_add_free hh
    omega
  case corrupt =>
    refine (exec_getTxSpace_of_eq hr hf (getTxSpace_corrupt rc s ?_)).trans
      (congrArg _ (State.requestRecovery_emit _ _ _))
    rintro ⟨hm, hi⟩
    obtain ⟨hh, ht⟩ := (Snapshot.inRange_iff _).mp hi
    rcases hbad with hbad | hbad | hbad
    · exact hbad ((State.magicOk_iff s).mp hm)
    · exact hh.not_ge hbad
    · exact ht.not_ge hbad
  case used =>
    exact ⟨(s.rxSnap rc).used, (s.rxSnap rc).used_emod ht,
      exec_getRxUsed_of_eq hr hf (getRxUsed_ok rc s (rxSnap_inRange hh ht))⟩
  case desync =>
    exact (exec_getRxUsed_of_eq hr hf (getRxUsed_desync rc s (rxSnap_not_inRange hbad))).trans
      (congrArg _ (State.requestRecovery_emit _ _ _))

/-! TX_ENQUEUE in IPC mode (R172). -/

theorem modeGate_run {m : LinkMode} (h : m = .ipc) : modeGate m = .run := h ▸ rfl

theorem modeGate_down {m : LinkMode} (h : m = .offline ∨ m = .uload) : modeGate m = .down := by
  rcases h with rfl | rfl <;> rfl

theorem modeGate_refuse {m : LinkMode} (h : m = .boot ∨ m = .dload) : modeGate m = .refuse := by
  rcases h with rfl | rfl <;> rfl

section
variable {ch : ChanId} {p : Bytes} {ctl : Option Ctl} {s t : State} {o : OpOutcome}

theorem exec_txEnqueue_noSuchChannel (hm : s.mode = .ipc) (h : ∀ cc, s.cfg.chan? ch = some cc → cc.kind = .cmd) :
    exec (.txEnqueue ch p ctl) s = .next (s.emit (.result (.txEnqueue ch p ctl) (.error (.noSuchChannel ch)))) := by
  change execTxEnqueue ch p ctl s = _
  cases hc : s.cfg.chan? ch with
  | none => simp only [execTxEnqueue, modeGate_run hm, hc, State.reply]
  | some cc => simp only [execTxEnqueue, modeGate_run hm, hc, if_pos (h cc hc), State.reply]

variable {cc : ChanCfg} {r : RingId} {rc : RingCfg}

theorem exec_txEnqueue_of_eq (hm : s.mode = .ipc) (hfr : s.cfg.framing = .sipc5) (hc : s.cfg.chan? ch = some cc)
    (hk : cc.kind ≠ .cmd) (hcr : cc.ring = some r) (hr : s.cfg.ring? r = some rc)
    (h : txEnqueueOn rc ch p ctl s = (t, o)) (ho : o ≠ .refused) :
    exec (.txEnqueue ch p ctl) s = .next (t.emit (.result (.txEnqueue ch p ctl) o)) := by
  have hring : s.cfg.ringFor cc = some rc := by simp only [Config.ringFor, hcr, hr]
  change execTxEnqueue ch p ctl s = _
  simp only [execTxEnqueue, modeGate_run hm, hc, if_neg hk, hfr, reduceCtorEq, if_false, hring, h]
  rw [State.reply_of_ne _ _ _ ho]

theorem txEnqueueOn_error {e : ErrorCode} (hb : frameBuild ch p rc.pad ctl = .error e) :
    txEnqueueOn rc ch p ctl s = (s, .error e) := by
  simp only [txEnqueueOn, hb]

variable {f : Bytes}

theorem txEnqueueOn_tooLong (hb : frameBuild ch p rc.pad ctl = .ok f) (hl : rc.txSize - 1 < f.length) :
    txEnqueueOn rc ch p ctl s = (s, .error (.tooLong f.length)) := by
  simp only [txEnqueueOn, hb, gt_iff_lt, if_pos hl]

theorem txEnqueueOn_full (hb : frameBuild ch p rc.pad ctl = .ok f) (hl : f.length ≤ rc.txSize - 1)
    (hq : (s.ring rc.id).txq.length = s.cfg.txqDepth) :
    txEnqueueOn rc ch p ctl s = (s.count .txqDrop, .error (.txQueueFull ch)) := by
  simp only [txEnqueueOn, hb, gt_iff_lt, if_neg hl.not_gt, if_pos hq]

theorem txEnqueueOn_queued (hb : frameBuild ch p rc.pad ctl = .ok f) (hl : f.length ≤ rc.txSize - 1)
    (hq : (s.ring rc.id).txq.length ≠ s.cfg.txqDepth) :
    txEnqueueOn rc ch p ctl s =
      (s.setRing rc.id { s.ring rc.id with txq := (s.ring rc.id).txq ++ [f] }, .queued) := by
  simp only [txEnqueueOn, hb, gt_iff_lt, if_neg hl.not_gt, if_neg hq]

end

/-- Settles O26: the channel's check, then the three checks of a built frame. -/
theorem txEnqueueQueuesTheFrameOrSaysWhy : Obligations.TxEnqueueQueuesTheFrameOrSaysWhy := by
  intro ch p ctl s hm hfr i done
  refine ⟨exec_txEnqueue_noSuchChannel hm, fun cc r rc hc hk hcr hr => ?_⟩
  obtain rfl := id_of_ring? hr
  have ends {t : State} {o : OpOutcome} (h : txEnqueueOn rc ch p ctl s = (t, o)) (ho : o ≠ .refused) :
      exec i s = .next (t.emit (.result i o)) := exec_txEnqueue_of_eq hm hfr hc hk hcr hr h ho
  refine ⟨fun e hb => ends (txEnqueueOn_error hb) nofun, fun f hb => ⟨fun hl => ?tooLong, fun hl hq => ?full,
    fun hl hq => ?queued⟩⟩
  case tooLong => exact ends (txEnqueueOn_tooLong hb hl) nofun
  case full => exact ends (txEnqueueOn_full hb hl hq) nofun
  case queued => exact ⟨_, ends (txEnqueueOn_queued hb hl hq) nofun, ringOnly_setRing _ _ _ _ rfl, rfl⟩

/-! XMIT up to its poll, and the retry (R177, R183). -/

section
variable (r : RingId) (who : Requester) {o : OpOutcome} {s : State}

/-- The records of an XMIT's outcome (log entry 13). -/
def xmitRecords (o : OpOutcome) : List HistEvent :=
  match who with
  | .host => [.result (.xmit r) o]
  | .retryTimer => [.outcome (.xmit r) o, .outcome (.retryTimerFire r) o]

theorem finishXmit_eq (s : State) (ho : o ≠ .refused) :
    finishXmit r who o s = { s with history := s.history ++ xmitRecords r who o } := by
  cases who with
  | host => exact State.reply_of_ne _ _ _ ho
  | retryTimer => exact State.emit_emit _ _ _

theorem performXmit_down (hg : modeGate s.mode = .down) :
    performXmit r who s = { s with history := s.history ++ xmitRecords r who (.error .linkDown) } := by
  have h : performXmit r who s = finishXmit r who (.error .linkDown) s := by simp only [performXmit, xmitStart, hg]
  exact h.trans (finishXmit_eq r who s nofun)

theorem performXmit_empty (hg : modeGate s.mode = .run) (hq : (s.ring r).txq = []) :
    performXmit r who s = { s.setRing r { s.ring r with resRequired := false } with
      history := s.history ++ xmitRecords r who (.sent 0) } := by
  have h : performXmit r who s = finishXmit r who (.sent 0) (s.setRing r { s.ring r with resRequired := false }) := by
    simp only [performXmit, xmitStart, hg, if_pos hq]
  exact h.trans (finishXmit_eq r who _ nofun)

theorem performXmit_wake (hg : modeGate s.mode = .run) (hq : (s.ring r).txq ≠ []) :
    performXmit r who s = forbid (.xmit r) who s := by
  simp only [performXmit, xmitStart, hg, if_neg hq]

theorem retryTimerFire_stale (h : (s.ring r).retry = .off) :
    retryTimerFire r s = s.settle (.retryTimerFire r) .stale := by
  simp only [retryTimerFire, h, Timer.isArmed_off, Bool.false_eq_true, if_false]

theorem retryTimerFire_refused (h : (s.ring r).retry ≠ .off) (hg : modeGate s.mode = .refuse) :
    retryTimerFire r s = s.refuse.settle (.retryTimerFire r) .refused := by
  rw [retryTimerFire, if_pos ((Timer.isArmed_iff _).mpr h), if_pos hg]

theorem retryTimerFire_armed (h : (s.ring r).retry ≠ .off) (hg : modeGate s.mode ≠ .refuse) :
    retryTimerFire r s = performXmit r .retryTimer (s.setRing r { s.ring r with retry := .off }) := by
  rw [retryTimerFire, if_pos ((Timer.isArmed_iff _).mpr h), if_neg hg]

end

/-- Settles O28: an armed retry is the XMIT of the state with its flag cleared. -/
theorem xmitAndRetryStartTheWake : Obligations.XmitAndRetryStartTheWake := by
  intro r rc s hr held lines
  have hx := exec_xmit_of_ring? hr
  have ht := exec_retryTimerFire_of_ring? hr
  let u : State := s.setRing r { s.ring r with retry := .off }
  have hu : (u.ring r).txq = (s.ring r).txq := by simp [u]
  have cleared : { u.ring r with resRequired := false } = { s.ring r with retry := .off, resRequired := false } := by
    simp [u]
  have armed (hm : s.mode = .ipc) (h : (s.ring r).retry ≠ .off) :
      exec (.retryTimerFire r) s = .next (performXmit r .retryTimer u) :=
    ht.trans (congrArg _ (retryTimerFire_armed r h (by rw [modeGate_run hm]; nofun)))
  have wake (who : Requester) (t : State) (hm : t.mode = .ipc) (hp : t.pm = s.pm) (hq : (t.ring r).txq ≠ []) :
      performXmit r who t =
        { t with pm := held, busy := some ⟨t.cfg.pollMax, .xmit r, who⟩, history := t.history ++ lines } := by
    rw [performXmit_wake r who (modeGate_run hm) hq, forbid_eq, hp, List.append_assoc]
  refine ⟨fun h => ?stale, fun hm hq => ?empty, fun hm hq => ?wake, fun hm h hq => ?retryEmpty,
    fun hm h hq => ?retryWake⟩
  case stale => rw [ht, retryTimerFire_stale r h]; rfl
  case empty =>
    rw [hx, performXmit_empty r .host (modeGate_run hm) hq]
    exact ⟨_, rfl, ringOnly_setRing _ _ _ _ rfl, rfl⟩
  case wake => rw [hx, wake .host s hm rfl hq]
  case retryEmpty =>
    rw [armed hm h, performXmit_empty (s := u) r .retryTimer (modeGate_run hm) (hu.trans hq)]
    refine ⟨_, rfl, ?_, rfl⟩
    rw [← cleared]
    exact (ringOnly_setRing_self s r _).trans (ringOnly_setRing u _ r _ rfl)
  case retryWake =>
    rw [armed hm h, wake .retryTimer u hm rfl (hu ▸ hq)]
    exact ⟨_, rfl, ringOnly_setRing _ _ _ _ rfl, rfl⟩

/-! The completing poll step of an XMIT, on a live link and a ring in range (R175, R177 to R179, R187). -/

section
variable (rc : RingCfg) (s : State)

/-- The loop of XMIT_BODY as the completing poll step runs it. -/
def xmitLoop : SendRun :=
  sendFrames rc (s.ring rc.id).txq (s.txSnap rc).free (s.txSnap rc).head s.shm

/-- The state the loop starts in: the poll has ended, GET_TX_SPACE has answered. -/
def xmitChecked : State :=
  { s with
    busy := none
    history := s.history ++ [.outcome (.forbidSleep (.xmit rc.id)) .ok,
      .outcome (.getTxSpace rc.id) (.space (s.txSnap rc).free (s.txSnap rc))] }

/-- The state the loop and the actions after it leave, before PERMIT_SLEEP. -/
def xmitSent : State := afterSend rc (xmitLoop rc s) (xmitChecked rc s)

/-- The outcome of the XMIT. -/
def xmitOutcome : OpOutcome :=
  if (xmitLoop rc s).rest = [] then .sent (xmitLoop rc s).written else .noSpc (xmitLoop rc s).written

theorem xmitLoop_nospc_iff : (xmitLoop rc s).nospc = true ↔ (xmitLoop rc s).rest ≠ [] := by
  obtain ⟨-, -, -, -, -, h⟩ := sendFrames_queue rc (s.ring rc.id).txq (s.txSnap rc).free (s.txSnap rc).head s.shm
  exact h

theorem xmitOutcome_eq : xmitOutcome rc s =
    if (xmitLoop rc s).nospc then .noSpc (xmitLoop rc s).written else .sent (xmitLoop rc s).written := by
  rw [xmitOutcome]
  by_cases h : (xmitLoop rc s).rest = []
  · rw [if_pos h, if_neg fun hn => (xmitLoop_nospc_iff rc s).mp hn h]
  · rw [if_neg h, if_pos ((xmitLoop_nospc_iff rc s).mpr h)]

theorem xmitOutcome_ne_refused : xmitOutcome rc s ≠ .refused := by
  unfold xmitOutcome
  split <;> nofun

/-- What the loop leaves in the ring's state and beside it (`afterSend_spec`, in the state the poll step begins in). -/
theorem xmitSent_spec :
    let rest := (xmitLoop rc s).rest
    let asks := rest ≠ [] ∧ rc.ackRing = true ∧ (s.ring rc.id).ackWait = .off
    ringOnly s (xmitSent rc s) rc.id
      { txq := rest
        resRequired := decide (rest ≠ [])
        retry := if rest ≠ [] ∧ rc.ackRing = false then .armed else (s.ring rc.id).retry
        rxAckOwed := (s.ring rc.id).rxAckOwed
        ackWait := if asks then .armed else (s.ring rc.id).ackWait } ∧
    xmitSent rc s = { xmitChecked rc s with
      shm := (xmitLoop rc s).mem
      rings := (xmitSent rc s).rings
      history := (xmitChecked rc s).history ++ (if 0 < (xmitLoop rc s).written then [.mbxOut rc.encData] else []) ++
        (if asks then [.mbxOut rc.encReqAck] else []) } :=
  afterSend_spec rc (xmitLoop rc s) (xmitChecked rc s) (xmitLoop_nospc_iff rc s)

theorem xmitSent_txq : ((xmitSent rc s).ring rc.id).txq = (xmitLoop rc s).rest := by
  obtain ⟨⟨hring, -⟩, -⟩ := xmitSent_spec rc s
  rw [hring]

theorem xmitSent_shm : (xmitSent rc s).shm = (xmitLoop rc s).mem := by
  obtain ⟨-, hframe⟩ := xmitSent_spec rc s
  exact congrArg State.shm hframe

theorem xmitSent_pm : (xmitSent rc s).pm = s.pm := by
  obtain ⟨-, hframe⟩ := xmitSent_spec rc s
  rw [hframe]
  rfl

variable {rc s}

/-- The completing poll step: the loop, PERMIT_SLEEP, and the outcome of the XMIT. -/
theorem exec_pollStep_sends {k : Nat} {who : Requester} (hf : s.cfg.fits = true) (hr : s.cfg.ring? rc.id = some rc)
    (hb : s.busy = some ⟨k, .xmit rc.id, who⟩) (hm : s.magicOk = true) (hi : (s.txSnap rc).inRange = true) :
    exec .pollStep s = .next { xmitSent rc s with
      pm := (xmitSent rc s).pm.permit
      history := (xmitSent rc s).history ++ [.outcome .permitSleep .ok] ++
        xmitRecords rc.id who (xmitOutcome rc s) } := by
  have hstart : ({ s with busy := none }.settle (.forbidSleep (.xmit rc.id)) .ok).settle (.getTxSpace rc.id)
      (.space (s.txSnap rc).free (s.txSnap rc)) = xmitChecked rc s := State.emit_emit _ _ _
  rw [exec_pollStep_of_busy hf hb, pollStep_sends rc.id rc s k who hr hm hi, hstart]
  change Host.Outcome.next (finishXmit rc.id who (if (xmitLoop rc s).nospc then .noSpc (xmitLoop rc s).written else
    .sent (xmitLoop rc s).written) (permitWithin (xmitSent rc s))) = _
  rw [← xmitOutcome_eq, finishXmit_eq _ _ _ (xmitOutcome_ne_refused rc s), permitWithin_eq]

end

/-- Settles O29: the loop takes the most whole frames that fit (`sendFrames_queue`) and writes their bytes
(`sendFrames_memory`). -/
theorem xmitSendsTheLongestPrefixThatFits : Obligations.XmitSendsTheLongestPrefixThatFits := by
  intro r rc s k who hw hr hb hm hh ht h n free
  obtain rfl := id_of_ring? hr
  obtain ⟨hsize, hword, -, -⟩ := Config.wf_ring hw (mem_of_ring? hr)
  have hap := Config.wf_data_apart hw (mem_of_ring? hr) (mem_of_ring? hr) (w := (rc.txHead, rc.txSize))
    (by simp [indexWords]) (.inl rfl)
  have hstep := exec_pollStep_sends (Config.wf_fits hw) hr hb ((State.magicOk_iff s).mpr hm) (txSnap_inRange hh ht)
  obtain ⟨sent, hqueue, -, hfit, hlongest, -⟩ := sendFrames_queue rc (s.ring rc.id).txq free h s.shm
  obtain ⟨hhead, hbytes, hother⟩ := sendFrames_memory rc _ sent free h s.shm (by omega) hword (by omega) hh rfl
    hap hqueue
  refine ⟨_, sent, (xmitLoop rc s).rest, hstep, hqueue, xmitSent_txq rc s, hfit, hlongest, ?_⟩
  change (xmitSent rc s).shm.readLe rc.txHead 4 = _ ∧
    (∀ i, i < sent.flatten.length → (xmitSent rc s).shm.read (rc.txBase + (h + i) % n) = _) ∧
    ∀ a, _ → _ → (xmitSent rc s).shm.read a = _
  rw [xmitSent_shm]
  exact ⟨hhead, hbytes, hother⟩

/-- Settles O30: the loop's ends by `afterSend_spec`, the hold given back by PERMIT_SLEEP, then the records. -/
theorem xmitBackpressureAndNotification : Obligations.XmitBackpressureAndNotification := by
  intro r rc s k who hw hr hb hm hh ht h tl n free
  obtain rfl := id_of_ring? hr
  have hstep := exec_pollStep_sends (Config.wf_fits hw) hr hb ((State.magicOk_iff s).mpr hm) (txSnap_inRange hh ht)
  obtain ⟨hring, hframe⟩ := xmitSent_spec rc s
  obtain ⟨sent, hqueue, hwritten, -⟩ := sendFrames_queue rc (s.ring rc.id).txq free h s.shm
  refine ⟨_, (xmitLoop rc s).written, hstep, ?_⟩
  intro rest
  have hrest : rest = (xmitLoop rc s).rest := xmitSent_txq rc s
  clear_value rest
  subst hrest
  intro asks o
  refine ⟨?bytes, hring, ?hold, ?frame⟩
  case bytes =>
    change (xmitLoop rc s).written = _ at hwritten
    rw [hqueue, List.flatten_append, List.length_append, hwritten]
    rfl
  case hold =>
    change (xmitSent rc s).pm.permit = _
    rw [xmitSent_pm, Pm.permit_eq]
  case frame =>
    rw [hframe]
    cases who <;> rfl

/-! The RES_ACK wait (R181, R182). -/

section
variable {r : RingId} {rc : RingCfg} {s : State}

theorem mbxResAck_run (hg : modeGate s.mode = .run) : mbxResAck r s =
    (s.setRing r { s.ring r with
      ackWait := .off, resRequired := false,
      retry := if (s.ring r).txq = [] then (s.ring r).retry else .armed }, .ok) := by
  simp only [mbxResAck, hg, RingState.armRetryIfQueued_eq]

theorem resAckTimeout_stale (h : (s.ring rc.id).ackWait = .off) : resAckTimeout rc s = (s, .stale) := by
  simp only [resAckTimeout, h, Timer.isArmed_off, Bool.false_eq_true, if_false]

section
variable (h : (s.ring rc.id).ackWait ≠ .off)
include h

theorem resAckTimeout_refused (hg : modeGate s.mode = .refuse) : resAckTimeout rc s = (s.refuse, .refused) := by
  simp only [resAckTimeout, if_pos ((Timer.isArmed_iff _).mpr h), hg]

theorem resAckTimeout_down (hg : modeGate s.mode = .down) :
    resAckTimeout rc s = (s.setRing rc.id { s.ring rc.id with ackWait := .off }, .ok) := by
  simp only [resAckTimeout, if_pos ((Timer.isArmed_iff _).mpr h), hg]

theorem resAckTimeout_drained (hg : modeGate s.mode = .run) (he : s.word rc.txHead = s.word rc.txTail) :
    resAckTimeout rc s =
      (s.setRing rc.id { s.ring rc.id with
        ackWait := .off, resRequired := false,
        retry := if (s.ring rc.id).txq = [] then (s.ring rc.id).retry else .armed }, .ok) := by
  simp only [resAckTimeout, if_pos ((Timer.isArmed_iff _).mpr h), hg, ackTimeoutRun, if_pos he,
    RingState.armRetryIfQueued_eq]

theorem resAckTimeout_stuck (hg : modeGate s.mode = .run) (hne : s.word rc.txHead ≠ s.word rc.txTail) :
    resAckTimeout rc s =
      (s.setRing rc.id { s.ring rc.id with ackWait := .off }, .error (.ackTimeout rc.id)) := by
  simp only [resAckTimeout, if_pos ((Timer.isArmed_iff _).mpr h), hg, ackTimeoutRun, if_neg hne]

end

end

/-- Settles O31. -/
theorem resAckEndsTheWait : Obligations.ResAckEndsTheWait := by
  intro r rc s hm hr
  exact ⟨_, exec_mbxResAck_of_eq hr (mbxResAck_run (modeGate_run hm)), ringOnly_setRing _ _ _ _ rfl, rfl⟩

/-- Settles O32: the four ends of the timeout outside the modes without a data path. -/
theorem resAckTimeoutTellsDrainedFromStuck : Obligations.ResAckTimeoutTellsDrainedFromStuck := by
  intro r rc s hr hf h t
  obtain rfl := id_of_ring? hr
  refine ⟨fun hw => ?stale, fun hm hw he => ?drained, fun hm hw hne => ?stuck⟩
  case stale => exact exec_resAckTimeout_of_eq hr hf (resAckTimeout_stale hw)
  case drained =>
    exact ⟨_, exec_resAckTimeout_of_eq hr hf (resAckTimeout_drained hw (modeGate_run hm) he),
      ringOnly_setRing _ _ _ _ rfl, rfl⟩
  case stuck =>
    exact ⟨_, exec_resAckTimeout_of_eq hr hf (resAckTimeout_stuck hw (modeGate_run hm) hne),
      ringOnly_setRing _ _ _ _ rfl, rfl⟩

/-! Draining (R184, R185). -/

section
variable {rc : RingCfg} {s : State}

theorem rxDrain_refused (hg : modeGate s.mode = .refuse) : rxDrain rc s = (s.refuse, .refused) := by
  simp only [rxDrain, hg]

section
variable (hg : modeGate s.mode = .run) (hfr : s.cfg.framing = .sipc5)
include hg hfr

theorem rxDrain_run (hi : (s.rxSnap rc).inRange = true) : rxDrain rc s = drainRun rc s := by
  simp only [rxDrain, hg, hfr, reduceCtorEq, if_false, if_pos hi]

theorem rxDrain_desync (hi : ¬ (s.rxSnap rc).inRange = true) :
    rxDrain rc s = (s.requestRecovery (.ringDesync rc.id), .error (.desync rc.id)) := by
  simp only [rxDrain, hg, hfr, reduceCtorEq, if_false, if_neg hi]

end

theorem drainRun_clean (h : drainError rc.rxSize (split (rxBytes rc s)).ending = none) : drainRun rc s =
    (payAck rc ((routeAll (split (rxBytes rc s)).frames s).setWord rc.rxTail
      (((s.rxSnap rc).tail + (split (rxBytes rc s)).off) % rc.rxSize)),
     .drained (split (rxBytes rc s)).frames.length) := by
  simp only [drainRun, h]

theorem drainRun_malformed {e : ParseError} (h : drainError rc.rxSize (split (rxBytes rc s)).ending = some e) :
    drainRun rc s =
      ((((routeAll (split (rxBytes rc s)).frames s).count .badHeader).setWord rc.rxTail
        (s.rxSnap rc).head).requestRecovery (.ringDesync rc.id), .error (.malformed e)) := by
  simp only [drainRun, h]

/-- The ending of a drain's SPLIT is no error when it is clean or a partial frame that can still fit the ring. -/
theorem drainError_none {n : Nat} {w : SplitEnd} (h : w = .clean ∨ ∃ need, w = .partialFrame need ∧ need ≤ n - 1) :
    drainError n w = none := by
  rcases h with rfl | ⟨need, rfl, hle⟩
  · rfl
  · exact if_neg hle.not_gt

theorem drainError_some {n : Nat} {w : SplitEnd} {e : ParseError}
    (h : w = .malformed e ∨ ∃ need, w = .partialFrame need ∧ n - 1 < need ∧ e = .badLength need) :
    drainError n w = some e := by
  rcases h with rfl | ⟨need, rfl, hlt, rfl⟩
  · rfl
  · exact if_pos hlt

/-- Paying an owed RES_ACK (R185) sends it and clears the debt; without a debt nothing changes. -/
theorem payAck_spec (rc : RingCfg) (s : State) :
    ringOnly s (payAck rc s) rc.id { s.ring rc.id with rxAckOwed := false } ∧
    payAck rc s = { s with
      rings := (payAck rc s).rings
      history := s.history ++ if (s.ring rc.id).rxAckOwed then [.mbxOut rc.encResAck] else [] } := by
  by_cases h : (s.ring rc.id).rxAckOwed = true
  · rw [payAck, if_pos h, if_pos h]
    exact ⟨ringOnly_setRing _ _ _ _ rfl, rfl⟩
  · have hsame : { s.ring rc.id with rxAckOwed := false } = s.ring rc.id := by
      rw [← Bool.eq_false_iff.mpr h]
    rw [payAck, if_neg h, if_neg h, hsame, List.append_nil]
    exact ⟨⟨rfl, fun _ _ => rfl⟩, rfl⟩

theorem routeAll_ring (fs : List (Hdr × Bytes)) (s : State) (r : RingId) : (routeAll fs s).ring r = s.ring r := by
  rw [routeAll_frame]
  rfl

theorem routeAll_shm (fs : List (Hdr × Bytes)) (s : State) : (routeAll fs s).shm = s.shm := by
  rw [routeAll_frame]

end

/-- Settles O33: the ROUTEs write no shared memory and no ring, and `payAck` writes the one ring only. -/
theorem rxDrainRoutesFramesAndAdvancesTheTail : Obligations.RxDrainRoutesFramesAndAdvancesTheTail := by
  intro r rc s hm hfr hw hr hh ht h tl n sp hend
  obtain rfl := id_of_ring? hr
  obtain ⟨-, -, hsize, hword⟩ := Config.wf_ring hw (mem_of_ring? hr)
  have hdrain : rxDrain rc s = (payAck rc ((routeAll sp.frames s).setWord rc.rxTail ((tl + sp.off) % n)),
      .drained sp.frames.length) :=
    (rxDrain_run (modeGate_run hm) hfr (rxSnap_inRange hh ht)).trans (drainRun_clean (drainError_none hend))
  have hroutes := runAll_routes sp.frames s
  have hring := routeAll_ring sp.frames s
  have hshm := routeAll_shm sp.frames s
  generalize routeAll sp.frames s = u at hdrain hroutes hring hshm
  obtain ⟨⟨hself, hothers⟩, hframe⟩ := payAck_spec rc (u.setWord rc.rxTail ((tl + sp.off) % n))
  have hpaid : (payAck rc (u.setWord rc.rxTail ((tl + sp.off) % n))).shm =
      s.shm.writeLe rc.rxTail 4 ((tl + sp.off) % n) := by rw [hframe, ← hshm]; rfl
  simp only [State.setWord_ring, hring] at hself hothers hframe
  refine ⟨u, _, hroutes, exec_rxDrain_of_eq hr (Config.wf_fits hw) hdrain, ?tail, fun a ha => ?bytes,
    ⟨hself, hothers⟩, ?frame⟩
  case tail =>
    have hlt : (tl + sp.off) % n < 256 ^ 4 := (Nat.mod_lt _ (by omega)).trans hword
    rw [State.emit_shm, hpaid, Memory.readLe_writeLe_self, Nat.mod_eq_of_lt hlt]
  case bytes => rw [State.emit_shm, hpaid, Memory.read_writeLe_outside _ _ _ _ _ ha]
  case frame =>
    rw [hframe]
    rfl

/-- Settles O34: the ROUTEs write no shared memory; then RXTAIL, the two counters and the recovery request. -/
theorem rxDrainOnAMalformedFrameEscalates : Obligations.RxDrainOnAMalformedFrameEscalates := by
  intro r rc s e hm hfr hw hr hh ht h tl n sp hend
  obtain rfl := id_of_ring? hr
  obtain ⟨-, -, -, hword⟩ := Config.wf_ring hw (mem_of_ring? hr)
  have hdrain : rxDrain rc s =
      ((((routeAll sp.frames s).count .badHeader).setWord rc.rxTail h).requestRecovery (.ringDesync rc.id),
        .error (.malformed e)) :=
    (rxDrain_run (modeGate_run hm) hfr (rxSnap_inRange hh ht)).trans (drainRun_malformed (drainError_some hend))
  have hroutes := runAll_routes sp.frames s
  have hshm := routeAll_shm sp.frames s
  generalize routeAll sp.frames s = u at hdrain hroutes hshm
  refine ⟨u, _, hroutes, exec_rxDrain_of_eq hr (Config.wf_fits hw) hdrain, ?tail, fun a ha => ?bytes,
    State.requestRecovery_emit _ _ _⟩
  case tail =>
    rw [State.emit_shm, State.requestRecovery_shm]
    exact State.word_setWord_self _ _ _ (hh.trans hword)
  case bytes =>
    rw [State.emit_shm, State.requestRecovery_shm, State.setWord_shm, Memory.read_writeLe_outside _ _ _ _ _ ha,
      State.count_shm, hshm]

/-- Settles O35. -/
theorem rxDrainOutOfRangeIsDesync : Obligations.RxDrainOutOfRangeIsDesync := by
  intro r rc s hm hfr hf hr hbad
  obtain rfl := id_of_ring? hr
  exact (exec_rxDrain_of_eq hr hf (rxDrain_desync (modeGate_run hm) hfr (rxSnap_not_inRange hbad))).trans
    (congrArg _ (State.requestRecovery_emit _ _ _))

section
variable {rc : RingCfg} {s : State}

theorem mbxReqAck_refused (hg : modeGate s.mode = .refuse) : mbxReqAck rc s = (s.refuse, .refused) := by
  simp only [mbxReqAck, hg]

theorem mbxReqAck_run (hg : modeGate s.mode = .run) : mbxReqAck rc s =
    (rxDrainWithin rc (s.setRing rc.id { s.ring rc.id with rxAckOwed := true }),
      (rxDrain rc (s.setRing rc.id { s.ring rc.id with rxAckOwed := true })).2) := by
  simp only [mbxReqAck, hg, rxDrainWithin]

end

/-- Settles O36: the drain is that of the state with the debt noted. -/
theorem reqAckOwesAndDrains : Obligations.ReqAckOwesAndDrains := by
  intro r rc s hm hf hr
  obtain rfl := id_of_ring? hr
  let u : State := s.setRing rc.id { s.ring rc.id with rxAckOwed := true }
  exact ⟨u, rxDrainWithin rc u, (rxDrain rc u).2, ringOnly_setRing_self _ _ _, rfl,
    exec_rxDrain_of_eq (s := u) hr hf rfl, List.getLast?_concat ..,
    exec_mbxReqAck_of_eq hr hf (mbxReqAck_run (modeGate_run hm))⟩

/-! The modes without a data path (R171). -/

section
variable {ch : ChanId} {p : Bytes} {ctl : Option Ctl} {r : RingId} {s : State}

theorem exec_txEnqueue_down (hg : modeGate s.mode = .down) : exec (.txEnqueue ch p ctl) s =
    .next (s.emit (.result (.txEnqueue ch p ctl) (.error .linkDown))) := by
  change execTxEnqueue ch p ctl s = _
  simp only [execTxEnqueue, hg, State.reply]

theorem exec_txEnqueue_refused (hg : modeGate s.mode = .refuse) : exec (.txEnqueue ch p ctl) s =
    .next (s.refuse.emit (.outcome (.txEnqueue ch p ctl) .refused)) := by
  change execTxEnqueue ch p ctl s = _
  simp only [execTxEnqueue, hg, State.reply]

theorem performXmit_refused (hg : modeGate s.mode = .refuse) :
    performXmit r .host s = s.refuse.emit (.outcome (.xmit r) .refused) := by
  simp only [performXmit, xmitStart, hg, finishXmit, State.reply]

theorem mbxResAck_refused (hg : modeGate s.mode = .refuse) : mbxResAck r s = (s.refuse, .refused) := by
  simp only [mbxResAck, hg]

end

/-- Settles O23. -/
theorem linkDownStopsTheDataPath : Obligations.LinkDownStopsTheDataPath := by
  intro s ch p ctl r rc hm hr hf
  obtain rfl := id_of_ring? hr
  have hg := modeGate_down hm
  refine ⟨exec_txEnqueue_down hg, ?xmit, fun h => ?retry, fun h => ?ackTimeout⟩
  case xmit => rw [exec_xmit_of_ring? hr, performXmit_down _ .host hg]; rfl
  case retry =>
    rw [exec_retryTimerFire_of_ring? hr, retryTimerFire_armed rc.id h (by rw [hg]; nofun)]
    exact ⟨_, congrArg _ (performXmit_down _ .retryTimer hg), ringOnly_setRing _ _ _ _ rfl, rfl⟩
  case ackTimeout =>
    exact ⟨_, exec_resAckTimeout_of_eq hr hf (resAckTimeout_down h hg), ringOnly_setRing _ _ _ _ rfl, rfl⟩

/-- Settles O24: one refusal for each operation of the list. -/
theorem bootAndDloadRefuseTheDataPath : Obligations.BootAndDloadRefuseTheDataPath := by
  intro s ch p ctl r rc hm hr hf i hi
  obtain rfl := id_of_ring? hr
  have hg := modeGate_refuse hm
  simp only [List.mem_append, List.mem_ite_nil_left, List.mem_cons, List.not_mem_nil, or_false] at hi
  obtain ((rfl | rfl | rfl | rfl | rfl) | ⟨h, rfl⟩) | ⟨h, rfl⟩ := hi
  · exact exec_txEnqueue_refused hg
  · exact (exec_xmit_of_ring? hr).trans (congrArg _ (performXmit_refused hg))
  · exact exec_rxDrain_of_eq hr hf (rxDrain_refused hg)
  · exact exec_mbxReqAck_of_eq hr hf (mbxReqAck_refused hg)
  · exact exec_mbxResAck_of_eq hr (mbxResAck_refused hg)
  · exact (exec_retryTimerFire_of_ring? hr).trans (congrArg _ (retryTimerFire_refused rc.id h hg))
  · exact exec_resAckTimeout_of_eq hr hf (resAckTimeout_refused h hg)

end Sys2Proof.Machine
end

section
/-! PROOFS. The statements about the power-management handshake (43_pm.md): the hold and its poll, the release timers, the
line edges, the wake invariant and the fall of cp_wakeup. -/

namespace Sys2Proof.Machine

/-! The named states (R220). -/

theorem Pm.named_eq_asleep_iff (p : Pm) : p.named = .asleep ↔ p.refCnt = 0 ∧ p.sleep.isArmed = false ∧
    p.linkoff.isArmed = false ∧ p.cpWakeup = false ∧ p.apStatus = false := by
  unfold Pm.named
  split_ifs <;> simp_all [Nat.pos_iff_ne_zero]

theorem Pm.named_eq_awakeIdle_iff (p : Pm) : p.named = .awakeIdle ↔ p.refCnt = 0 ∧ p.sleep.isArmed = false ∧
    p.linkoff.isArmed = false ∧ ¬ (p.cpWakeup = false ∧ p.apStatus = false) := by
  unfold Pm.named
  split_ifs <;> simp_all [Nat.pos_iff_ne_zero]

/-! Driving a line, as an equation of the state (20_memory.md R67). -/

theorem State.drive_high (s : State) (l : OutLine) : s.drive l true =
    { s with pm := s.pm.setLine l true, history := s.history ++ if s.pm.line l then [] else [.gpio l true] } := by
  rw [State.drive_frame, State.drive_pm, State.drive_history]
  cases h : s.pm.line l <;> simp

theorem State.drive_low (s : State) (l : OutLine) : s.drive l false =
    { s with pm := s.pm.setLine l false, history := s.history ++ if s.pm.line l then [.gpio l false] else [] } := by
  rw [State.drive_frame, State.drive_pm, State.drive_history]
  cases h : s.pm.line l <;> simp

/-! SLEEP_TIMER_FIRE (R226), one lemma per end. -/

theorem State.anyResRequired_iff (s : State) :
    s.anyResRequired = true ↔ ∃ rc ∈ s.cfg.rings, (s.ring rc.id).resRequired = true :=
  List.any_eq_true

/-- What keeps the sleep timer from releasing the link: a hold, a newer wake edge, or a ring that waits for a
response. -/
def sleepBlocked (s : State) : Prop :=
  0 < s.pm.refCnt ∨ s.pm.wakeGen ≠ s.pm.sleepGen ∨ ∃ rc ∈ s.cfg.rings, (s.ring rc.id).resRequired = true

theorem sleepTimerFire_stale {s : State} (h : s.pm.sleep = .off) : sleepTimerFire s = (s, .stale) := by
  rw [sleepTimerFire, if_neg (by simp [h, Timer.isArmed])]

theorem sleepTimerFire_rescheduled {s : State} (h : s.pm.sleep ≠ .off) (hb : sleepBlocked s) :
    sleepTimerFire s = ({ s with pm := { s.pm with sleep := .armed, sleepGen := s.pm.wakeGen } }, .rescheduled) := by
  rw [sleepBlocked, ← State.anyResRequired_iff] at hb
  rw [sleepTimerFire, if_pos ((Timer.isArmed_iff _).mpr h), if_pos hb]
  rfl

theorem sleepTimerFire_released {s : State} (h : s.pm.sleep ≠ .off) (hb : ¬ sleepBlocked s) :
    sleepTimerFire s = ({ s with
      pm := { s.pm with sleep := .off, cpWakeup := false, linkoff := .armed }
      history := s.history ++ if s.pm.cpWakeup then [.gpio .cpWakeup false] else [] }, .released) := by
  rw [sleepBlocked, ← State.anyResRequired_iff] at hb
  rw [sleepTimerFire, if_pos ((Timer.isArmed_iff _).mpr h), if_neg hb]
  simp only [State.drive_low]
  rfl

/-! LINKOFF_TIMER_FIRE (R227), one lemma per end. -/

theorem linkoffTimerFire_stale {s : State} (h : s.pm.linkoff = .off) : linkoffTimerFire s = (s, .stale) := by
  rw [linkoffTimerFire, if_neg (by simp [h, Timer.isArmed])]

theorem linkoffTimerFire_cancelled {s : State} (h : s.pm.linkoff ≠ .off)
    (hheld : 0 < s.pm.refCnt ∨ s.pm.cpWakeup = true) :
    linkoffTimerFire s = ({ s with pm := { s.pm with linkoff := .off } }, .cancelled) := by
  rw [linkoffTimerFire, if_pos ((Timer.isArmed_iff _).mpr h), if_pos hheld]

theorem linkoffTimerFire_rescheduled {s : State} (h : s.pm.linkoff ≠ .off)
    (hfree : ¬ (0 < s.pm.refCnt ∨ s.pm.cpWakeup = true)) (hhigh : s.cpStatus = true ∨ s.apWakeup = true) :
    linkoffTimerFire s = ({ s with pm := { s.pm with linkoff := .armed } }, .rescheduled) := by
  rw [linkoffTimerFire, if_pos ((Timer.isArmed_iff _).mpr h), if_neg hfree, if_pos hhigh]

theorem linkoffTimerFire_released {s : State} (h : s.pm.linkoff ≠ .off)
    (hfree : ¬ (0 < s.pm.refCnt ∨ s.pm.cpWakeup = true)) (hlow : ¬ (s.cpStatus = true ∨ s.apWakeup = true)) :
    linkoffTimerFire s = ({ s with
      pm := { s.pm with linkoff := .off, apStatus := false }
      history := s.history ++ if s.pm.apStatus then [.gpio .apStatus false] else [] }, .released) := by
  rw [linkoffTimerFire, if_pos ((Timer.isArmed_iff _).mpr h), if_neg hfree, if_neg hlow]
  simp only [State.drive_low]
  rfl

/-! The line edges (R228, R229). -/

theorem apWakeupEdge_rising (s : State) : apWakeupEdge true s = ({ s with
    pm := { s.pm with wakeGen := s.pm.wakeGen + 1, linkoff := .off, apStatus := true,
                      sleep := if s.pm.refCnt = 0 then .armed else .off,
                      sleepGen := if s.pm.refCnt = 0 then s.pm.wakeGen + 1 else s.pm.sleepGen }
    history := s.history ++ if s.pm.apStatus then [] else [.gpio .apStatus true] }, .ok) := by
  rw [apWakeupEdge, if_pos rfl]
  simp only [State.drive_high, Pm.setLine, Pm.cancelTimers, Pm.armSleep]
  by_cases h : s.pm.refCnt = 0
  · simp only [if_pos h]
    rfl
  · simp only [if_neg h]
    rfl

theorem cpStatusEdge_rising (s : State) : cpStatusEdge true s = (s, .ok) := by
  simp only [cpStatusEdge, Bool.true_eq_false, false_and, if_false]

/-- With cp_wakeup low, AWAKE_IDLE is the rule's condition. -/
theorem cpStatusEdge_falling (s : State) : cpStatusEdge false s = ({ s with
    pm := { s.pm with linkoff :=
      if s.pm.named = .awakeIdle ∧ s.pm.cpWakeup = false then .armed else s.pm.linkoff } }, .ok) := by
  have hcond : (s.pm.named = .awakeIdle ∧ s.pm.cpWakeup = false) ↔ (false = false ∧ s.pm.refCnt = 0 ∧
      s.pm.cpWakeup = false ∧ s.pm.apStatus = true ∧ s.pm.sleep.isArmed = false ∧ s.pm.linkoff.isArmed = false) := by
    rw [Pm.named_eq_awakeIdle_iff, ← Bool.not_eq_true s.pm.apStatus]
    tauto
  unfold cpStatusEdge
  by_cases h : s.pm.named = .awakeIdle ∧ s.pm.cpWakeup = false
  · rw [if_pos h, if_pos (hcond.mp h)]
  · rw [if_neg h, if_neg (mt hcond.mpr h)]

/-! The performed operations: an event's outcome is recorded. -/

section
variable {s t : State} {o : OpOutcome}

theorem exec_sleepTimerFire_of_eq (h : sleepTimerFire s = (t, o)) :
    exec .sleepTimerFire s = .next (t.emit (.outcome .sleepTimerFire o)) := by
  change execSleepTimerFire s = _
  rw [execSleepTimerFire, h]
  rfl

theorem exec_linkoffTimerFire_of_eq (h : linkoffTimerFire s = (t, o)) :
    exec .linkoffTimerFire s = .next (t.emit (.outcome .linkoffTimerFire o)) := by
  change execLinkoffTimerFire s = _
  rw [execLinkoffTimerFire, h]
  rfl

theorem exec_apWakeupEdge_of_eq {level : Bool} (h : apWakeupEdge level s = (t, o)) :
    exec (.apWakeupEdge level) s = .next (t.emit (.outcome (.apWakeupEdge level) o)) := by
  change execApWakeupEdge level s = _
  rw [execApWakeupEdge, h]
  rfl

theorem exec_cpStatusEdge_of_eq {level : Bool} (h : cpStatusEdge level s = (t, o)) :
    exec (.cpStatusEdge level) s = .next (t.emit (.outcome (.cpStatusEdge level) o)) := by
  change execCpStatusEdge level s = _
  rw [execCpStatusEdge, h]
  rfl

end

theorem exec_permitSleep (s : State) : exec .permitSleep s =
    .next { s with pm := s.pm.permit, history := s.history ++ [.result .permitSleep .ok] } := rfl

/-- Settles O37: `forbid_eq`, for an XMIT with its ring in `P_RINGS`. -/
theorem forbidSleepHoldsAndBeginsThePoll : Obligations.ForbidSleepHoldsAndBeginsThePoll := by
  intro s o rc hring
  cases o with
  | host => exact congrArg _ (forbid_eq .host .host s)
  | xmit r => exact (withRing_of_ring? .host _ (hring r rfl)).trans (congrArg _ (forbid_eq (.xmit r) .host s))

/-- Settles O40: the two branches of `Pm.permit_eq`. -/
theorem permitSleepDecrementsAndArmsAtZero : Obligations.PermitSleepDecrementsAndArmsAtZero := by
  refine fun s => ⟨fun n hn => ?held, fun hlast => ?last⟩
  case held => rw [exec_permitSleep, Pm.permit_eq, if_neg (by omega), hn]; rfl
  case last => rw [exec_permitSleep, Pm.permit_eq, if_pos (by omega)]

/-- Settles O41: the three ends of the timer. -/
theorem sleepTimerReleasesOrReschedules : Obligations.SleepTimerReleasesOrReschedules :=
  fun _ => ⟨fun h => exec_sleepTimerFire_of_eq (sleepTimerFire_stale h),
    fun h hb => exec_sleepTimerFire_of_eq (sleepTimerFire_rescheduled h hb),
    fun h hb => exec_sleepTimerFire_of_eq (sleepTimerFire_released h hb)⟩

/-- Settles O42: the four ends of the timer. -/
theorem linkoffTimerReleasesApStatus : Obligations.LinkoffTimerReleasesApStatus :=
  fun _ => ⟨fun h => exec_linkoffTimerFire_of_eq (linkoffTimerFire_stale h),
    fun h hheld => exec_linkoffTimerFire_of_eq (linkoffTimerFire_cancelled h hheld),
    fun h hfree hhigh => exec_linkoffTimerFire_of_eq (linkoffTimerFire_rescheduled h hfree hhigh),
    fun h hfree hlow => exec_linkoffTimerFire_of_eq (linkoffTimerFire_released h hfree hlow)⟩

/-- Settles O43: both levels of both lines. -/
theorem edgesUpdateTheHandshake : Obligations.EdgesUpdateTheHandshake :=
  fun s => ⟨exec_apWakeupEdge_of_eq (apWakeupEdge_rising s), exec_apWakeupEdge_of_eq (level := false) rfl,
    exec_cpStatusEdge_of_eq (cpStatusEdge_rising s), exec_cpStatusEdge_of_eq (cpStatusEdge_falling s)⟩

/-! The poll (R222, R223). -/

section
variable {p : Poll} {s : State}

theorem pollStep_live (hm : s.magicOk = true) : pollStep p s = completeOk p { s with busy := none } := by
  rw [pollStep, if_pos hm]

theorem pollStep_again (hm : ¬ s.magicOk = true) (hk : 2 ≤ p.remaining) :
    pollStep p s = { s with busy := some { p with remaining := p.remaining - 1 } } := by
  rw [pollStep, if_neg hm, if_neg (by omega)]

theorem pollStep_last (hm : ¬ s.magicOk = true) (hk : p.remaining ≤ 1) :
    pollStep p s = completeFail p { s with busy := none } := by
  rw [pollStep, if_neg hm, if_pos hk]

end

section
variable (k : Nat) (who : Requester) (s : State)

/-- The state in which a hold is given back and a recovery requested, with the records before and after the request. -/
def gaveUp (why : RecoveryReason) (before after : List HistEvent) : State :=
  { s with
    pm := s.pm.permit
    cnt := { s.cnt with recovery := s.cnt.recovery + 1 }
    history := s.history ++ before ++ [.recovery why] ++ after }

theorem completeFail_host : completeFail ⟨k, .host, who⟩ s = gaveUp s .linkNotReady [.outcome .permitSleep .ok]
    [.result (.forbidSleep .host) (.error .linkNotReady)] := rfl

theorem completeFail_xmit (r : RingId) : completeFail ⟨k, .xmit r, who⟩ s =
    gaveUp s .linkNotReady [.outcome .permitSleep .ok]
      (.outcome (.forbidSleep (.xmit r)) (.error .linkNotReady) :: xmitRecords r who (.error .linkNotReady)) := by
  have h : completeFail ⟨k, .xmit r, who⟩ s = finishXmit r who (.error .linkNotReady)
      (gaveUp s .linkNotReady [.outcome .permitSleep .ok] [.outcome (.forbidSleep (.xmit r)) (.error .linkNotReady)]) :=
    rfl
  rw [h, finishXmit_eq (o := .error .linkNotReady) r who _ nofun]
  simp only [gaveUp, List.append_assoc, List.cons_append, List.nil_append]

variable {s}

theorem txSnap_not_inRange {rc : RingCfg}
    (h : rc.txSize ≤ s.shm.readLe rc.txHead 4 ∨ rc.txSize ≤ s.shm.readLe rc.txTail 4) :
    ¬ (s.txSnap rc).inRange = true := fun hi => by
  obtain ⟨hh, ht⟩ := (Snapshot.inRange_iff _).mp hi
  exact h.elim hh.not_ge ht.not_ge

theorem xmitBody_corrupt {rc : RingCfg} (h : ¬ (s.txSnap rc).inRange = true) :
    xmitBody rc s = (gaveUp s (.ringCorrupt rc.id) []
      [.outcome (.getTxSpace rc.id) (.error (.eio rc.id)), .outcome .permitSleep .ok], .error (.eio rc.id)) := by
  rw [xmitBody, getTxSpace_corrupt rc s fun ⟨_, hi⟩ => h hi]
  simp only [permitWithin_eq, State.settle, State.emit, requestRecovery_eq, spaceOutcome, gaveUp, List.append_assoc,
    List.cons_append, List.nil_append]

/-- A poll that succeeds on a ring with an index out of range ends its XMIT with EIO. -/
theorem completeOk_corrupt {rc : RingCfg} (hr : s.cfg.ring? rc.id = some rc) (h : ¬ (s.txSnap rc).inRange = true) :
    completeOk ⟨k, .xmit rc.id, who⟩ s = gaveUp s (.ringCorrupt rc.id) [.outcome (.forbidSleep (.xmit rc.id)) .ok]
      ([.outcome (.getTxSpace rc.id) (.error (.eio rc.id)), .outcome .permitSleep .ok] ++
        xmitRecords rc.id who (.error (.eio rc.id))) := by
  have hbody := xmitBody_corrupt (s := s.settle (.forbidSleep (.xmit rc.id)) .ok) h
  simp only [completeOk, hr, hbody]
  rw [finishXmit_eq (o := .error (.eio rc.id)) rc.id who _ nofun]
  simp only [gaveUp, State.settle, State.emit, List.append_assoc, List.cons_append, List.nil_append]

end

/-- Settles O38: the three ends of a read. -/
theorem hostPollEndsInOkOrLinkNotReady : Obligations.HostPollEndsInOkOrLinkNotReady := by
  intro s k who hf _ hb live
  have hlive : s.magicOk = true ↔ live := State.magicOk_iff s
  have hexec := exec_pollStep_of_busy hf hb
  refine ⟨fun hm => ?ok, fun hm hk => ?again, fun hm hk => ?failed⟩
  case ok => rw [hexec, pollStep_live (hlive.mpr hm)]; rfl
  case again => rw [hexec, pollStep_again (mt hlive.mp hm) hk]
  case failed =>
    rw [hexec, pollStep_last (mt hlive.mp hm) hk.le, completeFail_host, gaveUp, List.append_assoc, List.append_assoc]
    rfl

/-- Settles O39: the failed reads, and the live link with a corrupt ring. -/
theorem xmitThatCannotSendKeepsTheQueue : Obligations.XmitThatCannotSendKeepsTheQueue := by
  intro s k r rc who hf _ hr hb live told ended
  obtain rfl := id_of_ring? hr
  have hlive : s.magicOk = true ↔ live := State.magicOk_iff s
  have hexec := exec_pollStep_of_busy hf hb
  refine ⟨fun hm hk => ?again, fun hm hk => ?failed, fun hm hbad => ?corrupt⟩
  case again => rw [hexec, pollStep_again (mt hlive.mp hm) hk]
  case failed => rw [hexec, pollStep_last (mt hlive.mp hm) hk.le, completeFail_xmit]; rfl
  case corrupt =>
    rw [hexec, pollStep_live (hlive.mpr hm),
      completeOk_corrupt k who (s := { s with busy := none }) hr (txSnap_not_inRange hbad)]
    rfl

/-! The wake invariant (R230): it speaks of the holds, the lines, the armed flags and the poll. -/

theorem State.pmSafe.of_same {s t : State} (h : s.pmSafe) (hcnt : t.pm.refCnt = s.pm.refCnt)
    (hap : t.pm.apStatus = s.pm.apStatus) (hcp : t.pm.cpWakeup = s.pm.cpWakeup)
    (hsleep : t.pm.sleep.isArmed = s.pm.sleep.isArmed) (hlinkoff : t.pm.linkoff.isArmed = s.pm.linkoff.isArmed)
    (hbusy : t.busy = s.busy) : t.pmSafe := by
  simpa only [State.pmSafe, hcnt, hap, hcp, hsleep, hlinkoff, hbusy] using h

theorem State.pmSafe.of_pm_eq {s t : State} (h : s.pmSafe) (hpm : t.pm = s.pm) (hbusy : t.busy = s.busy) : t.pmSafe :=
  h.of_same (by rw [hpm]) (by rw [hpm]) (by rw [hpm]) (by rw [hpm]) (by rw [hpm]) hbusy

/-- A new hold raises both lines and cancels both timers. -/
theorem forbid_pmSafe (o : Origin) (who : Requester) (s : State) : (forbid o who s).pmSafe := by
  rw [forbid_eq]
  exact ⟨fun _ => rfl, fun _ => rfl, nofun, nofun, fun _ => Nat.succ_pos _⟩

/-- The last hold given back arms the sleep timer; before the last one a hold stays. -/
theorem State.pmSafe.permit {s : State} (h : s.pmSafe) (hb : s.busy = none) : (permit s).pmSafe := by
  obtain ⟨hheld, hlines, hlinkoff, -, -⟩ := h
  unfold Machine.permit
  rw [Pm.permit_eq]
  split
  · exact ⟨nofun, hlines, hlinkoff, nofun, fun hp => absurd hb hp⟩
  · next hmany =>
    have hleft : s.pm.refCnt - 1 ≠ 0 := by omega
    exact ⟨fun _ => hheld (by omega), hlines, hlinkoff, fun hcnt => absurd hcnt hleft, fun hp => absurd hb hp⟩

/-- A release arms the link-off timer. -/
theorem State.pmSafe.sleepTimerFire {s : State} (h : s.pmSafe) : (sleepTimerFire s).1.pmSafe := by
  obtain ⟨hheld, hlines, hlinkoff, hidle, hpoll⟩ := h
  by_cases hoff : s.pm.sleep = .off
  · rw [sleepTimerFire_stale hoff]
    exact ⟨hheld, hlines, hlinkoff, hidle, hpoll⟩
  by_cases hb : sleepBlocked s
  · rw [sleepTimerFire_rescheduled hoff hb]
    exact ⟨hheld, hlines, hlinkoff, nofun, hpoll⟩
  · rw [sleepTimerFire_released hoff hb]
    exact ⟨fun hcnt => absurd (.inl hcnt) hb, nofun, fun _ => rfl, nofun, hpoll⟩

/-- An armed link-off timer means no hold and cp_wakeup low, so it is never cancelled when it fires. -/
theorem State.pmSafe.linkoffTimerFire {s : State} (h : s.pmSafe) : (linkoffTimerFire s).1.pmSafe := by
  obtain ⟨hheld, hlines, hlinkoff, hidle, hpoll⟩ := h
  by_cases hoff : s.pm.linkoff = .off
  · rw [linkoffTimerFire_stale hoff]
    exact ⟨hheld, hlines, hlinkoff, hidle, hpoll⟩
  have hcp : s.pm.cpWakeup = false := hlinkoff ((Timer.isArmed_iff _).mpr hoff)
  have hfree : ¬ (0 < s.pm.refCnt ∨ s.pm.cpWakeup = true) := fun hu =>
    Bool.eq_false_iff.mp hcp (hu.elim hheld id)
  by_cases hhigh : s.cpStatus = true ∨ s.apWakeup = true
  · rw [linkoffTimerFire_rescheduled hoff hfree hhigh]
    exact ⟨hheld, hlines, fun _ => hcp, nofun, hpoll⟩
  · rw [linkoffTimerFire_released hoff hfree hhigh]
    exact ⟨hheld, fun hc => absurd hc (Bool.eq_false_iff.mp hcp), nofun, fun _ _ _ => ⟨hcp, rfl⟩, hpoll⟩

/-- A wake edge raises ap_status, and without a holder it arms the sleep timer. -/
theorem State.pmSafe.apWakeupEdge {s : State} (h : s.pmSafe) (level : Bool) : (apWakeupEdge level s).1.pmSafe := by
  cases level with
  | false => exact h
  | true =>
    obtain ⟨hheld, -, -, -, hpoll⟩ := h
    rw [apWakeupEdge_rising]
    refine ⟨hheld, fun _ => rfl, nofun, fun (hcnt : s.pm.refCnt = 0) hsleep => ?_, hpoll⟩
    simp [hcnt, Timer.isArmed] at hsleep

theorem State.pmSafe.cpStatusEdge {s : State} (h : s.pmSafe) (level : Bool) : (cpStatusEdge level s).1.pmSafe := by
  cases level with
  | true => rwa [cpStatusEdge_rising]
  | false =>
    obtain ⟨hheld, hlines, hlinkoff, hidle, hpoll⟩ := h
    rw [cpStatusEdge_falling]
    by_cases hc : s.pm.named = .awakeIdle ∧ s.pm.cpWakeup = false
    · simp only [if_pos hc]
      exact ⟨hheld, hlines, fun _ => hc.2, nofun, hpoll⟩
    · simp only [if_neg hc]
      exact ⟨hheld, hlines, hlinkoff, hidle, hpoll⟩

theorem Act.keeps_pmSafe {i : Instr} {s0 s t : State} (h : Act i s0 s t) (hs : s.pmSafe) : t.pmSafe := by
  cases h with
  | pollOn p hb =>
    obtain ⟨hheld, hlines, hlinkoff, hidle, hpoll⟩ := hs
    exact ⟨hheld, hlines, hlinkoff, hidle, fun _ => hpoll hb⟩
  | pollEnd =>
    obtain ⟨hheld, hlines, hlinkoff, hidle, -⟩ := hs
    exact ⟨hheld, hlines, hlinkoff, hidle, fun hp => absurd rfl hp⟩
  | hold o who => exact forbid_pmSafe o who s
  | permit hb => exact hs.permit hb
  | sleep _ _ => exact hs.sleepTimerFire
  | linkoff => exact hs.linkoffTimerFire
  | wake level => exact hs.apWakeupEdge level
  | status level => exact hs.cpStatusEdge level
  | _ => exact hs.of_pm_eq rfl rfl

theorem agentTurn_keeps_pmSafe (m : Move) {s : State} (h : s.pmSafe) : (agentTurn m s).pmSafe := by
  obtain ⟨hcnt, hap, hcp, hsleep, hlinkoff, -⟩ := agentTurn_pm m s
  obtain ⟨-, hbusy, -⟩ := agentTurn_env m s
  exact h.of_same hcnt hap hcp hsleep hlinkoff hbusy

theorem step_keeps_pmSafe {s t : State} (hs : s.pmSafe) (h : step s = .next t) : t.pmSafe := by
  refine step_lift (P := State.pmSafe) h hs ?agent ?turn ?take ?act
  case agent => exact fun m ms hu => agentTurn_keeps_pmSafe m (s := { s with schedule := ms }) hu
  case turn => exact fun _ hu => hu
  case take => exact fun _ _ _ hu => hu
  case act => exact fun i s0 u v a hu => a.keeps_pmSafe hu

/-- In a state of the invariant, no hold and no timer means both lines low, which is ASLEEP and not AWAKE_IDLE. -/
theorem State.pmSafe.named {s : State} (h : s.pmSafe) : s.pm.named ≠ .awakeIdle ∧
    (s.pm.named = .asleep ↔ s.pm.refCnt = 0 ∧ s.pm.sleep.isArmed = false ∧ s.pm.linkoff.isArmed = false) := by
  obtain ⟨-, -, -, hidle, -⟩ := h
  rw [Ne, Pm.named_eq_awakeIdle_iff, Pm.named_eq_asleep_iff]
  exact ⟨fun ⟨hcnt, hsleep, hlinkoff, hup⟩ => hup (hidle hcnt hsleep hlinkoff),
    fun ⟨hcnt, hsleep, hlinkoff, _⟩ => ⟨hcnt, hsleep, hlinkoff⟩,
    fun ⟨hcnt, hsleep, hlinkoff⟩ => ⟨hcnt, hsleep, hlinkoff, hidle hcnt hsleep hlinkoff⟩⟩

/-- Settles O50: each turn of another agent and each act keeps the invariant, which settles the named states. -/
theorem stepKeepsHoldersAwake : Obligations.StepKeepsHoldersAwake := by
  intro s t hs h
  have ht := step_keeps_pmSafe hs h
  exact ⟨ht, ht.named⟩

/-! The fall of cp_wakeup (R226, R230). -/

theorem Pm.permit_cpWakeup (p : Pm) : p.permit.cpWakeup = p.cpWakeup := by
  rw [Pm.permit_eq]
  split <;> rfl

theorem linkoffTimerFire_cpWakeup (s : State) : (linkoffTimerFire s).1.pm.cpWakeup = s.pm.cpWakeup := by
  by_cases hoff : s.pm.linkoff = .off
  · rw [linkoffTimerFire_stale hoff]
  by_cases hheld : 0 < s.pm.refCnt ∨ s.pm.cpWakeup = true
  · rw [linkoffTimerFire_cancelled hoff hheld]
  by_cases hhigh : s.cpStatus = true ∨ s.apWakeup = true
  · rw [linkoffTimerFire_rescheduled hoff hheld hhigh]
  · rw [linkoffTimerFire_released hoff hheld hhigh]

theorem apWakeupEdge_cpWakeup (level : Bool) (s : State) : (apWakeupEdge level s).1.pm.cpWakeup = s.pm.cpWakeup := by
  cases level with
  | false => rfl
  | true => rw [apWakeupEdge_rising]

theorem cpStatusEdge_cpWakeup (level : Bool) (s : State) : (cpStatusEdge level s).1.pm.cpWakeup = s.pm.cpWakeup := by
  cases level with
  | false => rw [cpStatusEdge_falling]
  | true => rw [cpStatusEdge_rising]

/-- With a hold the sleep timer does not release the link. -/
theorem exec_sleepTimerFire_cpWakeup_of_held {s t : State} (h : s.pm.refCnt ≠ 0)
    (he : exec .sleepTimerFire s = .next t) : t.pm.cpWakeup = s.pm.cpWakeup := by
  by_cases hoff : s.pm.sleep = .off
  · rw [exec_sleepTimerFire_of_eq (sleepTimerFire_stale hoff)] at he
    cases he
    rfl
  · have hblocked : sleepBlocked s := .inl (Nat.pos_of_ne_zero h)
    rw [exec_sleepTimerFire_of_eq (sleepTimerFire_rescheduled hoff hblocked)] at he
    cases he
    rfl

section
variable {i : Instr} {s0 s t : State}

theorem Act.keeps_cpWakeup_high (h : Act i s0 s t) (hi : i ≠ .sleepTimerFire) (hc : s.pm.cpWakeup = true) :
    t.pm.cpWakeup = true := by
  cases h with
  | hold o who => rw [forbid_eq]
  | permit _ => exact (Pm.permit_cpWakeup s.pm).trans hc
  | sleep hs _ => exact absurd hs hi
  | linkoff => exact (linkoffTimerFire_cpWakeup s).trans hc
  | wake level => exact (apWakeupEdge_cpWakeup level s).trans hc
  | status level => exact (cpStatusEdge_cpWakeup level s).trans hc
  | _ => exact hc

theorem Acts.keeps_cpWakeup_high (h : Acts i s0 s t) (hi : i ≠ .sleepTimerFire) :
    s.pm.cpWakeup = true → t.pm.cpWakeup = true :=
  h.lift (R := fun u v => u.pm.cpWakeup = true → v.pm.cpWakeup = true) (fun _ => id) (fun f g => g ∘ f)
    fun a => a.keeps_cpWakeup_high hi

end

/-- Settles O51: every other turn, and every act of another operation, leaves cp_wakeup high. -/
theorem cpWakeupFallsOnlyInTheSleepTimer : Obligations.CpWakeupFallsOnlyInTheSleepTimer := by
  intro s t hstep hs ht
  have hlow : ¬ t.pm.cpWakeup = true := Bool.eq_false_iff.mp ht
  rcases step_cases hstep with
    ⟨m, ms, -, -, rfl⟩ | ⟨ms, -, -, -, rfl⟩ | ⟨ms, p, -, -, he⟩ | ⟨ms, i, q, hnext, hb, hq, he⟩
  · obtain ⟨-, -, hcp, -⟩ := agentTurn_pm m { s with schedule := ms }
    exact absurd (hcp.trans hs) hlow
  · exact absurd hs hlow
  · exact absurd ((exec_acts _ _ t (.inl rfl) he).keeps_cpWakeup_high nofun hs) hlow
  · obtain rfl : i = .sleepTimerFire := by
      by_contra hi
      exact hlow ((exec_acts i (taken s ms i q) t (.inr hb) he).keeps_cpWakeup_high hi hs)
    have hcnt : s.pm.refCnt = 0 := by
      by_contra hheld
      exact hlow ((exec_sleepTimerFire_cpWakeup_of_held (s := taken s ms .sleepTimerFire q) hheld he).trans hs)
    refine ⟨hcnt, hb, by rw [hq, List.head?_cons], ?_⟩
    rcases hnext with ⟨hnil, -⟩ | hblk
    · exact .inl hnil
    · exact .inr (by rw [hblk, List.head?_cons])

end Sys2Proof.Machine
end

section
/-! PROOFS. The statements about link control (44_link_control.md): the recovery counter, mailbox dispatch, SET_MODE and
FLUSH_TX, and the refusal of SIPC4 framing. -/

namespace Sys2Proof.Machine

/-! The recovery counter (R264). -/

theorem recoveryCount_append (h k : List HistEvent) : recoveryCount (h ++ k) = recoveryCount h + recoveryCount k :=
  List.countP_append

theorem recoveryCount_plain {e : HistEvent} (he : e.plain = true) : recoveryCount [e] = 0 := by
  cases e with
  | recovery w => cases he
  | _ => rfl

theorem Counters.bump_recovery_of_ne (c : Counters) {k : Counter} (hk : k ≠ .recovery) :
    (c.bump k).recovery = c.recovery := by
  cases k with
  | recovery => exact absurd rfl hk
  | _ => rfl

section
variable {s : State} (h : s.recoveriesCounted)
include h

/-- An event that is no recovery request leaves the number of requests. -/
theorem State.recoveriesCounted.emit {e : HistEvent} (he : recoveryCount [e] = 0) : (s.emit e).recoveriesCounted := by
  rw [State.recoveriesCounted, State.emit_history, recoveryCount_append, he]
  exact h

/-- An escalation counts the request it emits. -/
theorem State.recoveriesCounted.requestRecovery (w : RecoveryReason) : (s.requestRecovery w).recoveriesCounted := by
  change s.cnt.recovery + 1 = BitVec.ofNat 32 (recoveryCount (s.history ++ [.recovery w]))
  rw [h, recoveryCount_append, BitVec.ofNat_add]
  rfl

/-- Driving a line emits at most its Gpio event. -/
theorem State.recoveriesCounted.drive (l : OutLine) (v : Bool) : (s.drive l v).recoveriesCounted := by
  unfold State.drive
  split
  · exact h
  · exact State.recoveriesCounted.emit (s := { s with pm := s.pm.setLine l v }) h rfl

/-- The power-management state is not part of the statement. -/
theorem State.recoveriesCounted.setPm (p : Pm) : State.recoveriesCounted { s with pm := p } := h

theorem State.recoveriesCounted.forbid (o : Origin) (who : Requester) : (forbid o who s).recoveriesCounted :=
  (((h.setPm _).drive .apStatus true).setPm _).drive .cpWakeup true

theorem State.recoveriesCounted.sleepTimerFire : (sleepTimerFire s).1.recoveriesCounted := by
  unfold Machine.sleepTimerFire
  split
  · split
    · exact h.setPm _
    · exact ((h.setPm _).drive .cpWakeup false).setPm _
  · exact h

theorem State.recoveriesCounted.linkoffTimerFire : (linkoffTimerFire s).1.recoveriesCounted := by
  unfold Machine.linkoffTimerFire
  split
  · split
    · exact h.setPm _
    · split
      · exact h.setPm _
      · exact (h.setPm _).drive .apStatus false
  · exact h

theorem State.recoveriesCounted.apWakeupEdge (level : Bool) : (apWakeupEdge level s).1.recoveriesCounted := by
  have driven (p : Pm) := (h.setPm p).drive .apStatus true
  unfold Machine.apWakeupEdge
  split
  · simp only
    split
    · exact (driven _).setPm _
    · exact driven _
  · exact h

theorem State.recoveriesCounted.cpStatusEdge (level : Bool) : (cpStatusEdge level s).1.recoveriesCounted := by
  unfold Machine.cpStatusEdge
  split
  · exact h.setPm _
  · exact h

end

theorem Act.keeps_recoveriesCounted {i : Instr} {s0 s t : State} (a : Act i s0 s t) (h : s.recoveriesCounted) :
    t.recoveriesCounted := by
  cases a with
  | note e he => exact h.emit (recoveryCount_plain he)
  | tally c hc => exact (Counters.bump_recovery_of_ne s.cnt hc).trans h
  | recover w => exact h.requestRecovery w
  | hold o who => exact h.forbid o who
  | sleep _ _ => exact h.sleepTimerFire
  | linkoff => exact h.linkoffTimerFire
  | wake level => exact h.apWakeupEdge level
  | status level => exact h.cpStatusEdge level
  | _ => exact h

theorem agentTurn_keeps_recoveriesCounted (m : Move) {s : State} (h : s.recoveriesCounted) :
    (agentTurn m s).recoveriesCounted := by
  obtain ⟨-, -, -, -, hcnt, -, hhist, -⟩ := agentTurn_env m s
  rw [State.recoveriesCounted, hcnt, hhist]
  exact h

/-- Settles O55: among the acts only an escalation counts a recovery or emits a request, and it does both. -/
theorem stepCountsEveryRecoveryRequest : Obligations.StepCountsEveryRecoveryRequest := by
  intro s t hs h
  refine step_lift (P := State.recoveriesCounted) h hs ?agent ?turn ?take ?act
  case agent => exact fun m ms hu => agentTurn_keeps_recoveriesCounted m (s := { s with schedule := ms }) hu
  case turn => exact fun _ hu => hu
  case take => exact fun _ i _ hu => hu.emit (e := .input i) rfl
  case act => exact fun _ _ _ _ a hu => a.keeps_recoveriesCounted hu

/-! The mailbox (R260, R261; 60_exceptions.md R290). -/

theorem Config.isCmd_iff (c : Config) (v : U16) : c.isCmd v = true ↔ ∃ w ∈ c.cmdRows, v &&& w.mask = w.value := by
  simp only [Config.isCmd, List.any_eq_true, beq_iff_eq]

theorem checkPairs_eq (v : U16) (s : State) : checkPairs v s =
    { s with fault := if s.cfg.mbxStray v then { s.fault with remoteDutyBroken := true } else s.fault } := by
  unfold checkPairs
  split <;> rfl

section
variable {v : U16} {s : State}

theorem exec_mbxIrq_command (hc : s.cfg.isCmd v = true) :
    exec (.mbxIrq v) s = .next ((s.emit (.cmdOut v)).emit (.outcome (.mbxIrq v) .forwarded)) :=
  if_pos hc

variable (hc : ¬ s.cfg.isCmd v = true)
include hc

theorem exec_mbxIrq_ignored (hg : modeGate s.mode = .down) : exec (.mbxIrq v) s =
    .next (((checkPairs v s).count .ignoredIrq).emit (.outcome (.mbxIrq v) .ignored)) := by
  change execMbxIrq v s = _
  simp only [execMbxIrq, if_neg hc, hg, State.settle]

theorem exec_mbxIrq_refused (hg : modeGate s.mode = .refuse) : exec (.mbxIrq v) s =
    .next ((checkPairs v s).refuse.emit (.outcome (.mbxIrq v) .refused)) := by
  change execMbxIrq v s = _
  simp only [execMbxIrq, if_neg hc, hg, State.settle]

theorem exec_mbxIrq_dispatched (hg : modeGate s.mode = .run) (hf : s.cfg.fits = true) : exec (.mbxIrq v) s =
    .next ((dispatch v (checkPairs v s)).emit (.outcome (.mbxIrq v) .dispatched)) := by
  change execMbxIrq v s = _
  simp only [execMbxIrq, if_neg hc, hg, withShm_of_fits _ hf, State.settle]

end

/-- Settles O44: the command check, and then the mode gate's two closed answers. -/
theorem mbxIrqForwardsCommandsAndIgnoresNonIpcData : Obligations.MbxIrqForwardsCommandsAndIgnoresNonIpcData := by
  intro v s cmd judged
  have hcmd : s.cfg.isCmd v = true ↔ cmd := Config.isCmd_iff s.cfg v
  refine ⟨fun hc => ?command, fun hc hm => ?ignored, fun hc hm => ?refused⟩
  case command => rw [exec_mbxIrq_command (hcmd.mpr hc), State.emit_emit]
  case ignored => rw [exec_mbxIrq_ignored (mt hcmd.mp hc) (modeGate_down hm), checkPairs_eq]; rfl
  case refused => rw [exec_mbxIrq_refused (mt hcmd.mp hc) (modeGate_refuse hm), checkPairs_eq]; rfl

/-! The dispatch as a run of operations (R260). -/

theorem runAll_append_of_next {is js : List Instr} {s t : State} (h : runAll is s = .next t) :
    runAll (is ++ js) s = runAll js t := by
  rw [runAll_append, h]

/-- An operation performed on a condition. -/
theorem runAll_ite {i : Instr} {s t : State} (b : Bool) (h : exec i s = .next t) :
    runAll (if b then [i] else []) s = .next (if b then t else s) := by
  cases b with
  | false => rfl
  | true => simp only [if_true, runAll, h]

/-- The ring operations of one ring in a mailbox value. -/
def mbxRingWork (c : Config) (v : U16) (rc : RingCfg) : List Instr :=
  (if c.mbxHas v rc.id .data then [.rxDrain rc.id] else []) ++
  (if c.mbxHas v rc.id .reqAck then [.mbxReqAck rc.id] else []) ++
  (if c.mbxHas v rc.id .resAck then [.mbxResAck rc.id] else [])

theorem mbxWork_eq (c : Config) (v : U16) : mbxWork c v = c.rings.flatMap (mbxRingWork c v) := rfl

theorem rxDrainWithin_cfg {rc : RingCfg} {s : State} (hr : rc ∈ s.cfg.rings) : (rxDrainWithin rc s).cfg = s.cfg :=
  (acts_rxDrain (i := .rxDrain rc.id) (s0 := s) rc s hr).cfg

theorem mbxReqAckWithin_cfg {rc : RingCfg} {s : State} (hr : rc ∈ s.cfg.rings) :
    (mbxReqAckWithin rc s).cfg = s.cfg :=
  (acts_mbxReqAck (i := .mbxReqAck rc.id) (s0 := s) rc s hr).cfg

theorem dispatchRing_cfg (v : U16) {rc : RingCfg} {s : State} (hr : rc ∈ s.cfg.rings) :
    (dispatchRing v rc s).cfg = s.cfg :=
  (acts_dispatchRing (i := .mbxIrq v) (s0 := s) v rc s hr).cfg

section
variable {c : Config} (v : U16) {s : State} (hw : c.wf = true) (hs : s.cfg = c)
include hw hs

/-- One ring's pairs: no operation changes the configuration, so each finds its ring where the next one runs. -/
theorem runAll_mbxRingWork {rc : RingCfg} (hr : rc ∈ c.rings) :
    runAll (mbxRingWork c v rc) s = .next (dispatchRing v rc s) := by
  have hring {u : State} (hu : u.cfg = c) : u.cfg.ring? rc.id = some rc := hu ▸ Config.ring?_of_mem hw hr
  have hfits {u : State} (hu : u.cfg = c) : u.cfg.fits = true := hu ▸ Config.wf_fits hw
  let s1 : State := if c.mbxHas v rc.id .data then rxDrainWithin rc s else s
  let s2 : State := if c.mbxHas v rc.id .reqAck then mbxReqAckWithin rc s1 else s1
  have hs1 : s1.cfg = c := by
    rw [apply_ite State.cfg, rxDrainWithin_cfg (hs ▸ hr), ite_self, hs]
  have hs2 : s2.cfg = c := by
    rw [apply_ite State.cfg, mbxReqAckWithin_cfg (hs1 ▸ hr), ite_self, hs1]
  have data : exec (.rxDrain rc.id) s = .next (rxDrainWithin rc s) :=
    exec_rxDrain_of_eq (hring hs) (hfits hs) rfl
  have reqAck : exec (.mbxReqAck rc.id) s1 = .next (mbxReqAckWithin rc s1) :=
    exec_mbxReqAck_of_eq (hring hs1) (hfits hs1) rfl
  have resAck : exec (.mbxResAck rc.id) s2 = .next (mbxResAckWithin rc.id s2) :=
    exec_mbxResAck_of_eq (hring hs2) rfl
  rw [mbxRingWork, List.append_assoc, runAll_append_of_next (runAll_ite _ data),
    runAll_append_of_next (runAll_ite _ reqAck), runAll_ite _ resAck]
  subst hs
  rfl

theorem runAll_mbxWork {rcs : List RingCfg} (hr : ∀ rc ∈ rcs, rc ∈ c.rings) :
    runAll (rcs.flatMap (mbxRingWork c v)) s = .next (dispatchRings v rcs s) := by
  induction rcs generalizing s with
  | nil => rfl
  | cons rc rcs ih =>
    have hrc : rc ∈ c.rings := hr rc List.mem_cons_self
    have hcfg : (dispatchRing v rc s).cfg = c := (dispatchRing_cfg v (hs ▸ hrc)).trans hs
    rw [List.flatMap_cons, runAll_append_of_next (runAll_mbxRingWork v hw hs hrc)]
    exact ih hcfg fun rc' h => hr rc' (List.mem_cons_of_mem _ h)

end

/-- Settles O45: ring by ring, after the check of the value's pairs. -/
theorem mbxIrqDispatchIsTheListedOperations : Obligations.MbxIrqDispatchIsTheListedOperations := by
  intro v s hw hm hc
  have hrun : runAll (mbxWork s.cfg v) (checkPairs v s) = .next (dispatch v (checkPairs v s)) := by
    have hcfg : (checkPairs v s).cfg = s.cfg := by rw [checkPairs_eq]
    rw [mbxWork_eq, dispatch, hcfg]
    exact runAll_mbxWork v hw hcfg fun _ h => h
  rw [checkPairs_eq] at hrun
  refine ⟨_, hrun, ?_⟩
  rw [exec_mbxIrq_dispatched (Bool.eq_false_iff.mp hc) (modeGate_run hm) (Config.wf_fits hw), checkPairs_eq]
  rfl

/-! SET_MODE and FLUSH_TX (R262, R263). -/

theorem RingState.flushed_flushed (v : RingState) : v.flushed.flushed = v.flushed := rfl

theorem flushRings_frame (rcs : List RingCfg) (s : State) :
    flushRings rcs s = { s with rings := (flushRings rcs s).rings } := by
  induction rcs generalizing s with
  | nil => rfl
  | cons rc rcs ih => exact ih _

/-- Each ring of the list is flushed, however often it is listed. -/
theorem flushRings_ring (rcs : List RingCfg) (s : State) (r : RingId) : (flushRings rcs s).ring r =
    if (rcs.find? fun rc => rc.id == r).isSome then (s.ring r).flushed else s.ring r := by
  induction rcs generalizing s with
  | nil => rfl
  | cons rc rcs ih =>
    rw [flushRings, ih, State.ring_setRing]
    by_cases hid : rc.id = r
    · rw [List.find?_cons_of_pos (by simpa using hid), if_pos hid, hid, RingState.flushed_flushed, ite_self]
      rfl
    · rw [List.find?_cons_of_neg (by simpa using hid), if_neg hid]

/-- Settles O46. -/
theorem setModeAndFlushTx : Obligations.SetModeAndFlushTx := by
  intro m s
  refine ⟨rfl, _, rfl, fun r => ?rings, ?frame⟩
  case rings =>
    rw [State.reply_ring, flushRings_ring]
    rfl
  case frame =>
    rw [State.reply_rings, flushRings_frame]
    rfl

/-! SIPC4 framing (R266, log entry 24). -/

section
variable {ch : ChanId} {p : Bytes} {ctl : Option Ctl} {cc : ChanCfg} {rc : RingCfg} {s : State}

theorem exec_txEnqueue_sipc4 (hg : modeGate s.mode = .run) (hfr : s.cfg.framing = .sipc4)
    (hc : s.cfg.chan? ch = some cc) (hk : cc.kind ≠ .cmd) :
    exec (.txEnqueue ch p ctl) s = .next (s.refuse.emit (.outcome (.txEnqueue ch p ctl) .refused)) := by
  change execTxEnqueue ch p ctl s = _
  simp only [execTxEnqueue, hg, hc, if_neg hk, if_pos hfr, State.reply]

theorem rxDrain_sipc4 (hg : modeGate s.mode = .run) (hfr : s.cfg.framing = .sipc4) :
    rxDrain rc s = (s.refuse, .refused) := by
  simp only [rxDrain, hg, if_pos hfr]

end

/-- Settles O25. -/
theorem sipc4FramingIsRefused : Obligations.Sipc4FramingIsRefused := by
  intro s ch p ctl r rc cc hfr hm hf
  have hg := modeGate_run hm
  exact ⟨exec_txEnqueue_sipc4 hg hfr, fun hr => exec_rxDrain_of_eq hr hf (rxDrain_sipc4 hg hfr)⟩

end Sys2Proof.Machine
end

section
/-! PROOFS. The statements about the exceptions (60_exceptions.md): no operation stops the machine, which events HOST and TIMERS
append, and the breach an ill-typed operand records. -/

namespace Sys2Proof.Machine

/-! No operation stops the machine (R280, R286). -/

/-- The answer is a next state: no fault ends the run, and the instruction is not refused. -/
def goesOn (a : Answer) : Prop := ∃ t, a = .next t

theorem goesOn_next (t : State) : goesOn (.next t) := ⟨t, rfl⟩

theorem withRing_goesOn {k : RingCfg → Answer} (hk : ∀ rc, goesOn (k rc)) (r : RingId) (who : DutyReason) (s : State) :
    goesOn (withRing r who s k) := by
  unfold withRing
  cases s.cfg.ring? r with
  | none => exact goesOn_next _
  | some rc => exact hk rc

section
variable {s : State}

/-- The layout of a well-formed configuration stays inside shared memory. -/
theorem withShm_goesOn (hw : s.cfg.wf = true) (t : State) : goesOn (withShm s (.next t)) :=
  ⟨t, withShm_of_fits _ (Config.wf_fits hw)⟩

/-- A well-formed data channel has its ring in `P_RINGS`. -/
theorem exec_txEnqueue_goesOn (hw : s.cfg.wf = true) (ch : ChanId) (p : Bytes) (ctl : Option Ctl) :
    goesOn (exec (.txEnqueue ch p ctl) s) := by
  cases hg : modeGate s.mode with
  | refuse => exact ⟨_, exec_txEnqueue_refused hg⟩
  | down => exact ⟨_, exec_txEnqueue_down hg⟩
  | run =>
    change goesOn (execTxEnqueue ch p ctl s)
    simp only [execTxEnqueue, hg]
    cases hc : s.cfg.chan? ch with
    | none => exact goesOn_next _
    | some cc =>
      by_cases hk : cc.kind = .cmd
      · simp only [if_pos hk, goesOn_next]
      · obtain ⟨rc, hr⟩ := Config.wf_ringFor hw hc hk
        by_cases hfr : s.cfg.framing = .sipc4
        · simp only [if_neg hk, if_pos hfr, goesOn_next]
        · simp only [if_neg hk, if_neg hfr, hr, goesOn_next]

theorem exec_mbxIrq_goesOn (hw : s.cfg.wf = true) (v : U16) : goesOn (exec (.mbxIrq v) s) := by
  by_cases hc : s.cfg.isCmd v = true
  · exact ⟨_, exec_mbxIrq_command hc⟩
  · cases hg : modeGate s.mode with
    | refuse => exact ⟨_, exec_mbxIrq_refused hc hg⟩
    | down => exact ⟨_, exec_mbxIrq_ignored hc hg⟩
    | run => exact ⟨_, exec_mbxIrq_dispatched hc hg (Config.wf_fits hw)⟩

theorem exec_retryTimerFire_goesOn (s : State) (r : RingId) : goesOn (exec (.retryTimerFire r) s) := by
  change goesOn (execRetryTimerFire r s)
  unfold execRetryTimerFire
  cases s.cfg.ring? r <;> exact goesOn_next _

theorem exec_resAckTimeout_goesOn (hw : s.cfg.wf = true) (r : RingId) : goesOn (exec (.resAckTimeout r) s) := by
  change goesOn (execResAckTimeout r s)
  unfold execResAckTimeout
  cases s.cfg.ring? r with
  | none => exact goesOn_next _
  | some rc => exact withShm_goesOn hw _

theorem exec_forbidSleep_goesOn (s : State) (o : Origin) : goesOn (exec (.forbidSleep o) s) := by
  cases o with
  | host => exact goesOn_next _
  | xmit r => exact withRing_goesOn (fun _ => goesOn_next _) r .host s

theorem exec_pollStep_goesOn (hw : s.cfg.wf = true) : goesOn (exec .pollStep s) := by
  change goesOn (execPollStep s)
  unfold execPollStep
  cases s.busy with
  | none => exact goesOn_next _
  | some p => exact withShm_goesOn hw _

end

/-- Settles O59: only a layout that leaves shared memory and a data channel without its ring can stop an operation, and a
well-formed configuration has neither. -/
theorem noOperationStopsTheMachine : Obligations.NoOperationStopsTheMachine := by
  intro i s hw
  cases i with
  | txEnqueue ch p ctl => exact exec_txEnqueue_goesOn hw ch p ctl
  | getTxSpace r => exact withRing_goesOn (fun _ => withShm_goesOn hw _) r .host s
  | getRxUsed r => exact withRing_goesOn (fun _ => withShm_goesOn hw _) r .host s
  | xmit r => exact withRing_goesOn (fun _ => goesOn_next _) r .host s
  | retryTimerFire r => exact exec_retryTimerFire_goesOn s r
  | resAckTimeout r => exact exec_resAckTimeout_goesOn hw r
  | rxDrain r => exact withRing_goesOn (fun _ => withShm_goesOn hw _) r .remote s
  | mbxReqAck r => exact withRing_goesOn (fun _ => withShm_goesOn hw _) r .remote s
  | mbxResAck r => exact withRing_goesOn (fun _ => goesOn_next _) r .remote s
  | forbidSleep o => exact exec_forbidSleep_goesOn s o
  | pollStep => exact exec_pollStep_goesOn hw
  | mbxIrq v => exact exec_mbxIrq_goesOn hw v
  | _ => exact goesOn_next _

/-! The turns of HOST and TIMERS (R289; 43_pm.md R225). -/

section
variable {t : TimerId} {s : State} {ms : List Move}

theorem step_host {i : Instr} (h : s.schedule = .host i :: ms) : step s = .next
    { s with schedule := ms, inbox := s.inbox ++ if i.hostMayStart then [i] else [] } := by
  rw [step_of_schedule_agent h nofun, agentTurn, hostTurn_eq]

theorem step_timer (h : s.schedule = .timer t :: ms) : step s = .next (timerTurn t { s with schedule := ms }) :=
  step_of_schedule_agent h nofun

theorem timerTurn_retry_armed {r : RingId} (h : (s.ring r).retry = .armed) : timerTurn (.retry r) s =
    (s.setRing r { s.ring r with retry := .posted }).append (.retryTimerFire r) := if_pos h

theorem timerTurn_resAck_armed {r : RingId} (h : (s.ring r).ackWait = .armed) : timerTurn (.resAck r) s =
    (s.setRing r { s.ring r with ackWait := .posted }).append (.resAckTimeout r) := if_pos h

end

/-- Settles O14: `hostMayStart` is the list of R289, and each timer's turn looks at its own three-valued flag. -/
theorem hostAndTimerTurnsAppendOnlyTheirEvents : Obligations.HostAndTimerTurnsAppendOnlyTheirEvents := by
  intro s ms i t
  refine ⟨fun h => ?host, fun h => ⟨_, step_timer h, ?timer⟩⟩
  case host =>
    rw [step_host h]
    cases i with
    | forbidSleep o => cases o <;> rfl
    | _ => rfl
  case timer =>
    cases t with
    | sleep =>
      dsimp only
      split
      · next ha => exact if_pos ha
      · next ha => exact if_neg ha
    | linkoff =>
      dsimp only
      split
      · next ha => exact if_pos ha
      · next ha => exact if_neg ha
    | retry r =>
      dsimp only
      split
      · next ha =>
        rw [timerTurn_retry_armed (s := { s with schedule := ms }) ha]
        exact ⟨rfl, ringOnly_setRing _ _ _ _ rfl⟩
      · next ha => exact if_neg ha
    | resAck r =>
      dsimp only
      split
      · next ha =>
        rw [timerTurn_resAck_armed (s := { s with schedule := ms }) ha]
        exact ⟨rfl, ringOnly_setRing _ _ _ _ rfl⟩
      · next ha => exact if_neg ha

/-! Ill-typed operands (R290, log entries 12, 19, 32). -/

section
variable {r : RingId} {s : State}

theorem withRing_of_stray (who : DutyReason) (k : RingCfg → Answer) (hr : s.cfg.ring? r = none) :
    withRing r who s k = .next (s.addFault who) := by
  simp only [withRing, hr]

theorem exec_retryTimerFire_of_stray (hr : s.cfg.ring? r = none) :
    exec (.retryTimerFire r) s = .next (s.settle (.retryTimerFire r) .stale) := by
  change execRetryTimerFire r s = _
  simp only [execRetryTimerFire, hr]

theorem exec_resAckTimeout_of_stray (hr : s.cfg.ring? r = none) :
    exec (.resAckTimeout r) s = .next (s.settle (.resAckTimeout r) .stale) := by
  change execResAckTimeout r s = _
  simp only [execResAckTimeout, hr]

/-- The breach is recorded, and the operation still answers. -/
theorem reply_of_illTyped {b : Bool} {o : OpOutcome} (hb : b = false) (ho : o ≠ .refused) (i : Instr) :
    (s.checkOperand b).reply i o = { s with
      fault := { s.fault with hostDutyBroken := true }, history := s.history ++ [.result i o] } := by
  rw [hb, State.reply_of_ne _ _ _ ho]
  rfl

theorem exec_headerLen_of_no_start {cfg : Byte} (hs : cfg.getLsbD 7 = false) (s : State) :
    exec (.headerLen cfg) s = .next { s with
      fault := { s.fault with hostDutyBroken := true }
      history := s.history ++ [.result (.headerLen cfg) (.number (headerLen cfg))] } :=
  congrArg Host.Outcome.next (reply_of_illTyped (o := .number (headerLen cfg)) hs nofun _)

theorem exec_totalFrameLen_of_illTyped {h : Hdr} (hw : h.wf = false) (s : State) :
    exec (.totalFrameLen h) s = .next { s with
      fault := { s.fault with hostDutyBroken := true }
      history := s.history ++ [.result (.totalFrameLen h) (.number (totalFrameLen h))] } :=
  congrArg Host.Outcome.next (reply_of_illTyped (o := .number (totalFrameLen h)) hw nofun _)

theorem ParseResult.outcome_ne_refused (p : ParseResult) : p.outcome ≠ .refused := by
  cases p <;> exact nofun

/-- An ill-formed frame form answers what PARSE_HEADER answers on its bytes. -/
theorem frameForm_of_illTyped {i : Instr} {bytes : Bytes} (hw : i.wf s.cfg = false) : ∃ o,
    exec (.parseHeader bytes) s = .next { s with history := s.history ++ [.result (.parseHeader bytes) o] } ∧
    frameForm i bytes s = .next { s with
      fault := { s.fault with hostDutyBroken := true }, history := s.history ++ [.result i o] } :=
  ⟨_, exec_parseHeader_of_eq rfl s, congrArg _ (reply_of_illTyped hw (parseHeader bytes).outcome_ne_refused i)⟩

end

/-- Settles O60: the ring gate, the operand check of the codec functions, and that of the frame forms. -/
theorem illTypedOperandsAreRecorded : Obligations.IllTypedOperandsAreRecorded := by
  refine ⟨fun s r cfg hr => ⟨?host, ?remote, ?timers, fun hs => ?headerLen⟩, fun s hdr hw => ?totalFrameLen,
    fun s cfg ch len len32 ctl body => ?frameForms⟩
  case host =>
    simp only [List.forall_mem_cons]
    exact ⟨withRing_of_stray .host _ hr, withRing_of_stray .host _ hr, withRing_of_stray .host _ hr,
      withRing_of_stray .host _ hr, nofun⟩
  case remote =>
    simp only [List.forall_mem_cons]
    exact ⟨withRing_of_stray .remote _ hr, withRing_of_stray .remote _ hr, withRing_of_stray .remote _ hr, nofun⟩
  case timers =>
    simp only [List.forall_mem_cons]
    exact ⟨exec_retryTimerFire_of_stray hr, exec_resAckTimeout_of_stray hr, nofun⟩
  case headerLen =>
    rw [← headerLen_eq]
    exact exec_headerLen_of_no_start hs s
  case totalFrameLen => exact exec_totalFrameLen_of_illTyped hw s
  case frameForms =>
    simp only [List.forall_mem_cons]
    exact ⟨frameForm_of_illTyped, frameForm_of_illTyped, frameForm_of_illTyped, frameForm_of_illTyped, nofun⟩

end Sys2Proof.Machine
end
